-- ==== Sys2Proof/Word.lean ====
section
/-! DEFINITION. The widths of the block's values (00_scope R10, R11) and the width of a host access. -/

namespace Sys2Proof

/-- An 8-bit byte of a frame or a command field (R10). -/
abbrev Byte := BitVec 8

/-- A 16-bit value: a `u16`, or the two's-complement pattern of an `i16` (R11). -/
abbrev Half := BitVec 16

/-- A 32-bit host register or command word (R8 `WORD`, R10). -/
abbrev Word := BitVec 32

/-- A byte offset in the register window 0x000 to 0xFFF (R8 `REG_WINDOW`, R100). -/
abbrev Offset := BitVec 12

/-- The width of a host access. Only `word` is a whole access; the two narrower ones are moves the host
has and the block answers with BAD_ADDR (R107, R403). -/
inductive AccessSize where
  | byte
  | half
  | word
  deriving DecidableEq, Repr

end Sys2Proof
end

