-- ==== Sys2Proof/Config.lean ====
section
/-! DEFINITION. The fixed parameters of this hardware (00_scope R8), the constants of its linearizer
(42_linearizer R274) and the one free value of the model (log entry 4). -/

namespace Sys2Proof.Config

/-- `NCELL`: cells per frame (R8). -/
abbrev ncell : Nat := 12

/-- `NTEMP`: temperature sensors per frame (R8). -/
abbrev ntemp : Nat := 4

/-- `ROLL_N`: depth of the rolling history; 5 in this hardware (R8, log entry 10). -/
abbrev rollN : Nat := 5

/-- `TXQ_DEPTH`: entries of the transmit queue; 8 in this hardware (R8, log entry 10). -/
abbrev txqDepth : Nat := 8

/-- Ten times the Beta constant `B` = 3435 K of R274: the numerator of `10 * B / ln x`. -/
def tenBeta : Nat := 34350

/-- Numerator of `B / T0` = 3435 / 298.15, which is `-ln R_INF + ln R0` (R273, R274). -/
def betaOverT0Num : Nat := 343500

/-- Denominator of `B / T0` (R274). -/
def betaOverT0Den : Nat := 29815

/-- Fractional bits of the enclosures by which `THERM_REF` is computed (log entry 4). -/
def lnBits : Nat := 64

/-- Terms of the series each enclosure sums (log entry 4). -/
def lnTerms : Nat := 24

/-- FREE VALUE (log entry 4; DESIGN CHOICE, safe). What `THERM_CORE(code, vref)` gives where the enclosure of
`THERM_REF` does not decide the rounding of R273. Nothing is known of it but that it is an `i16` and depends on
`code` and `vref` alone, which is all R272 allows a model to assume there. -/
opaque thermEdge : Half → Half → Half

end Sys2Proof.Config
end

