-- ==== Sys2Proof/Syntax.lean ====
section
/-! DEFINITION. The instructions: the 21 commands of the opcode map (30_encoding R143) with the fields each
uses, and the two port transactions (46_host_interface R401, R402). A field a command ignores (R142) is no
operand. An operand field keeps its whole width, because a value out of its range is a command too: it raises
BAD_ARG (R140). -/

namespace Sys2Proof

/-- One constructor per row of the opcode table. -/
inductive Instr where
  /-- `NOP` (OP 0x00, R400). -/
  | nop
  /-- `PEC_INIT` (OP 0x01, R203). -/
  | pecInit
  /-- `PEC_BYTE` (OP 0x02, R204): A = byte. -/
  | pecByte (b : Byte)
  /-- `BUILD_CMD` (OP 0x03, R205): B = device command code. -/
  | buildCmd (c : Half)
  /-- `BUILD_WRCFG` (OP 0x04, R206): B = device command code. -/
  | buildWrcfg (c : Half)
  /-- `PARSE_CV` (OP 0x10, R231): A = group. -/
  | parseCv (g : Byte)
  /-- `PARSE_AUX` (OP 0x11, R232): A = group. -/
  | parseAux (g : Byte)
  /-- `PARSE_CFG` (OP 0x12, R233). -/
  | parseCfg
  /-- `BALANCE` (OP 0x13, R250). -/
  | balance
  /-- `SET_MODE` (OP 0x14, R255): A = mode. -/
  | setMode (m : Byte)
  /-- `LIN_TEMP` (OP 0x18, R275): A = sensor, B = raw code. -/
  | linTemp (j : Byte) (code : Half)
  /-- `UPD_CELL` (OP 0x20, R293): A = cell, B = value. -/
  | updCell (i : Byte) (v : Half)
  /-- `UPD_TEMP` (OP 0x21, R294): A = sensor, B = the pattern of an `i16`. -/
  | updTemp (j : Byte) (t : Half)
  /-- `CLOSE` (OP 0x22, R297). -/
  | close
  /-- `TX_VSUM` (OP 0x30, R330). -/
  | txVsum
  /-- `TX_TSUM` (OP 0x31, R331). -/
  | txTsum
  /-- `TX_CELL` (OP 0x32, R332): A = frame. -/
  | txCell (k : Byte)
  /-- `TX_TELEM` (OP 0x33, R334). -/
  | txTelem
  /-- `TXQ_POP` (OP 0x34, R335). -/
  | txqPop
  /-- `RX_FRAME` (OP 0x38, R340). -/
  | rxFrame
  /-- `TICK` (OP 0x40, R360). -/
  | tick
  /-- `rd` (port transaction, R401). -/
  | rd (off : Offset) (size : AccessSize)
  /-- `wr` (port transaction, R402). -/
  | wr (off : Offset) (size : AccessSize) (v : Word)
  deriving DecidableEq, Repr

end Sys2Proof
end

