-- ==== Sys2Proof/WellFormed.lean ====
section
/-! DEFINITION. Which operands an instruction accepts (30_encoding R143) and which host accesses are whole
aligned words (20_memory R107). An instruction that is not well formed still runs: the block answers it with
BAD_ARG (R145) or BAD_ADDR (R107). -/

namespace Sys2Proof

/-- A whole access at a word-aligned offset (R107). -/
def wholeWord (off : Offset) (size : AccessSize) : Bool :=
  size == .word && off.toNat % 4 == 0

/-- The operands are in the ranges of R143, or the access is a whole aligned word (R107). -/
def Instr.wf : Instr → Bool
  | .nop => true
  | .pecInit => true
  | .pecByte _ => true
  | .buildCmd _ => true
  | .buildWrcfg _ => true
  | .parseCv g => decide (g.toNat < 4)
  | .parseAux g => decide (g.toNat < 2)
  | .parseCfg => true
  | .balance => true
  | .setMode m => decide (m.toNat < 2)
  | .linTemp j _ => decide (j.toNat < Config.ntemp)
  | .updCell i _ => decide (i.toNat < Config.ncell)
  | .updTemp j _ => decide (j.toNat < Config.ntemp)
  | .close => true
  | .txVsum => true
  | .txTsum => true
  | .txCell k => decide (k.toNat < 4)
  | .txTelem => true
  | .txqPop => true
  | .rxFrame => true
  | .tick => true
  | .rd off size => wholeWord off size
  | .wr off size _ => wholeWord off size

/-- The instruction is a command: it has a command word (R143). The two port transactions have none. -/
def Instr.isCommand : Instr → Bool
  | .nop => true
  | .pecInit => true
  | .pecByte _ => true
  | .buildCmd _ => true
  | .buildWrcfg _ => true
  | .parseCv _ => true
  | .parseAux _ => true
  | .parseCfg => true
  | .balance => true
  | .setMode _ => true
  | .linTemp _ _ => true
  | .updCell _ _ => true
  | .updTemp _ _ => true
  | .close => true
  | .txVsum => true
  | .txTsum => true
  | .txCell _ => true
  | .txTelem => true
  | .txqPop => true
  | .rxFrame => true
  | .tick => true
  | .rd _ _ => false
  | .wr _ _ _ => false

end Sys2Proof
end

