-- ==== Sys2Proof/Decode.lean ====
section
/-! DEFINITION. The command word: its fields (30_encoding R141, R142), the decoder (R140, R143, R144) and the
encoder (R160). -/

namespace Sys2Proof

/-- `OP`, bits 7:0 of a command word (R141). -/
def opOf (w : Word) : Byte := w.extractLsb' 0 8

/-- `A`, bits 15:8 of a command word (R141). -/
def aOf (w : Word) : Byte := w.extractLsb' 8 8

/-- `B`, bits 31:16 of a command word (R141). -/
def bOf (w : Word) : Half := w.extractLsb' 16 16

/-- Why a word is no command. -/
inductive DecodeError where
  /-- `OP` is not a row of the opcode map (R144). Raised by the decoder; the write of such a word to `CMD` raises
  ILLEGAL_CMD, as the spec says. -/
  | illegalOp (op : Byte)
  deriving DecidableEq, Repr

/-- The command a word encodes (R140, R143). Total; every `OP` outside the map is rejected by name (R144). -/
def decode (w : Word) : Except DecodeError Instr :=
  match (opOf w).toNat with
  | 0x00 => .ok .nop
  | 0x01 => .ok .pecInit
  | 0x02 => .ok (.pecByte (aOf w))
  | 0x03 => .ok (.buildCmd (bOf w))
  | 0x04 => .ok (.buildWrcfg (bOf w))
  | 0x10 => .ok (.parseCv (aOf w))
  | 0x11 => .ok (.parseAux (aOf w))
  | 0x12 => .ok .parseCfg
  | 0x13 => .ok .balance
  | 0x14 => .ok (.setMode (aOf w))
  | 0x18 => .ok (.linTemp (aOf w) (bOf w))
  | 0x20 => .ok (.updCell (aOf w) (bOf w))
  | 0x21 => .ok (.updTemp (aOf w) (bOf w))
  | 0x22 => .ok .close
  | 0x30 => .ok .txVsum
  | 0x31 => .ok .txTsum
  | 0x32 => .ok (.txCell (aOf w))
  | 0x33 => .ok .txTelem
  | 0x34 => .ok .txqPop
  | 0x38 => .ok .rxFrame
  | 0x40 => .ok .tick
  | _ => .error (.illegalOp (opOf w))

/-- The command word of the fields: `OP | A << 8 | B << 16` (R160). -/
def commandWord (op : Byte) (a : Byte) (b : Half) : Word := b ++ a ++ op

/-- The command word of an instruction, its unused fields 0 (R160). A port transaction has none (R143). -/
def encode : Instr → Option Word
  | .nop => some (commandWord 0x00 0 0)
  | .pecInit => some (commandWord 0x01 0 0)
  | .pecByte b => some (commandWord 0x02 b 0)
  | .buildCmd c => some (commandWord 0x03 0 c)
  | .buildWrcfg c => some (commandWord 0x04 0 c)
  | .parseCv g => some (commandWord 0x10 g 0)
  | .parseAux g => some (commandWord 0x11 g 0)
  | .parseCfg => some (commandWord 0x12 0 0)
  | .balance => some (commandWord 0x13 0 0)
  | .setMode m => some (commandWord 0x14 m 0)
  | .linTemp j code => some (commandWord 0x18 j code)
  | .updCell i v => some (commandWord 0x20 i v)
  | .updTemp j t => some (commandWord 0x21 j t)
  | .close => some (commandWord 0x22 0 0)
  | .txVsum => some (commandWord 0x30 0 0)
  | .txTsum => some (commandWord 0x31 0 0)
  | .txCell k => some (commandWord 0x32 k 0)
  | .txTelem => some (commandWord 0x33 0 0)
  | .txqPop => some (commandWord 0x34 0 0)
  | .rxFrame => some (commandWord 0x38 0 0)
  | .tick => some (commandWord 0x40 0 0)
  | .rd _ _ => none
  | .wr _ _ _ => none

/-- The command word whose low `nbits` bits are those of `w` and whose other bits are 0. The block's one word is
32 bits, bit 0 the least significant (R141), as the opcode table numbers them. -/
def tableWord (nbits w : Nat) : Word := BitVec.ofNat 32 (w % 2 ^ nbits)

/-- What the decoder reads from an opcode-table word. A row without bits is a port transaction and no command word
(R143). -/
def decodeTableWord (nbits w : Nat) : Option Instr :=
  if nbits = 0 then none else (decode (tableWord nbits w)).toOption

end Sys2Proof
end

