-- ==== Sys2Proof/Machine/State.lean ====
section
/-! DEFINITION. The state of the block (10_state R30 to R66), of its reset input (70_reset R461) and of the
model's host side (log entries 1 and 2); the ways a step can stop; the state after reset (70_reset R460). -/

namespace Sys2Proof.Machine

/-- `STATUS.SUP`, the safety-sequencer state (R35, R373). The value 3 is never held (R67), so it has no name
here (log entry 7). -/
inductive Sup where
  | idleSafe
  | debSafe
  | fault
  deriving DecidableEq, Repr

/-- `STATUS.MODE`, the OperatingMode (R35). -/
inductive OpMode where
  | normal
  | balancing
  deriving DecidableEq, Repr

/-- The seven aggregates of a frame or of the pack (R60, R64). The three temperatures are `i16` patterns. -/
structure Aggregates where
  vmin : Half
  vmax : Half
  vavg : Half
  vtot : Word
  tmin : Half
  tmax : Half
  tavg : Half
  deriving DecidableEq, Repr

/-- A CellFrame record (R60, R290). The temperatures are `i16` patterns. -/
structure CellFrame where
  cell : Vector Half Config.ncell
  temp : Vector Half Config.ntemp
  agg : Aggregates
  deriving DecidableEq, Repr

/-- An entry of the transmit queue (R65). -/
structure BusFrame where
  id : Word
  len : Fin 9
  data : Vector Byte 8
  deriving DecidableEq, Repr

/-- The RW registers, each as its defined bits (R33, log entry 13). Only a host write or reset changes them. -/
structure HostRegs where
  /-- `CTRL` bits 3:0: LIMSRC, FREP, WDOG_EN, PECPOL (R34). -/
  ctrl : BitVec 4
  /-- `IRQ_EN` bits 9:0 (R39). -/
  irqErr : BitVec 10
  /-- `IRQ_EN` bits 19:16 (R39). -/
  irqEvt : BitVec 4
  /-- `RXB0` (R42). -/
  rxb0 : Word
  /-- `RXB1` (R42). -/
  rxb1 : Word
  /-- `CFG_A` bits 6:0: GPIO[4:0], REFON, ADCOPT (R44). -/
  cfgA : BitVec 7
  /-- `CFG_THR` bits 11:0 (R45). -/
  vuv : BitVec 12
  /-- `CFG_THR` bits 27:16 (R45). -/
  vov : BitVec 12
  /-- `BAL_EPS` bits 15:0 (R48). -/
  balEps : Half
  /-- `VLIM` bits 15:0 (R49). -/
  vminLim : Half
  /-- `VLIM` bits 31:16 (R49). -/
  vmaxLim : Half
  /-- `TLIM` bits 15:0, an `i16` pattern (R50). -/
  tminLim : Half
  /-- `TLIM` bits 31:16, an `i16` pattern (R50). -/
  tmaxLim : Half
  /-- `DEB_MS` (R51). -/
  debMs : Word
  /-- `LIN_VREF` bits 15:0 (R52). -/
  linVref : Half
  /-- `CURRENT` (R53). -/
  current : Word
  /-- `ID_VSUM` (R54). -/
  idVsum : Word
  /-- `ID_TSUM` (R54). -/
  idTsum : Word
  /-- `ID_CELL` (R54). -/
  idCell : Word
  /-- `ID_FAULT` (R54). -/
  idFault : Word
  /-- `ID_BAL` (R54). -/
  idBal : Word
  /-- `ID_DIAG` (R54). -/
  idDiag : Word
  /-- `RX_ID` (R55). -/
  rxId : Word
  /-- `RX_LEN` bits 3:0 (R55). -/
  rxLen : BitVec 4
  /-- `RX_D0` (R55). -/
  rxD0 : Word
  /-- `RX_D1` (R55). -/
  rxD1 : Word
  deriving DecidableEq, Repr

/-- The stored fields of `STATUS` (R35, R66). -/
structure Status where
  sup : Sup
  mode : OpMode
  balReq : Bool
  diag : Bool
  cfgPend : Bool
  cause : BitVec 5
  deriving DecidableEq, Repr

/-- The command-frame buffer `TXB0` to `TXB2` and `TX_LEN` (R43). -/
structure TxBuffer where
  w0 : Word
  w1 : Word
  w2 : Word
  len : BitVec 4
  deriving DecidableEq, Repr

/-- The counters a host write clears (R57). -/
structure Counters where
  pecErr : Half
  fault : Half
  cycle : Word
  deriving DecidableEq, Repr

/-- The sequencer registers `LAST_GOOD`, `LAST_FTX` and `FCAUSE` (R58). -/
structure Sequencer where
  lastGood : Word
  lastFtx : Word
  fcause : BitVec 5
  deriving DecidableEq, Repr

/-- One event of a run (R15): a host access, a strobe of the timebase, or an edge of the reset input. -/
inductive Event where
  | hostRead (off : Offset) (size : AccessSize)
  | hostWrite (off : Offset) (size : AccessSize) (v : Word)
  | strobe
  | rstAssert
  | rstRelease
  deriving DecidableEq, Repr

/-- Everything the spec gives the block, its reset input, and the model's host side. -/
structure State where
  regs : HostRegs
  status : Status
  /-- `ERR` (R37). -/
  err : BitVec 10
  /-- `EVT` (R38). -/
  evt : BitVec 4
  /-- `MS_COUNT` (R40). -/
  msCount : Word
  /-- `PEC_REM` (R41). -/
  pecRem : BitVec 15
  txb : TxBuffer
  /-- `DCC`, the discharge bitmap (R46). -/
  dcc : BitVec 12
  /-- `TXQ`, the head first (R65). -/
  txq : List BusFrame
  cnt : Counters
  seq : Sequencer
  /-- `CURSOR` (R59, log entry 8). -/
  cursor : Fin Config.rollN
  /-- `HIST` (R60). -/
  hist : Vector CellFrame Config.rollN
  /-- `CUR` (R61). -/
  cur : CellFrame
  /-- `AUX_RAW` (R62). -/
  auxRaw : Vector Half Config.ntemp
  /-- `P_VMIN` to `P_TAVG` (R64). -/
  pack : Aggregates
  /-- The level of the `rst` input (R461). -/
  rst : Bool
  /-- The MODEL's own: the values host reads have returned, oldest first (R404, log entry 2). -/
  reads : List Word
  /-- The MODEL's own: the events still to come (R15, R404, log entry 1). -/
  sched : List Event
  deriving DecidableEq, Repr

/-- How a step can stop with a fault: in no way. No error, event or command halts, traps or faults the block
(R423, R445), so the type has no constructor (log entry 14; safe, nothing is hidden in it). -/
inductive Fault where
  deriving DecidableEq, Repr

/-- How a step can be refused. -/
inductive Refusal where
  /-- Raised by the dispatcher for an instruction without a meaning. Safe: the machine stops where the hardware
  goes on. No arm of this model raises it. -/
  | notModelled (mnemonic : String)
  /-- Raised by a step whose event is a host access while `rst` is asserted, a move the spec lets a model refuse
  (R461, 93_implementation_defined I21, log entry 3). Safe: no claim is made of such a run. -/
  | accessDuringReset
  deriving DecidableEq, Repr

/-- The aggregates of an all-zero frame (R60). -/
def Aggregates.zero : Aggregates := ⟨0, 0, 0, 0, 0, 0, 0⟩

/-- An all-zero frame (R60, R61). -/
def CellFrame.zero : CellFrame :=
  ⟨Vector.replicate Config.ncell 0, Vector.replicate Config.ntemp 0, Aggregates.zero⟩

/-- The RW registers after reset (R460). -/
def HostRegs.reset : HostRegs where
  ctrl := 0x2
  irqErr := 0
  irqEvt := 0
  rxb0 := 0
  rxb1 := 0
  cfgA := 0
  vuv := 0
  vov := 0
  balEps := 0
  vminLim := 0x7D00
  vmaxLim := 0xA730
  tminLim := 0x8001
  tmaxLim := 0x7FFE
  debMs := 450
  linVref := 30000
  current := 0
  idVsum := 0x110
  idTsum := 0x111
  idCell := 0x112
  idFault := 0x11F
  idBal := 0x120
  idDiag := 0x121
  rxId := 0
  rxLen := 0
  rxD0 := 0
  rxD1 := 0

/-- The state right after reset: every field at the value R460 states, `rst` released, nothing read, no event to
come (log entries 1 to 3). -/
def State.reset : State where
  regs := HostRegs.reset
  status := ⟨.idleSafe, .normal, false, false, true, 0⟩
  err := 0
  evt := 0
  msCount := 0
  pecRem := 0x0010
  txb := ⟨0, 0, 0, 0⟩
  dcc := 0
  txq := []
  cnt := ⟨0, 0, 0⟩
  seq := ⟨0, 0, 0⟩
  cursor := 0
  hist := Vector.replicate Config.rollN CellFrame.zero
  cur := CellFrame.zero
  auxRaw := Vector.replicate Config.ntemp 0
  pack := Aggregates.zero
  rst := false
  reads := []
  sched := []

end Sys2Proof.Machine
end

