-- ==== Sys2Proof/Machine/Ops.lean ====
section
/-! DEFINITION. The shared operations: raising an error or an event bit (60_exceptions R420, R425, which here take
the place of taking an exception, R445), byte order (00_scope R13, 20_memory R102), the rounded average and the
aggregates (43_state_model R291, R292), the working frame, the newest closed frame (10_state R63) and the push
onto the transmit queue (44_bus R320). -/

namespace Sys2Proof.Machine

/-! Errors and events -/

/-- The error causes of R420, in the order of their codes. -/
inductive ErrBit where
  | illegalCmd
  | badArg
  | pecCv
  | pecAux
  | pecCfg
  | cfgMismatch
  | txqOvf
  | txqUnf
  | mode
  | badAddr
  deriving DecidableEq, Repr

/-- The code of an error cause: its bit of `ERR` (R37, R420). -/
def ErrBit.code : ErrBit → Nat
  | .illegalCmd => 0
  | .badArg => 1
  | .pecCv => 2
  | .pecAux => 3
  | .pecCfg => 4
  | .cfgMismatch => 5
  | .txqOvf => 6
  | .txqUnf => 7
  | .mode => 8
  | .badAddr => 9

/-- The events of R425, in the order of their bits. -/
inductive EvtBit where
  | faultEnter
  | faultExit
  | cycle
  | rxMatch
  deriving DecidableEq, Repr

/-- The bit of `EVT` of an event (R38, R425). -/
def EvtBit.code : EvtBit → Nat
  | .faultEnter => 0
  | .faultExit => 1
  | .cycle => 2
  | .rxMatch => 3

/-- `raise Err(e)`: sets the sticky bit `ERR.e` and nothing else (R12, R420, R421). -/
def raiseErr (e : ErrBit) (s : State) : State :=
  { s with err := s.err ||| (1#10 <<< e.code) }

/-- `event(e)`: sets the sticky bit `EVT.e` and nothing else (R12, R425). -/
def raiseEvt (e : EvtBit) (s : State) : State :=
  { s with evt := s.evt ||| (1#4 <<< e.code) }

/-! Bytes and words -/

/-- Byte `k` of a word, little-endian: bits `8k+7:8k` (R102). -/
def byteOf (w : Word) (k : Nat) : Byte := w.extractLsb' (8 * k) 8

/-- The word whose bytes are `b0` (bits 7:0) to `b3` (R102). -/
def wordOf (b0 b1 b2 b3 : Byte) : Word := b3 ++ b2 ++ b1 ++ b0

/-- `le16` (R13). -/
def le16 (v : Half) : List Byte := [v.extractLsb' 0 8, v.extractLsb' 8 8]

/-- `be16` (R13). -/
def be16 (v : Half) : List Byte := [v.extractLsb' 8 8, v.extractLsb' 0 8]

/-- `le32` (R13). -/
def le32 (v : Word) : List Byte := [byteOf v 0, byteOf v 1, byteOf v 2, byteOf v 3]

/-- `sat16` of a natural number (R11). -/
def sat16 (n : Nat) : Half := BitVec.ofNat 16 (min n 0xFFFF)

/-- `zext_32` of a 16-bit field (R11). -/
def zext32 (v : Half) : Word := v.setWidth 32

/-- `sext_32` of an `i16` field (R11). -/
def sext32 (v : Half) : Word := v.signExtend 32

/-! Averages and aggregates -/

/-- `RoundDiv(S, n)` for `n ≥ 1`: the nearest integer to `S / n`, halves toward +∞ (R291). -/
def roundDiv (S : Int) (n : Nat) : Int := (2 * S + n) / (2 * n)

/-- The least of a list of integers (0 for the empty list, which no caller passes). -/
def minOf : List Int → Int
  | [] => 0
  | x :: xs => xs.foldl min x

/-- The greatest of a list of integers (0 for the empty list, which no caller passes). -/
def maxOf : List Int → Int
  | [] => 0
  | x :: xs => xs.foldl max x

/-- The sum of a list of integers. -/
def sumOf (xs : List Int) : Int := xs.foldl (fun a x => a + x) 0

/-- The cells of a frame as integers (`u16`, R290). -/
def cellInts (cell : Vector Half Config.ncell) : List Int := cell.toList.map fun c => (c.toNat : Int)

/-- The temperatures of a frame as integers (`i16`, R290). -/
def tempInts (temp : Vector Half Config.ntemp) : List Int := temp.toList.map BitVec.toInt

/-- `Aggs`: the aggregates of twelve cells and four temperatures (R292). -/
def aggsOf (cell : Vector Half Config.ncell) (temp : Vector Half Config.ntemp) : Aggregates where
  vmin := BitVec.ofInt 16 (minOf (cellInts cell))
  vmax := BitVec.ofInt 16 (maxOf (cellInts cell))
  vavg := BitVec.ofInt 16 (roundDiv (sumOf (cellInts cell)) Config.ncell)
  vtot := BitVec.ofInt 32 (sumOf (cellInts cell))
  tmin := BitVec.ofInt 16 (minOf (tempInts temp))
  tmax := BitVec.ofInt 16 (maxOf (tempInts temp))
  tavg := BitVec.ofInt 16 (roundDiv (sumOf (tempInts temp)) Config.ntemp)

/-- A frame with its aggregates recomputed in full (R292). -/
def CellFrame.refresh (f : CellFrame) : CellFrame := { f with agg := aggsOf f.cell f.temp }

/-- The working frame with its aggregates recomputed: `Aggs(CUR)` (R292). -/
def refreshCur (s : State) : State := { s with cur := s.cur.refresh }

/-- `CUR.cell[i] <- v`, without the recomputation (R12). -/
def putCell (i : Fin Config.ncell) (v : Half) (s : State) : State :=
  { s with cur := { s.cur with cell := s.cur.cell.set i.val v i.isLt } }

/-- `CUR.temp[j] <- t`, without the recomputation (R12). -/
def putTemp (j : Fin Config.ntemp) (t : Half) (s : State) : State :=
  { s with cur := { s.cur with temp := s.cur.temp.set j.val t j.isLt } }

/-! The history -/

/-- `(CURSOR + 1) mod ROLL_N` (R295). -/
def nextSlot (c : Fin Config.rollN) : Fin Config.rollN :=
  ⟨(c.val + 1) % Config.rollN, Nat.mod_lt _ (by decide)⟩

/-- `(CURSOR + ROLL_N - 1) mod ROLL_N`: the slot of the newest closed frame (R63, R295). -/
def newestSlot (c : Fin Config.rollN) : Fin Config.rollN :=
  ⟨(c.val + Config.rollN - 1) % Config.rollN, Nat.mod_lt _ (by decide)⟩

/-- The most recently closed frame (R63). -/
def newest (s : State) : CellFrame := s.hist[newestSlot s.cursor]

/-! The transmit queue -/

/-- `bytes ++ zeros to 8 bytes` (R320). -/
def padData (bytes : List Byte) : Vector Byte 8 := Vector.ofFn fun k => bytes.getD k.val 0

/-- The queue entry of a frame of at most 8 bytes (R320). -/
def busFrame (id : Word) (bytes : List Byte) : BusFrame :=
  ⟨id, ⟨min bytes.length 8, by omega⟩, padData bytes⟩

/-- `Push(id, bytes)`: appends a frame, or drops it and raises TXQ_OVF when the queue is full (R320). A queue longer
than `TXQ_DEPTH` is full as well (log entry 11). -/
def push (id : Word) (bytes : List Byte) (s : State) : State :=
  if Config.txqDepth ≤ s.txq.length then raiseErr .txqOvf s
  else { s with txq := s.txq ++ [busFrame id bytes] }

/-! Counters, modes -/

/-- `min(n + 1, 0xFFFF)`: a 16-bit saturating count (R57). -/
def satIncr (n : Half) : Half := sat16 (n.toNat + 1)

/-- `(now - since) mod 2^32 ≥ DEB_MS` (R363, R366, R371). -/
def elapsed (s : State) (since : Word) : Bool := decide (s.regs.debMs ≤ s.msCount - since)

/-- The mode a mode number or a balancing request asks for: 0 Normal, 1 Balancing (R255, R367). -/
def modeOf (balancing : Bool) : OpMode := if balancing then .balancing else .normal

/-- `STATUS.SUP <- x` (R360, R364). -/
def setSup (x : Sup) (s : State) : State := { s with status := { s.status with sup := x } }

/-- `STATUS.CAUSE <- c` (R360, R371). -/
def setCause (c : BitVec 5) (s : State) : State := { s with status := { s.status with cause := c } }

/-- `STATUS.CFG_PEND <- 1` (R240). -/
def pendCfg (s : State) : State := { s with status := { s.status with cfgPend := true } }

end Sys2Proof.Machine
end

