-- ==== Sys2Proof/Machine/Operands.lean ====
section
/-! DEFINITION. The operands of commands and the fields of the RW registers they read: the range check of operand A
(30_encoding R140, R145), the fields of `CTRL` (10_state R34), the byte buffers (R42, R43, R55) and the configuration
bytes (41_protocol R241). -/

namespace Sys2Proof.Machine

/-- Operand A as an index below `n`, or none where it is out of the range R143 gives (R140, R145). -/
def operandA (a : Byte) (n : Nat) : Option (Fin n) :=
  if h : a.toNat < n then some ⟨a.toNat, h⟩ else none

/-! `CTRL` (R34) -/

/-- `CTRL.PECPOL`. -/
def pecpol (s : State) : Bool := s.regs.ctrl.getLsbD 0

/-- `CTRL.WDOG_EN`. -/
def wdogEn (s : State) : Bool := s.regs.ctrl.getLsbD 1

/-- `CTRL.FREP`. -/
def frep (s : State) : Bool := s.regs.ctrl.getLsbD 2

/-- `CTRL.LIMSRC`. -/
def limsrc (s : State) : Bool := s.regs.ctrl.getLsbD 3

/-! Byte buffers -/

/-- `RXB[0..5]`, the data bytes of the response frame (R42, R152). -/
def rxData (s : State) : List Byte :=
  [byteOf s.regs.rxb0 0, byteOf s.regs.rxb0 1, byteOf s.regs.rxb0 2, byteOf s.regs.rxb0 3,
    byteOf s.regs.rxb1 0, byteOf s.regs.rxb1 1]

/-- The received PEC `{RXB[6], RXB[7]}`, big-endian (R152, R230). -/
def rxPec (s : State) : Half := byteOf s.regs.rxb1 2 ++ byteOf s.regs.rxb1 3

/-- `word_j = d[2j] | (d[2j+1] << 8)` of the response frame's data (R152). -/
def rxWord (s : State) (j : Nat) : Half := (rxData s).getD (2 * j + 1) 0 ++ (rxData s).getD (2 * j) 0

/-- `RX[0]`, the first payload byte of the inbound frame (R55, R340). -/
def rxByte0 (s : State) : Byte := byteOf s.regs.rxD0 0

/-- The buffer holding the twelve bytes of `TXB[0..11]`, with `TX_LEN` (R43). -/
def txBuffer (b : List Byte) (len : BitVec 4) : TxBuffer where
  w0 := wordOf (b.getD 0 0) (b.getD 1 0) (b.getD 2 0) (b.getD 3 0)
  w1 := wordOf (b.getD 4 0) (b.getD 5 0) (b.getD 6 0) (b.getD 7 0)
  w2 := wordOf (b.getD 8 0) (b.getD 9 0) (b.getD 10 0) (b.getD 11 0)
  len := len

/-! The configuration mirror (R241) -/

/-- `CFG[0]`. -/
def cfg0 (s : State) : Byte :=
  s.regs.cfgA.extractLsb' 2 5 ++ s.regs.cfgA.extractLsb' 1 1 ++ 0#1 ++ s.regs.cfgA.extractLsb' 0 1

/-- `CFG[1]`. -/
def cfg1 (s : State) : Byte := s.regs.vuv.extractLsb' 0 8

/-- `CFG[2]`. -/
def cfg2 (s : State) : Byte := s.regs.vov.extractLsb' 0 4 ++ s.regs.vuv.extractLsb' 8 4

/-- `CFG[3]`. -/
def cfg3 (s : State) : Byte := s.regs.vov.extractLsb' 4 8

/-- `CFG[4]`. -/
def cfg4 (s : State) : Byte := s.dcc.extractLsb' 0 8

/-- `CFG[5]`. -/
def cfg5 (s : State) : Byte := 0#4 ++ s.dcc.extractLsb' 8 4

/-- `CFG[0..5]`, computed from `CFG_A`, `CFG_THR` and `DCC`, never stored (R241). -/
def cfgBytes (s : State) : List Byte := [cfg0 s, cfg1 s, cfg2 s, cfg3 s, cfg4 s, cfg5 s]

end Sys2Proof.Machine
end

