-- ==== Sys2Proof/Machine/Flags.lean ====
section
/-! DEFINITION. The flags: the cause bits of a limit check (45_supervisor R361), the word `STATUS` (10_state R35)
and the two outputs (45_supervisor R375, 60_exceptions R430, 70_reset R461). -/

namespace Sys2Proof.Machine

/-- Bit WD of the cause bits (R371). -/
def causeWd : BitVec 5 := 0x10

/-- The aggregates the limit check looks at: the pack's, or the newest closed frame's own (R361). -/
def limitSource (s : State) : Aggregates := if limsrc s then (newest s).agg else s.pack

/-- `Limits()`: the cause bits UV, OV, UT, OT (bits 0 to 3), each 1 exactly when its limit is violated; bounds
inclusive, voltages unsigned, temperatures signed (R361). -/
def limits (s : State) : BitVec 5 :=
  0#1 ++ BitVec.ofBool ((s.regs.tmaxLim).slt (limitSource s).tmax)
    ++ BitVec.ofBool ((limitSource s).tmin.slt s.regs.tminLim)
    ++ BitVec.ofBool (s.regs.vmaxLim.ult (limitSource s).vmax)
    ++ BitVec.ofBool ((limitSource s).vmin.ult s.regs.vminLim)

/-- The code of the sequencer state in `STATUS.SUP` (R35). -/
def Sup.code : Sup → BitVec 2
  | .idleSafe => 0
  | .debSafe => 1
  | .fault => 2

/-- The code of the operating mode in `STATUS.MODE` (R35). -/
def OpMode.code : OpMode → BitVec 1
  | .normal => 0
  | .balancing => 1

/-- `STATUS.ILK_OK`: `SUP ≠ FAULT` (R35, R375). -/
def ilkOkBit (s : State) : Bool := s.status.sup != .fault

/-- `STATUS` as read (R35): CAUSE, TXQ_CNT, NEEDS_DIS, ILK_OK, CFG_PEND, DIAG, BAL_REQ, MODE, SUP. -/
def statusWord (s : State) : Word :=
  0#15 ++ s.status.cause ++ BitVec.ofNat 4 s.txq.length ++ BitVec.ofBool (s.dcc != 0)
    ++ BitVec.ofBool (ilkOkBit s) ++ BitVec.ofBool s.status.cfgPend ++ BitVec.ofBool s.status.diag
    ++ BitVec.ofBool s.status.balReq ++ s.status.mode.code ++ s.status.sup.code

/-- The output `ilk_ok`: `SUP ≠ FAULT`, and 0 while `rst` is asserted (R17, R375, R461). -/
def ilkOk (s : State) : Bool := !s.rst && ilkOkBit s

/-- The output `irq`: an enabled sticky bit is set, and 0 while `rst` is asserted (R430, R461). -/
def irq (s : State) : Bool :=
  !s.rst && ((s.err &&& s.regs.irqErr) != 0 || (s.evt &&& s.regs.irqEvt) != 0)

end Sys2Proof.Machine
end

