-- ==== Sys2Proof/Machine/Pec.lean ====
section
/-! DEFINITION. The PEC-15 function (40_pec R200 to R202), the streaming engine (R203, R204) and the command-frame
builder (R205, R206). -/

namespace Sys2Proof.Machine

/-- One of the eight rounds by which a table entry is generated (R200). -/
def pecRound (r : Half) : Half := if r.getLsbD 14 then (r <<< 1) ^^^ 0x4599 else r <<< 1

/-- `n` rounds (R200). -/
def pecRounds : Nat → Half → Half
  | 0, r => r
  | n + 1, r => pecRounds n (pecRound r)

/-- `PEC_T[i]` (R200). -/
def pecTable (i : Byte) : Half := pecRounds 8 (i.setWidth 16 <<< 7)

/-- `Fold(rem, b)` (R202). -/
def pecFold (rem : BitVec 15) (b : Byte) : BitVec 15 :=
  (rem <<< 8) ^^^ (pecTable ((rem >>> 7).setWidth 8 ^^^ b)).setWidth 15

/-- The seed "remainder = 16" (R201). -/
def pecSeed : BitVec 15 := 0x0010

/-- The remainder after the bytes, from the seed (R201). -/
def pecRemainder (bytes : List Byte) : BitVec 15 := bytes.foldl pecFold pecSeed

/-- `(rem << 1) mod 2^16`: a remainder as it goes on the wire (R41, R201). -/
def pecWire (rem : BitVec 15) : Half := rem.setWidth 16 <<< 1

/-- `Pec(bytes)` (R201). -/
def pec (bytes : List Byte) : Half := pecWire (pecRemainder bytes)

/-- `PEC_INIT` (R203). -/
def execPecInit (s : State) : Host.Outcome State Fault Refusal := .next { s with pecRem := pecSeed }

/-- `PEC_BYTE` (R204). -/
def execPecByte (b : Byte) (s : State) : Host.Outcome State Fault Refusal :=
  .next { s with pecRem := pecFold s.pecRem b }

/-- The bytes of a command frame: the code and its PEC, both big-endian (R150). -/
def commandFrame (c : Half) : List Byte := be16 c ++ be16 (pec (be16 c))

/-- The bytes of a write-configuration frame (R151). -/
def wrcfgFrame (c : Half) (cfg : List Byte) : List Byte := commandFrame c ++ cfg ++ be16 (pec cfg)

/-- `BUILD_CMD` (R205). -/
def execBuildCmd (c : Half) (s : State) : Host.Outcome State Fault Refusal :=
  .next { s with txb := txBuffer (commandFrame c) 4 }

/-- `BUILD_WRCFG` (R206). -/
def execBuildWrcfg (c : Half) (s : State) : Host.Outcome State Fault Refusal :=
  .next { s with
    txb := txBuffer (wrcfgFrame c (cfgBytes s)) 12
    status := { s.status with cfgPend := false } }

end Sys2Proof.Machine
end

