-- ==== Sys2Proof/Machine/RegMap.lean ====
section
/-! DEFINITION. The register map: which register an offset names, its access kind and the word a read of it gives
(10_state R31 to R64). -/

namespace Sys2Proof.Machine

/-- The seven aggregate fields, in the order of their registers (R32, R60). -/
inductive AggField where
  | vmin
  | vmax
  | vavg
  | vtot
  | tmin
  | tmax
  | tavg
  deriving DecidableEq, Repr

/-- The registers of the map (R32). -/
inductive Reg where
  | blkId
  | ctrl
  | status
  | err
  | evt
  | irqEn
  | cmd
  | msCount
  | pecRem
  | pecOut
  | rxb0
  | rxb1
  | txb0
  | txb1
  | txb2
  | txLen
  | cfgA
  | cfgThr
  | dcc
  | cfgb0
  | cfgb1
  | balEps
  | vlim
  | tlim
  | debMs
  | linVref
  | current
  | idVsum
  | idTsum
  | idCell
  | idFault
  | idBal
  | idDiag
  | rxId
  | rxLen
  | rxD0
  | rxD1
  | txqId
  | txqLen
  | txqD0
  | txqD1
  | pecErrCnt
  | faultCnt
  | cycleCnt
  | lastGood
  | lastFtx
  | cursor
  | fcause
  | curCell (i : Fin Config.ncell)
  | curTemp (j : Fin Config.ntemp)
  | auxRaw (j : Fin Config.ntemp)
  | curAgg (a : AggField)
  | packAgg (a : AggField)
  | lastCell (i : Fin Config.ncell)
  | hist (slot : Fin Config.rollN) (w : Fin 23)
  deriving DecidableEq, Repr

/-- The access kinds of R32. -/
inductive Access where
  | rw
  | ro
  | wo
  | w1c
  | wc
  deriving DecidableEq, Repr

/-- The registers at offsets 0x000, 0x004, … 0x0BC, in order (R32). -/
def lowRegs : List Reg :=
  [.blkId, .ctrl, .status, .err, .evt, .irqEn, .cmd, .msCount, .pecRem, .pecOut, .rxb0, .rxb1, .txb0, .txb1, .txb2,
    .txLen, .cfgA, .cfgThr, .dcc, .cfgb0, .cfgb1, .balEps, .vlim, .tlim] ++
  [.debMs, .linVref, .current, .idVsum, .idTsum, .idCell, .idFault, .idBal, .idDiag, .rxId, .rxLen, .rxD0, .rxD1,
    .txqId, .txqLen, .txqD0, .txqD1, .pecErrCnt, .faultCnt, .cycleCnt, .lastGood, .lastFtx, .cursor, .fcause]

/-- The aggregate fields in the order of their registers (R32, R60). -/
def aggFields : List AggField := [.vmin, .vmax, .vavg, .vtot, .tmin, .tmax, .tavg]

/-- Word `n` of a run of `k` registers named by an index, or none past its end. -/
def arrayReg (k : Nat) (f : Fin k → Reg) (n : Nat) : Option Reg := if h : n < k then some (f ⟨n, h⟩) else none

/-- The register of word `w` of the history area: slots of 0x80 bytes, 23 words used in each (R60). -/
def histReg (w : Nat) : Option Reg :=
  if h : w / 32 < Config.rollN ∧ w % 32 < 23 then some (.hist ⟨w / 32, h.1⟩ ⟨w % 32, h.2⟩) else none

/-- The register of word `n` of the window (offset `4n`), or none where the map has none (R32). -/
def regAtWord (n : Nat) : Option Reg :=
  if n < 0x100 / 4 then lowRegs[n]?
  else if n < 0x130 / 4 then arrayReg Config.ncell .curCell (n - 0x100 / 4)
  else if n < 0x140 / 4 then arrayReg Config.ntemp .curTemp (n - 0x130 / 4)
  else if n < 0x150 / 4 then arrayReg Config.ntemp .auxRaw (n - 0x140 / 4)
  else if n < 0x180 / 4 then (aggFields[n - 0x150 / 4]?).map .curAgg
  else if n < 0x1C0 / 4 then (aggFields[n - 0x180 / 4]?).map .packAgg
  else if n < 0x200 / 4 then arrayReg Config.ncell .lastCell (n - 0x1C0 / 4)
  else histReg (n - 0x200 / 4)

/-- The register a whole aligned access addresses; none is BAD_ADDR (R104 to R107). -/
def busReg (off : Offset) (size : AccessSize) : Option Reg :=
  if wholeWord off size then regAtWord (off.toNat / 4) else none

/-- The access kind of a register (R32). -/
def Reg.access : Reg → Access
  | .ctrl | .irqEn | .rxb0 | .rxb1 | .cfgA | .cfgThr | .balEps | .vlim | .tlim | .debMs | .linVref | .current => .rw
  | .idVsum | .idTsum | .idCell | .idFault | .idBal | .idDiag | .rxId | .rxLen | .rxD0 | .rxD1 => .rw
  | .err | .evt => .w1c
  | .pecErrCnt | .faultCnt | .cycleCnt => .wc
  | .cmd => .wo
  | .blkId | .status | .msCount | .pecRem | .pecOut | .txb0 | .txb1 | .txb2 | .txLen | .dcc | .cfgb0 | .cfgb1 => .ro
  | .txqId | .txqLen | .txqD0 | .txqD1 | .lastGood | .lastFtx | .cursor | .fcause => .ro
  | .curCell _ | .curTemp _ | .auxRaw _ | .curAgg _ | .packAgg _ | .lastCell _ | .hist _ _ => .ro

/-- An aggregate as its register reads: voltages zero-extended, temperatures sign-extended (R60, R61, R64). -/
def aggWord (a : Aggregates) : AggField → Word
  | .vmin => zext32 a.vmin
  | .vmax => zext32 a.vmax
  | .vavg => zext32 a.vavg
  | .vtot => a.vtot
  | .tmin => sext32 a.tmin
  | .tmax => sext32 a.tmax
  | .tavg => sext32 a.tavg

/-- Word `w` of a frame in the slot layout of R60. -/
def frameWord (f : CellFrame) (w : Fin 23) : Word :=
  if h : w.val < 12 then zext32 (f.cell[w.val]'h)
  else if h : w.val < 16 then sext32 (f.temp[w.val - 12]'(by simp only [Config.ntemp]; omega))
  else aggWord f.agg (aggFields.getD (w.val - 16) .vmin)

/-- The head of the transmit queue: identifier, length and two data words, all 0 when it is empty (R56). -/
def txqHead (s : State) : Word × Word × Word × Word :=
  match s.txq with
  | [] => (0, 0, 0, 0)
  | f :: _ => (f.id, BitVec.ofNat 32 f.len.val, wordOf f.data[0] f.data[1] f.data[2] f.data[3],
      wordOf f.data[4] f.data[5] f.data[6] f.data[7])

/-- The word a read of a register gives; reserved bits 0, `CMD` 0 (R31 to R64, R104). -/
def readReg (r : Reg) (s : State) : Word :=
  match r with
  | .blkId => 0x424D5331
  | .ctrl => s.regs.ctrl.setWidth 32
  | .status => statusWord s
  | .err => s.err.setWidth 32
  | .evt => s.evt.setWidth 32
  | .irqEn => 0#12 ++ s.regs.irqEvt ++ 0#6 ++ s.regs.irqErr
  | .cmd => 0
  | .msCount => s.msCount
  | .pecRem => s.pecRem.setWidth 32
  | .pecOut => zext32 (pecWire s.pecRem)
  | .rxb0 => s.regs.rxb0
  | .rxb1 => s.regs.rxb1
  | .txb0 => s.txb.w0
  | .txb1 => s.txb.w1
  | .txb2 => s.txb.w2
  | .txLen => s.txb.len.setWidth 32
  | .cfgA => s.regs.cfgA.setWidth 32
  | .cfgThr => 0#4 ++ s.regs.vov ++ 0#4 ++ s.regs.vuv
  | .dcc => s.dcc.setWidth 32
  | .cfgb0 => wordOf (cfg0 s) (cfg1 s) (cfg2 s) (cfg3 s)
  | .cfgb1 => wordOf (cfg4 s) (cfg5 s) 0 0
  | .balEps => zext32 s.regs.balEps
  | .vlim => s.regs.vmaxLim ++ s.regs.vminLim
  | .tlim => s.regs.tmaxLim ++ s.regs.tminLim
  | .debMs => s.regs.debMs
  | .linVref => zext32 s.regs.linVref
  | .current => s.regs.current
  | .idVsum => s.regs.idVsum
  | .idTsum => s.regs.idTsum
  | .idCell => s.regs.idCell
  | .idFault => s.regs.idFault
  | .idBal => s.regs.idBal
  | .idDiag => s.regs.idDiag
  | .rxId => s.regs.rxId
  | .rxLen => s.regs.rxLen.setWidth 32
  | .rxD0 => s.regs.rxD0
  | .rxD1 => s.regs.rxD1
  | .txqId => (txqHead s).1
  | .txqLen => (txqHead s).2.1
  | .txqD0 => (txqHead s).2.2.1
  | .txqD1 => (txqHead s).2.2.2
  | .pecErrCnt => zext32 s.cnt.pecErr
  | .faultCnt => zext32 s.cnt.fault
  | .cycleCnt => s.cnt.cycle
  | .lastGood => s.seq.lastGood
  | .lastFtx => s.seq.lastFtx
  | .cursor => BitVec.ofNat 32 s.cursor.val
  | .fcause => s.seq.fcause.setWidth 32
  | .curCell i => zext32 s.cur.cell[i]
  | .curTemp j => sext32 s.cur.temp[j]
  | .auxRaw j => zext32 s.auxRaw[j]
  | .curAgg a => aggWord s.cur.agg a
  | .packAgg a => aggWord s.pack a
  | .lastCell i => zext32 (newest s).cell[i]
  | .hist slot w => frameWord s.hist[slot] w

/-- The RW registers after a host write of `v` to one of them: only the defined fields are stored (R33, R105). -/
def HostRegs.store (r : Reg) (v : Word) (h : HostRegs) : HostRegs :=
  match r with
  | .ctrl => { h with ctrl := v.extractLsb' 0 4 }
  | .irqEn => { h with irqErr := v.extractLsb' 0 10, irqEvt := v.extractLsb' 16 4 }
  | .rxb0 => { h with rxb0 := v }
  | .rxb1 => { h with rxb1 := v }
  | .cfgA => { h with cfgA := v.extractLsb' 0 7 }
  | .cfgThr => { h with vuv := v.extractLsb' 0 12, vov := v.extractLsb' 16 12 }
  | .balEps => { h with balEps := v.extractLsb' 0 16 }
  | .vlim => { h with vminLim := v.extractLsb' 0 16, vmaxLim := v.extractLsb' 16 16 }
  | .tlim => { h with tminLim := v.extractLsb' 0 16, tmaxLim := v.extractLsb' 16 16 }
  | .debMs => { h with debMs := v }
  | .linVref => { h with linVref := v.extractLsb' 0 16 }
  | .current => { h with current := v }
  | .idVsum => { h with idVsum := v }
  | .idTsum => { h with idTsum := v }
  | .idCell => { h with idCell := v }
  | .idFault => { h with idFault := v }
  | .idBal => { h with idBal := v }
  | .idDiag => { h with idDiag := v }
  | .rxId => { h with rxId := v }
  | .rxLen => { h with rxLen := v.extractLsb' 0 4 }
  | .rxD0 => { h with rxD0 := v }
  | .rxD1 => { h with rxD1 := v }
  | _ => h

/-- A host write to an RW register, with its side effect: `CFG_A` and `CFG_THR` set `CFG_PEND` (R44, R45, R105). -/
def storeRw (r : Reg) (v : Word) (s : State) : State :=
  let s1 := { s with regs := s.regs.store r v }
  if r = .cfgA ∨ r = .cfgThr then pendCfg s1 else s1

/-- A host write to `ERR` or `EVT`: a 1 clears its bit (R37, R38, R105). -/
def clearSticky (r : Reg) (v : Word) (s : State) : State :=
  match r with
  | .err => { s with err := s.err &&& ~~~(v.extractLsb' 0 10) }
  | .evt => { s with evt := s.evt &&& ~~~(v.extractLsb' 0 4) }
  | _ => s

/-- A host write to a counter clears it (R57, R105). -/
def clearCounter (r : Reg) (s : State) : State :=
  match r with
  | .pecErrCnt => { s with cnt := { s.cnt with pecErr := 0 } }
  | .faultCnt => { s with cnt := { s.cnt with fault := 0 } }
  | .cycleCnt => { s with cnt := { s.cnt with cycle := 0 } }
  | _ => s

end Sys2Proof.Machine
end

