-- ==== Sys2Proof/Machine/Bus.lean ====
section
/-! DEFINITION. The vehicle-bus encoder and decoder (44_bus R321 to R340). -/

namespace Sys2Proof.Machine

/-- The data of the voltage summary frame (R321). -/
def vsumData (s : State) : List Byte :=
  le16 s.pack.vmin ++ le16 s.pack.vmax ++ le16 s.pack.vavg ++ le16 (sat16 (s.pack.vtot.toNat / 10))

/-- The data of the temperature and current summary frame (R322). -/
def tsumData (s : State) : List Byte := le16 s.pack.tmax ++ le16 s.pack.tmin ++ le32 s.regs.current

/-- `LAST_CELL[3k + j]` (R63, R323). -/
def lastCell (s : State) (k : Fin 4) (j : Fin 3) : Half :=
  (newest s).cell[3 * k.val + j.val]'(by simp only [Config.ncell]; omega)

/-- The data of the per-cell diagnostic frame `k` (R323). -/
def cellData (s : State) (k : Fin 4) : List Byte :=
  le16 (lastCell s k 0) ++ le16 (lastCell s k 1) ++ le16 (lastCell s k 2)

/-- The data of the fault frame: the cause bits, bits 7:5 zero (R324). -/
def faultData (c : BitVec 5) : List Byte := [c.setWidth 8]

/-- The push of the voltage summary (R321). -/
def pushVsum (s : State) : State := push s.regs.idVsum (vsumData s) s

/-- The push of the temperature and current summary (R322). -/
def pushTsum (s : State) : State := push s.regs.idTsum (tsumData s) s

/-- The push of the per-cell diagnostic frame `k` (R323). -/
def pushCell (k : Fin 4) (s : State) : State :=
  push (s.regs.idCell + BitVec.ofNat 32 k.val) (cellData s k) s

/-- The push of a fault frame (R324). -/
def pushFault (c : BitVec 5) (s : State) : State := push s.regs.idFault (faultData c) s

/-- `TX_VSUM` (R330). -/
def execTxVsum (s : State) : Host.Outcome State Fault Refusal := .next (pushVsum s)

/-- `TX_TSUM` (R331). -/
def execTxTsum (s : State) : Host.Outcome State Fault Refusal := .next (pushTsum s)

/-- `TX_CELL` (R332). -/
def execTxCell (k : Byte) (s : State) : Host.Outcome State Fault Refusal :=
  match operandA k 4 with
  | none => .next (raiseErr .badArg s)
  | some k => .next (pushCell k s)

/-- The four diagnostic frames of a telemetry burst, in order (R334). -/
def pushCells (s : State) : State := pushCell 3 (pushCell 2 (pushCell 1 (pushCell 0 s)))

/-- `TX_TELEM` (R334). -/
def execTxTelem (s : State) : Host.Outcome State Fault Refusal :=
  .next (if s.status.diag then pushCells (pushTsum (pushVsum s)) else pushTsum (pushVsum s))

/-- `TXQ_POP` (R335). -/
def execTxqPop (s : State) : Host.Outcome State Fault Refusal :=
  match s.txq with
  | [] => .next (raiseErr .txqUnf s)
  | _ :: rest => .next { s with txq := rest }

/-- The inbound frame is not empty and its identifier is `id` (R340). -/
def rxHits (s : State) (id : Word) : Bool := s.regs.rxLen != 0 && s.regs.rxId == id

/-- The flags an inbound frame sets or clears by its byte 0 (R340). -/
def rxFlags (s : State) : Status :=
  { s.status with
    balReq := if rxHits s s.regs.idBal then rxByte0 s != 0 else s.status.balReq
    diag := if rxHits s s.regs.idDiag then rxByte0 s != 0 else s.status.diag }

/-- `RX_FRAME` (R340). A length of 9 to 15 is as any other but 0 (log entry 12). -/
def execRxFrame (s : State) : Host.Outcome State Fault Refusal :=
  .next (if rxHits s s.regs.idBal || rxHits s s.regs.idDiag then
      raiseEvt .rxMatch { s with status := rxFlags s }
    else s)

end Sys2Proof.Machine
end

