-- ==== Sys2Proof/Machine/Linearizer.lean ====
section
/-! DEFINITION. The temperature linearizer (42_linearizer R270 to R275).

`THERM_CORE` is `THERM_REF` in this hardware (R272), a formula over the reals:
`x = R / R_INF = (code / (vref - code)) * exp (B / T0)` because `R_FIXED = R0` (R273, R274), so
`ln x = ln code - ln (vref - code) + B / T0`, and for `ln x > 0` the result is
`floor (10 * B / ln x - 2731)` clamped to `i16` (`10 * 273.15 - 1/2 = 2731`). The logarithms are enclosed between
integers over `2 ^ lnBits`; where both ends of the enclosure give the same floor, that floor is the result of the
formula exactly. Where they do not, the result is the free value `Config.thermEdge` (log entry 4). -/

namespace Sys2Proof.Machine

/-- `2 ^ lnBits`, the unit of the enclosures. -/
def lnUnit : Nat := 2 ^ Config.lnBits

/-- Term `i` of `atanh (a / b)`, which is `(a/b)^(2i+1) / (2i+1)`, times the unit, rounded down. -/
def atanhTerm (a b i : Nat) : Nat := lnUnit * a ^ (2 * i + 1) / ((2 * i + 1) * b ^ (2 * i + 1))

/-- The sum of the first `n` terms, each rounded down: at most `atanh (a / b)`, for `0 ≤ a < b`. -/
def atanhLo (a b : Nat) : Nat → Nat
  | 0 => 0
  | n + 1 => atanhLo a b n + atanhTerm a b n

/-- At least the rest of the series after `n ≥ 1` terms, `(a/b)^(2n+1) / (1 - (a/b)^2)`, times the unit. -/
def atanhTail (a b n : Nat) : Nat := lnUnit * a ^ (2 * n + 1) / (b ^ (2 * n - 1) * (b ^ 2 - a ^ 2)) + 1

/-- At least `atanh (a / b)`, for `0 ≤ a < b` and `n ≥ 1`. -/
def atanhHi (a b n : Nat) : Nat := atanhLo a b n + n + atanhTail a b n

/-- At most `ln c`, for `c ≥ 1`: with `k = log2 c`, `ln c = k * ln 2 + 2 * atanh ((c - 2^k) / (c + 2^k))` and
`ln 2 = 2 * atanh (1 / 3)`. -/
def lnLo (c : Nat) : Nat :=
  Nat.log2 c * (2 * atanhLo 1 3 Config.lnTerms)
    + 2 * atanhLo (c - 2 ^ Nat.log2 c) (c + 2 ^ Nat.log2 c) Config.lnTerms

/-- At least `ln c`, for `c ≥ 1`. -/
def lnHi (c : Nat) : Nat :=
  Nat.log2 c * (2 * atanhHi 1 3 Config.lnTerms)
    + 2 * atanhHi (c - 2 ^ Nat.log2 c) (c + 2 ^ Nat.log2 c) Config.lnTerms

/-- At most `ln x` of R273, for `1 ≤ code < vref`. -/
def lnXLo (code vref : Nat) : Int :=
  (lnLo code : Int) - lnHi (vref - code) + (lnUnit * Config.betaOverT0Num / Config.betaOverT0Den : Nat)

/-- At least `ln x` of R273, for `1 ≤ code < vref`. -/
def lnXHi (code vref : Nat) : Int :=
  (lnHi code : Int) - lnLo (vref - code) + (lnUnit * Config.betaOverT0Num / Config.betaOverT0Den + 1 : Nat)

/-- `floor (10 * B / L - 2731)` for `ln x = L > 0`, in 0.1 degrees Celsius (R273). -/
def betaTenths (L : Int) : Int := (Config.tenBeta * lnUnit : Nat) / L - 2731

/-- `clamp(y, -32768, +32767)` (R273). -/
def clamp16 (y : Int) : Int := max (-32768) (min y 32767)

/-- What the enclosure decides of `THERM_REF(code, vref)`: `x ≤ 1` (`ln x ≤ 0`), or the rounded temperature, or
nothing (R273). -/
def thermRef (code vref : Nat) : Option Int :=
  if lnXHi code vref ≤ 0 then some 32767
  else if 0 < lnXLo code vref ∧ betaTenths (lnXHi code vref) = betaTenths (lnXLo code vref) then
    some (clamp16 (betaTenths (lnXLo code vref)))
  else none

/-- `THERM_CORE(code, vref)`, for `1 ≤ code < vref`: the value the enclosure decides, else the free value (R272). -/
def thermCore (code vref : Half) : Half :=
  (thermRef code.toNat vref.toNat).elim (Config.thermEdge code vref) (BitVec.ofInt 16)

/-- The "maximum" sentinel, +32767 (R271). -/
def tempMaxSentinel : Half := 0x7FFF

/-- The "minimum" sentinel, -32768 (R271). -/
def tempMinSentinel : Half := 0x8000

/-- `Lin(code)` at the reference voltage `LIN_VREF` (R270). -/
def lin (vref code : Half) : Half :=
  if code = 0 then tempMaxSentinel
  else if vref ≤ code then tempMinSentinel
  else thermCore code vref

/-- One sensor's raw code stored and linearized, without the recomputation of the aggregates (R232, R275). -/
def storeCode (j : Fin Config.ntemp) (code : Half) (s : State) : State :=
  putTemp j (lin s.regs.linVref code) { s with auxRaw := s.auxRaw.set j.val code j.isLt }

/-- `LIN_TEMP` (R275). -/
def execLinTemp (j : Byte) (code : Half) (s : State) : Host.Outcome State Fault Refusal :=
  match operandA j Config.ntemp with
  | none => .next (raiseErr .badArg s)
  | some j => .next (refreshCur (storeCode j code s))

end Sys2Proof.Machine
end

