-- ==== Sys2Proof/Machine/Protocol.lean ====
section
/-! DEFINITION. The frame parser (41_protocol R230 to R233), the balancing bitmap (R250, R251) and the operating mode
(R255, R256). -/

namespace Sys2Proof.Machine

/-- The received PEC matches the PEC of the data, all 16 bits (R230). -/
def pecOk (s : State) : Bool := pec (rxData s) == rxPec s

/-- A counted PEC mismatch: the error bit and the saturating count (R230). -/
def pecMismatch (e : ErrBit) (s : State) : State :=
  raiseErr e { s with cnt := { s.cnt with pecErr := satIncr s.cnt.pecErr } }

/-- The state effect of `ParseCheck(e)` (R230). -/
def parseCheck (e : ErrBit) (s : State) : State := if pecOk s then s else pecMismatch e s

/-- `apply` of `ParseCheck`: the PEC matches, or the policy is ACCEPT (R230). -/
def parseApply (s : State) : Bool := pecOk s || !pecpol s

/-- The cell of word `j` of voltage group `g`: `3g + j` (R153). -/
def groupCell (g : Fin 4) (j : Fin 3) : Fin Config.ncell := ⟨3 * g.val + j.val, by simp only [Config.ncell]; omega⟩

/-- The three cells of a voltage group stored and the aggregates recomputed (R231). -/
def applyCv (g : Fin 4) (s : State) : State :=
  refreshCur (putCell (groupCell g 2) (rxWord s 2) (putCell (groupCell g 1) (rxWord s 1)
    (putCell (groupCell g 0) (rxWord s 0) s)))

/-- `PARSE_CV` (R231). -/
def execParseCv (g : Byte) (s : State) : Host.Outcome State Fault Refusal :=
  match operandA g 4 with
  | none => .next (raiseErr .badArg s)
  | some g => .next (if parseApply s then applyCv g (parseCheck .pecCv s) else parseCheck .pecCv s)

/-- The codes of an auxiliary group stored and linearized and the aggregates recomputed: group 0 carries sensors 0, 1
and 2, group 1 sensor 3 as word 0 (R154, R232). -/
def applyAux (g : Fin 2) (s : State) : State :=
  match g with
  | 0 => refreshCur (storeCode 2 (rxWord s 2) (storeCode 1 (rxWord s 1) (storeCode 0 (rxWord s 0) s)))
  | 1 => refreshCur (storeCode 3 (rxWord s 0) s)

/-- `PARSE_AUX` (R232). -/
def execParseAux (g : Byte) (s : State) : Host.Outcome State Fault Refusal :=
  match operandA g 2 with
  | none => .next (raiseErr .badArg s)
  | some g => .next (if parseApply s then applyAux g (parseCheck .pecAux s) else parseCheck .pecAux s)

/-- `PARSE_CFG`: the PEC check and, whatever its result and the policy, the comparison with the mirror (R233, log
entry 5). -/
def execParseCfg (s : State) : Host.Outcome State Fault Refusal :=
  .next (if rxData s = cfgBytes s then parseCheck .pecCfg s
    else raiseErr .cfgMismatch (parseCheck .pecCfg s))

/-- Cell `i` of the frame exceeds the frame's minimum by more than `BAL_EPS` (R251). -/
def needsDischarge (f : CellFrame) (eps : Half) (i : Fin Config.ncell) : Bool :=
  decide (((f.cell[i]).toNat : Int) - f.agg.vmin.toNat > eps.toNat)

/-- `BalanceBitmap()` of the newest closed frame (R251). -/
def balanceBitmap (s : State) : BitVec 12 := BitVec.ofFnLE (needsDischarge (newest s) s.regs.balEps)

/-- `BALANCE` (R250). -/
def execBalance (s : State) : Host.Outcome State Fault Refusal :=
  match s.status.mode with
  | .normal => .next (raiseErr .mode s)
  | .balancing => .next (pendCfg { s with dcc := balanceBitmap s })

/-- `SetMode(m)` (R256). -/
def setMode (m : OpMode) (s : State) : State :=
  if m = s.status.mode then s
  else pendCfg { s with
    status := { s.status with mode := m }
    dcc := if m = .normal then 0 else s.dcc }

/-- `SET_MODE` (R255). -/
def execSetMode (m : Byte) (s : State) : Host.Outcome State Fault Refusal :=
  match operandA m 2 with
  | none => .next (raiseErr .badArg s)
  | some m => .next (setMode (modeOf (m == 1)) s)

end Sys2Proof.Machine
end

