-- ==== Sys2Proof/Machine/StateModel.lean ====
section
/-! DEFINITION. The rolling battery-state aggregator (43_state_model R293 to R297). -/

namespace Sys2Proof.Machine

/-- `UPD_CELL` (R293). -/
def execUpdCell (i : Byte) (v : Half) (s : State) : Host.Outcome State Fault Refusal :=
  match operandA i Config.ncell with
  | none => .next (raiseErr .badArg s)
  | some i => .next (refreshCur (putCell i v s))

/-- `UPD_TEMP` (R294). -/
def execUpdTemp (j : Byte) (t : Half) (s : State) : Host.Outcome State Fault Refusal :=
  match operandA j Config.ntemp with
  | none => .next (raiseErr .badArg s)
  | some j => .next (refreshCur (putTemp j t s))

/-- `RoundDiv(Σ_s HIST[s].F, ROLL_N)` of one aggregate `F` of the slots (R296). -/
def packAvg (hist : Vector CellFrame Config.rollN) (F : Aggregates → Int) : Int :=
  roundDiv (sumOf (hist.toList.map fun f => F f.agg)) Config.rollN

/-- `PackAggs()`: the pack aggregates of a history (R296). -/
def packAggs (hist : Vector CellFrame Config.rollN) : Aggregates where
  vmin := BitVec.ofInt 16 (packAvg hist fun a => a.vmin.toNat)
  vmax := BitVec.ofInt 16 (packAvg hist fun a => a.vmax.toNat)
  vavg := BitVec.ofInt 16 (packAvg hist fun a => a.vavg.toNat)
  vtot := BitVec.ofInt 32 (packAvg hist fun a => a.vtot.toNat)
  tmin := BitVec.ofInt 16 (packAvg hist fun a => a.tmin.toInt)
  tmax := BitVec.ofInt 16 (packAvg hist fun a => a.tmax.toInt)
  tavg := BitVec.ofInt 16 (packAvg hist fun a => a.tavg.toInt)

/-- The history with the working frame copied into the slot at the cursor (R295). -/
def closedHist (s : State) : Vector CellFrame Config.rollN := s.hist.set s.cursor.val s.cur s.cursor.isLt

/-- `CloseCycle()` (R295). -/
def closeCycle (s : State) : State :=
  raiseEvt .cycle { s with
    hist := closedHist s
    cursor := nextSlot s.cursor
    pack := packAggs (closedHist s)
    cnt := { s.cnt with cycle := s.cnt.cycle + 1 } }

/-- `CLOSE` (R297). -/
def execClose (s : State) : Host.Outcome State Fault Refusal := .next (closeCycle s)

end Sys2Proof.Machine
end

