-- ==== Sys2Proof/Machine/Supervisor.lean ====
section
/-! DEFINITION. The safety sequencer: the supervisory tick (45_supervisor R360 to R368), the time base and the
watchdog (R370, R371). -/

namespace Sys2Proof.Machine

/-- `EnterFault(c)` (R364). -/
def enterFault (c : BitVec 5) (s : State) : State :=
  let s1 := raiseEvt .faultEnter (setSup .fault s)
  let s2 := pushFault c { s1 with
    cnt := { s1.cnt with fault := satIncr s1.cnt.fault }
    seq := { s1.seq with fcause := c } }
  { s2 with seq := { s2.seq with lastFtx := s2.msCount } }

/-- The in-limits branch of a tick (R362). -/
def tickPass (s : State) : State :=
  let s1 := if s.status.sup = .fault then raiseEvt .faultExit s else s
  setSup .idleSafe { s1 with seq := { s1.seq with lastGood := s1.msCount } }

/-- The repeated fault frame of a tick in FAULT (R366). -/
def tickRepeat (c : BitVec 5) (s : State) : State :=
  if frep s && elapsed s s.seq.lastFtx then
    let s1 := pushFault c s
    { s1 with seq := { s1.seq with lastFtx := s1.msCount } }
  else s

/-- The out-of-limits branch of a tick outside FAULT (R363). -/
def tickDebounce (c : BitVec 5) (s : State) : State :=
  if elapsed s s.seq.lastGood then enterFault c s else setSup .debSafe s

/-- The sequencer's part of a tick, for the cause bits `c` of its limit check (R360). -/
def tickSequence (c : BitVec 5) (s : State) : State :=
  if c = 0 then tickPass s
  else if s.status.sup = .fault then tickRepeat c s
  else tickDebounce c s

/-- `BalanceStep()` (R368). -/
def balanceStep (s : State) : State :=
  let bm := balanceBitmap s
  pendCfg { s with
    dcc := bm
    status := { s.status with balReq := if bm = 0 then false else s.status.balReq } }

/-- The control check and the balancing step that end a tick (R367, R368). -/
def tickControl (s : State) : State :=
  let s1 := setMode (modeOf s.status.balReq) s
  if s1.status.mode = .balancing then balanceStep s1 else s1

/-- The cause bits of the limit check of a tick: taken after the cycle is closed (R360). -/
def tickCause (s : State) : BitVec 5 := limits (closeCycle s)

/-- `TICK` (R360). -/
def execTick (s : State) : Host.Outcome State Fault Refusal :=
  .next (tickControl (tickSequence (tickCause s) (setCause (tickCause s) (closeCycle s))))

/-- The watchdog's condition: enabled, outside FAULT, the debounce deadline reached (R371). -/
def wdogDue (s : State) : Bool := wdogEn s && s.status.sup != .fault && elapsed s s.seq.lastGood

/-- The cause bits the watchdog records: the limit bits of the last evaluation and WD (R371). -/
def wdogCause (s : State) : BitVec 5 := (s.status.cause &&& 0x0F) ||| causeWd

/-- `Watchdog()` (R371). -/
def watchdog (s : State) : State :=
  if wdogDue s then enterFault (wdogCause s) (setCause (wdogCause s) s) else s

/-- The strobe `tick_1ms` (R370). -/
def timeStrobe (s : State) : State := watchdog { s with msCount := s.msCount + 1 }

end Sys2Proof.Machine
end

