-- ==== Sys2Proof/Machine/HostPort.lean ====
section
/-! DEFINITION. The host port: `NOP` and the two port transactions (46_host_interface R400 to R402), and the command a
write to `CMD` executes (10_state R36, 30_encoding R140). -/

namespace Sys2Proof.Machine

/-- `NOP` (R400). -/
def execNop (s : State) : Host.Outcome State Fault Refusal := .next s

/-- The value a host read returns joins the run's observation (R404, log entry 2). -/
def returnRead (v : Word) (s : State) : State := { s with reads := s.reads ++ [v] }

/-- `rd`: `MemRead(off, 4)` (R104, R107, R401). -/
def execRd (off : Offset) (size : AccessSize) (s : State) : Host.Outcome State Fault Refusal :=
  match busReg off size with
  | none => .next (returnRead 0 (raiseErr .badAddr s))
  | some r => .next (returnRead (readReg r s) s)

/-- The command a decoded word names (R140). The decoder gives no port transaction; one would be no row of the
opcode map (R143) and raise ILLEGAL_CMD. -/
def runCommand (i : Instr) (s : State) : Host.Outcome State Fault Refusal :=
  match i with
  | .nop => execNop s
  | .pecInit => execPecInit s
  | .pecByte b => execPecByte b s
  | .buildCmd c => execBuildCmd c s
  | .buildWrcfg c => execBuildWrcfg c s
  | .parseCv g => execParseCv g s
  | .parseAux g => execParseAux g s
  | .parseCfg => execParseCfg s
  | .balance => execBalance s
  | .setMode m => execSetMode m s
  | .linTemp j code => execLinTemp j code s
  | .updCell i v => execUpdCell i v s
  | .updTemp j t => execUpdTemp j t s
  | .close => execClose s
  | .txVsum => execTxVsum s
  | .txTsum => execTxTsum s
  | .txCell k => execTxCell k s
  | .txTelem => execTxTelem s
  | .txqPop => execTxqPop s
  | .rxFrame => execRxFrame s
  | .tick => execTick s
  | .rd _ _ => .next (raiseErr .illegalCmd s)
  | .wr _ _ _ => .next (raiseErr .illegalCmd s)

/-- A host write of `v` to `CMD`: the command it encodes, or ILLEGAL_CMD (R36, R140, R144). -/
def writeCmd (v : Word) (s : State) : Host.Outcome State Fault Refusal :=
  match decode v with
  | .ok i => runCommand i s
  | .error (.illegalOp _) => .next (raiseErr .illegalCmd s)

/-- `wr`: `MemWrite(off, 4, v)` (R105, R107, R402). -/
def execWr (off : Offset) (size : AccessSize) (v : Word) (s : State) : Host.Outcome State Fault Refusal :=
  match busReg off size with
  | none => .next (raiseErr .badAddr s)
  | some r =>
    match r.access with
    | .rw => .next (storeRw r v s)
    | .w1c => .next (clearSticky r v s)
    | .wc => .next (clearCounter r s)
    | .wo => writeCmd v s
    | .ro => .next (raiseErr .badAddr s)

end Sys2Proof.Machine
end

