-- ==== Sys2Proof/Machine/Dispatch.lean ====
section
/-! DEFINITION. The dispatcher: one arm per instruction. -/

namespace Sys2Proof.Machine

def exec (i : Instr) (s : State) : Host.Outcome State Fault Refusal :=
  match i with
  -- the opcode map, in its order (30_encoding R143)
  | .nop => Sys2Proof.Machine.execNop s
  | .pecInit => Sys2Proof.Machine.execPecInit s
  | .pecByte b => Sys2Proof.Machine.execPecByte b s
  | .buildCmd c => Sys2Proof.Machine.execBuildCmd c s
  | .buildWrcfg c => Sys2Proof.Machine.execBuildWrcfg c s
  | .parseCv g => Sys2Proof.Machine.execParseCv g s
  | .parseAux g => Sys2Proof.Machine.execParseAux g s
  | .parseCfg => Sys2Proof.Machine.execParseCfg s
  | .balance => Sys2Proof.Machine.execBalance s
  | .setMode m => Sys2Proof.Machine.execSetMode m s
  | .linTemp j code => Sys2Proof.Machine.execLinTemp j code s
  | .updCell k v => Sys2Proof.Machine.execUpdCell k v s
  | .updTemp j t => Sys2Proof.Machine.execUpdTemp j t s
  | .close => Sys2Proof.Machine.execClose s
  | .txVsum => Sys2Proof.Machine.execTxVsum s
  | .txTsum => Sys2Proof.Machine.execTxTsum s
  | .txCell k => Sys2Proof.Machine.execTxCell k s
  | .txTelem => Sys2Proof.Machine.execTxTelem s
  | .txqPop => Sys2Proof.Machine.execTxqPop s
  | .rxFrame => Sys2Proof.Machine.execRxFrame s
  | .tick => Sys2Proof.Machine.execTick s
  -- the port transactions (46_host_interface R401, R402)
  | .rd off size => Sys2Proof.Machine.execRd off size s
  | .wr off size v => Sys2Proof.Machine.execWr off size v s

end Sys2Proof.Machine
end

