-- ==== Sys2Proof/Machine/Deliver.lean ====
section
/-! DEFINITION. What one event of a run does to the block (00_scope R15), and where the next command word stands
(log entry 1). -/

namespace Sys2Proof.Machine

/-- The offset of `CMD` (R36). -/
def cmdOffset : Offset := 0x018

/-- `rst` asserted: every piece of the block's state takes its reset value, whatever it was (R460, R462). The run's
observation and the events to come are not state of the block (log entry 3). -/
def assertReset (s : State) : State := { State.reset with rst := true, reads := s.reads, sched := s.sched }

/-- `rst` released: the block keeps the reset values it holds (R460, R461). -/
def releaseReset (s : State) : State := { s with rst := false }

/-- One event (R15). A host access while `rst` is asserted is refused (R461, I21, log entry 3), and a strobe is
ignored then (R461). -/
def deliver (e : Event) (s : State) : Host.Outcome State Fault Refusal :=
  match e with
  | .hostRead off size => if s.rst then .refused .accessDuringReset else exec (.rd off size) s
  | .hostWrite off size v => if s.rst then .refused .accessDuringReset else exec (.wr off size v) s
  | .strobe => .next (if s.rst then s else timeStrobe s)
  | .rstAssert => .next (assertReset s)
  | .rstRelease => .next (releaseReset s)

/-- The next event of the run, or nothing: with no event to come the block does nothing (R460, R404, log entry 1). -/
def runNext (s : State) : Host.Outcome State Fault Refusal :=
  match s.sched with
  | [] => .next s
  | e :: rest => deliver e { s with sched := rest }

/-- A host write of the command word to `CMD` put before every event to come, with `rst` released so that the host
may make it (log entry 1). -/
def putCommand (w : Word) (s : State) : State :=
  { s with rst := false, sched := .hostWrite cmdOffset .word w :: s.sched }

end Sys2Proof.Machine
end

