-- ==== Sys2Proof/Machine/Step.lean ====
section
/-! DEFINITION. One step of the machine: the next event of the run (log entry 1). -/

namespace Sys2Proof.Machine

/-- One step: the next event of the run, atomically (R15, R108, R111). -/
def step (s : State) : Host.Outcome State Fault Refusal := runNext s

/-- `s` with the command word of an opcode-table row as the next event: the host's write of it to `CMD` (R36,
R140). -/
def State.withFetchWord (s : State) (nbits w : Nat) : State := putCommand (tableWord nbits w) s

end Sys2Proof.Machine
end

