-- ==== Sys2Proof/Safety.lean ====
section
/-! DEFINITION. The terms claims are stated in: the offsets of the register map (10_state R32), a sequence of
instructions, the bytes of the buffers, what holds of every reachable state (10_state R43, R46, R64, R65,
43_state_model R290, 45_supervisor R374, 70_reset R461), and the event a step takes. -/

namespace Sys2Proof.Machine

/-! The register map -/

/-- The offset the map of R32 gives each register. -/
def Reg.offset : Reg → Nat
  | .blkId => 0x000
  | .ctrl => 0x004
  | .status => 0x008
  | .err => 0x00C
  | .evt => 0x010
  | .irqEn => 0x014
  | .cmd => 0x018
  | .msCount => 0x01C
  | .pecRem => 0x020
  | .pecOut => 0x024
  | .rxb0 => 0x028
  | .rxb1 => 0x02C
  | .txb0 => 0x030
  | .txb1 => 0x034
  | .txb2 => 0x038
  | .txLen => 0x03C
  | .cfgA => 0x040
  | .cfgThr => 0x044
  | .dcc => 0x048
  | .cfgb0 => 0x04C
  | .cfgb1 => 0x050
  | .balEps => 0x054
  | .vlim => 0x058
  | .tlim => 0x05C
  | .debMs => 0x060
  | .linVref => 0x064
  | .current => 0x068
  | .idVsum => 0x06C
  | .idTsum => 0x070
  | .idCell => 0x074
  | .idFault => 0x078
  | .idBal => 0x07C
  | .idDiag => 0x080
  | .rxId => 0x084
  | .rxLen => 0x088
  | .rxD0 => 0x08C
  | .rxD1 => 0x090
  | .txqId => 0x094
  | .txqLen => 0x098
  | .txqD0 => 0x09C
  | .txqD1 => 0x0A0
  | .pecErrCnt => 0x0A4
  | .faultCnt => 0x0A8
  | .cycleCnt => 0x0AC
  | .lastGood => 0x0B0
  | .lastFtx => 0x0B4
  | .cursor => 0x0B8
  | .fcause => 0x0BC
  | .curCell i => 0x100 + 4 * i.val
  | .curTemp j => 0x130 + 4 * j.val
  | .auxRaw j => 0x140 + 4 * j.val
  | .curAgg .vmin => 0x150
  | .curAgg .vmax => 0x154
  | .curAgg .vavg => 0x158
  | .curAgg .vtot => 0x15C
  | .curAgg .tmin => 0x160
  | .curAgg .tmax => 0x164
  | .curAgg .tavg => 0x168
  | .packAgg .vmin => 0x180
  | .packAgg .vmax => 0x184
  | .packAgg .vavg => 0x188
  | .packAgg .vtot => 0x18C
  | .packAgg .tmin => 0x190
  | .packAgg .tmax => 0x194
  | .packAgg .tavg => 0x198
  | .lastCell i => 0x1C0 + 4 * i.val
  | .hist slot w => 0x200 + 0x80 * slot.val + 4 * w.val

/-- The bits a register's fields occupy, for the registers the host writes with access kind RW (R34 to R55). -/
def Reg.rwMask : Reg → Word
  | .ctrl => 0x0000000F
  | .irqEn => 0x000F03FF
  | .rxb0 => 0xFFFFFFFF
  | .rxb1 => 0xFFFFFFFF
  | .cfgA => 0x0000007F
  | .cfgThr => 0x0FFF0FFF
  | .balEps => 0x0000FFFF
  | .vlim => 0xFFFFFFFF
  | .tlim => 0xFFFFFFFF
  | .debMs => 0xFFFFFFFF
  | .linVref => 0x0000FFFF
  | .current => 0xFFFFFFFF
  | .idVsum => 0xFFFFFFFF
  | .idTsum => 0xFFFFFFFF
  | .idCell => 0xFFFFFFFF
  | .idFault => 0xFFFFFFFF
  | .idBal => 0xFFFFFFFF
  | .idDiag => 0xFFFFFFFF
  | .rxId => 0xFFFFFFFF
  | .rxLen => 0x0000000F
  | .rxD0 => 0xFFFFFFFF
  | .rxD1 => 0xFFFFFFFF
  | _ => 0

/-- The word of a history slot that holds an aggregate (R60). -/
def AggField.slotWord : AggField → Fin 23
  | .vmin => 16
  | .vmax => 17
  | .vavg => 18
  | .vtot => 19
  | .tmin => 20
  | .tmax => 21
  | .tavg => 22

/-- Seven words show the aggregates: the voltages as unsigned values, the temperatures as signed values (R60, R61,
R64). -/
def Aggregates.shownBy (a : Aggregates) (word : AggField → Word) : Prop :=
  (word .vmin).toNat = a.vmin.toNat ∧ (word .vmax).toNat = a.vmax.toNat ∧ (word .vavg).toNat = a.vavg.toNat ∧
  (word .vtot).toNat = a.vtot.toNat ∧ (word .tmin).toInt = a.tmin.toInt ∧ (word .tmax).toInt = a.tmax.toInt ∧
  (word .tavg).toInt = a.tavg.toInt

/-! Sequences of instructions -/

/-- The instructions one after the other, stopping at the first that does not answer a next state. -/
def execAll : List Instr → State → Host.Outcome State Fault Refusal
  | [], s => .next s
  | i :: is, s =>
    match exec i s with
    | .next t => execAll is t
    | .fault r => .fault r
    | .refused r => .refused r

/-! Buffers, byte by byte -/

/-- `RXB[k]`, for k below 8 (R42). -/
def rxbByte (s : State) (k : Nat) : Byte := if k < 4 then byteOf s.regs.rxb0 k else byteOf s.regs.rxb1 (k - 4)

/-- `word_j` of the response frame as a number: `d[2j] | (d[2j+1] << 8)` (R152). -/
def rxbCode (s : State) (j : Nat) : Nat := (rxbByte s (2 * j)).toNat + 256 * (rxbByte s (2 * j + 1)).toNat

/-- The received PEC matches the PEC of the six data bytes, all 16 bits (R230). -/
def rxbPecMatches (s : State) : Bool :=
  decide ((pec [rxbByte s 0, rxbByte s 1, rxbByte s 2, rxbByte s 3, rxbByte s 4, rxbByte s 5]).toNat
    = 256 * (rxbByte s 6).toNat + (rxbByte s 7).toNat)

/-- `TXB[0..11]` (R43). -/
def txbBytes (s : State) : List Byte :=
  [byteOf s.txb.w0 0, byteOf s.txb.w0 1, byteOf s.txb.w0 2, byteOf s.txb.w0 3, byteOf s.txb.w1 0, byteOf s.txb.w1 1,
    byteOf s.txb.w1 2, byteOf s.txb.w1 3, byteOf s.txb.w2 0, byteOf s.txb.w2 1, byteOf s.txb.w2 2, byteOf s.txb.w2 3]

/-- The low byte of a 16-bit value. -/
def loByte (v : Half) : Byte := BitVec.ofNat 8 (v.toNat % 256)

/-- The high byte of a 16-bit value. -/
def hiByte (v : Half) : Byte := BitVec.ofNat 8 (v.toNat / 256)

/-- The fault frame byte by byte: length 1, byte 0 the cause bits with bits 7:5 zero, the other bytes 0 (R324, R65). -/
def faultFrame (id : Word) (c : BitVec 5) : BusFrame := ⟨id, 1, #v[c.setWidth 8, 0, 0, 0, 0, 0, 0, 0]⟩

/-! What holds of every reachable state -/

/-- A frame's aggregates are those of its cells and temperatures (R290). -/
def CellFrame.aggsHold (f : CellFrame) : Prop := f.agg = aggsOf f.cell f.temp

/-- A queue entry's bytes past its length are 0 (R65). -/
def BusFrame.padded (f : BusFrame) : Prop := ∀ k : Fin 8, f.len.val ≤ k.val → f.data[k] = 0

/-- The bytes of `TXB` at or past `TX_LEN` are 0, and `TX_LEN` is 0, 4 or 12 (R43). -/
def TxBuffer.padded (b : TxBuffer) : Prop :=
  (b.len = 0 ∧ b.w0 = 0 ∧ b.w1 = 0 ∧ b.w2 = 0) ∨ (b.len = 4 ∧ b.w1 = 0 ∧ b.w2 = 0) ∨ b.len = 12

/-- The invariant of the block. -/
structure BlockInv (s : State) : Prop where
  /-- The working frame's aggregates (R290). -/
  curAggs : s.cur.aggsHold
  /-- Every history slot's aggregates (R290). -/
  histAggs : ∀ k : Fin Config.rollN, s.hist[k].aggsHold
  /-- The pack aggregates are the averages over the history (R64, R296). -/
  packAvgs : s.pack = packAggs s.hist
  /-- In Normal mode no cell is discharged (R46). -/
  normalNoDischarge : s.status.mode = .normal → s.dcc = 0
  /-- The queue is within its depth (R65). -/
  queueDepth : s.txq.length ≤ Config.txqDepth
  /-- Every queue entry is padded with zeros (R65). -/
  queuePadded : ∀ f ∈ s.txq, f.padded
  /-- The command-frame buffer is padded with zeros (R43). -/
  txbPadded : s.txb.padded
  /-- In IDLE_SAFE, and only there, no limit was violated at the last evaluation and the watchdog did not fire
  (R362, R363, R371, R374). -/
  idleNoCause : s.status.sup = .idleSafe ↔ s.status.cause = 0
  /-- In DEB_SAFE the last evaluation failed by a limit, not by the watchdog (R363, R374). -/
  debounceCause : s.status.sup = .debSafe → s.status.cause &&& causeWd = 0
  /-- While `rst` is asserted the block holds its reset values (R460, R461). -/
  heldInReset : s.rst = true → s = assertReset s

/-! Events -/

/-- The next event is the host's write of `w` to `CMD`, and `rst` is not asserted. -/
def commandNext (s : State) (w : Word) : Prop :=
  s.rst = false ∧ ∃ rest, s.sched = .hostWrite cmdOffset .word w :: rest

/-- The next event is a host write of a register at an offset, and `rst` is not asserted. -/
def writeNext (s : State) (off : Offset) : Prop :=
  s.rst = false ∧ ∃ v rest, s.sched = .hostWrite off .word v :: rest

/-- The next event is the assertion of `rst`. -/
def resetNext (s : State) : Prop := ∃ rest, s.sched = .rstAssert :: rest

/-- The next event is a strobe, and `rst` is not asserted. -/
def strobeNext (s : State) : Prop := s.rst = false ∧ ∃ rest, s.sched = .strobe :: rest

/-- The instruction is the command `c`, or the host's write of a word that encodes it to `CMD` (R36, R140). -/
def runs (i c : Instr) : Prop := i = c ∨ ∃ w, i = .wr cmdOffset .word w ∧ decode w = .ok c

end Sys2Proof.Machine
end

