-- ==== Sys2Proof/Certificates/Slice0/Obligations.lean ====
section
/-! DEFINITION. The statements for the provers. Each formalises rules of the spec over all states of the model, or
says that it states less. `{ s with … }` on a right-hand side is the frame: every field not named is unchanged. The
block has no byte memory (20_memory R100); the fields of State are all it holds. -/

open Sys2Proof Sys2Proof.Machine

/-! ## Encoding -/

/-- Every command has a command word, and the decoder reads the command back from it, with every operand at every
value its field admits (R141 to R143, R160). -/
def Obligations.DecodeOfEncode : Prop :=
  ∀ i : Instr, i.isCommand = true → ∃ w, encode i = some w ∧ decode w = .ok i

/-- The OP values R144 lists as illegal are rejected by name, and writing such a word to `CMD` raises ILLEGAL_CMD and
changes nothing else; every other OP value is a command whose other bits cannot make it illegal (R144). -/
def Obligations.IllegalOpRaisesIllegalCmd : Prop :=
  ∀ (w : Word) (s : State),
    let op := (opOf w).toNat
    let illegal := (0x05 ≤ op ∧ op ≤ 0x0F) ∨ (0x15 ≤ op ∧ op ≤ 0x17) ∨ (0x19 ≤ op ∧ op ≤ 0x1F) ∨
      (0x23 ≤ op ∧ op ≤ 0x2F) ∨ (0x35 ≤ op ∧ op ≤ 0x37) ∨ (0x39 ≤ op ∧ op ≤ 0x3F) ∨ (0x41 ≤ op ∧ op ≤ 0xFF)
    (illegal → decode w = .error (.illegalOp (opOf w)) ∧
      exec (.wr 0x018 .word w) s = .next { s with err := s.err ||| 0x001 }) ∧
    (¬ illegal → ∃ i, decode w = .ok i ∧ i.isCommand = true)

/-- A field the command does not use may hold any value: the word is the same command (R142, R144). -/
def Obligations.UnusedFieldsAreIgnored : Prop :=
  (∀ op ∈ [0x00, 0x01, 0x12, 0x13, 0x22, 0x30, 0x31, 0x33, 0x34, 0x38, 0x40], ∀ (a : Byte) (b : Half),
    decode (commandWord op a b) = decode (commandWord op 0 0)) ∧
  (∀ op ∈ [0x02, 0x10, 0x11, 0x14, 0x32], ∀ (a : Byte) (b : Half),
    decode (commandWord op a b) = decode (commandWord op a 0)) ∧
  (∀ op ∈ [0x03, 0x04], ∀ (a : Byte) (b : Half), decode (commandWord op a b) = decode (commandWord op 0 b))

/-- Words the spec writes out decode to the commands it writes them for (R205, R231, R275, R293, R294, R332, R360). -/
def Obligations.SpecWordsDecode : Prop :=
  decode 0x00040003 = .ok (.buildCmd 0x0004) ∧ decode 0x00000110 = .ok (.parseCv 1) ∧
  decode 0x3A980218 = .ok (.linTemp 2 15000) ∧ decode 0xABE00020 = .ok (.updCell 0 44000) ∧
  decode 0xFF380121 = .ok (.updTemp 1 0xFF38) ∧ decode 0x00000232 = .ok (.txCell 2) ∧
  decode 0x00000040 = .ok .tick

/-! ## Steps, the host port and reset -/

/-- A step whose event is a host access runs it: the port transaction, and for a write to `CMD` the command its word
decodes to, from the state with that event taken. With no event the state stays as it is (that a step takes its event
from a list is the model's choice, log entry 1). -/
def Obligations.StepRunsDecodedCommand : Prop :=
  ∀ (s : State) (rest : List Event),
    (s.sched = [] → step s = .next s) ∧
    (s.rst = false →
      (∀ off size, s.sched = .hostRead off size :: rest → step s = exec (.rd off size) { s with sched := rest }) ∧
      (∀ off size v, s.sched = .hostWrite off size v :: rest →
        step s = exec (.wr off size v) { s with sched := rest }) ∧
      (∀ w i, s.sched = .hostWrite 0x018 .word w :: rest → decode w = .ok i →
        step s = exec i { s with sched := rest }))

/-- Asserting `rst` gives every register its reset value whatever the state was, empties the queue, and while `rst` is
asserted `ilk_ok` and `irq` are 0 and a strobe changes nothing; releasing it raises `ilk_ok` to 1 (R460 to R462). -/
def Obligations.ResetForgetsTheState : Prop :=
  let values : List (Reg × Word) :=
    [(.blkId, 0x424D5331), (.ctrl, 0x2), (.status, 0x60), (.pecRem, 0x10), (.pecOut, 0x20), (.vlim, 0xA7307D00),
      (.tlim, 0x7FFE8001), (.debMs, 450), (.linVref, 30000), (.idVsum, 0x110), (.idTsum, 0x111), (.idCell, 0x112),
      (.idFault, 0x11F), (.idBal, 0x120), (.idDiag, 0x121)]
  ∀ (s : State) (rest : List Event), s.sched = .rstAssert :: rest →
    ∃ t, step s = .next t ∧ t.rst = true ∧ t.sched = rest ∧ t.reads = s.reads ∧ t.txq = [] ∧
      (∀ p ∈ values, readReg p.1 t = p.2) ∧ (∀ r, r ∉ values.map Prod.fst → readReg r t = 0) ∧
      t = { State.reset with rst := true, reads := s.reads, sched := rest } ∧
      ilkOk t = false ∧ irq t = false ∧
      (∀ more, rest = .strobe :: more → step t = .next { t with sched := more }) ∧
      (∀ more, rest = .rstRelease :: more →
        ∃ u, step t = .next u ∧ u = { State.reset with reads := s.reads, sched := more } ∧
          ilkOk u = true ∧ irq u = false)

/-- Each register is at the offset the map gives it and at no other, and only for a whole access (R32, R107). -/
def Obligations.RegisterMapOffsets : Prop :=
  (∀ r : Reg, r.offset < 4096 ∧ busReg (BitVec.ofNat 12 r.offset) .word = some r) ∧
  (∀ (off : Offset) (size : AccessSize) (r : Reg),
    busReg off size = some r → size = .word ∧ off.toNat = r.offset)

/-- A read of a mapped offset returns the register's word and changes nothing of the block (R104), and that word is, for
every register but `STATUS` (`StatusWordAndOutputs`) and the configuration mirror (`CfgBytesLayout`): the number the
register's fields make at their bits, reserved bits 0 (R31 to R58); the head of the queue, or 0 when it is empty (R56);
and of the frames, cells, codes and voltages zero-extended and temperatures sign-extended (R60 to R64). -/
def Obligations.MappedReadReturnsRegister : Prop :=
  ∀ s : State,
    let h := s.regs
    let numbers : List (Reg × Nat) :=
      [(.blkId, 0x424D5331), (.ctrl, h.ctrl.toNat), (.err, s.err.toNat), (.evt, s.evt.toNat),
        (.irqEn, h.irqErr.toNat + 2 ^ 16 * h.irqEvt.toNat), (.cmd, 0), (.msCount, s.msCount.toNat),
        (.pecRem, s.pecRem.toNat), (.pecOut, 2 * s.pecRem.toNat), (.rxb0, h.rxb0.toNat), (.rxb1, h.rxb1.toNat),
        (.txb0, s.txb.w0.toNat), (.txb1, s.txb.w1.toNat), (.txb2, s.txb.w2.toNat), (.txLen, s.txb.len.toNat),
        (.cfgA, h.cfgA.toNat), (.cfgThr, h.vuv.toNat + 2 ^ 16 * h.vov.toNat), (.dcc, s.dcc.toNat),
        (.balEps, h.balEps.toNat), (.vlim, h.vminLim.toNat + 2 ^ 16 * h.vmaxLim.toNat),
        (.tlim, h.tminLim.toNat + 2 ^ 16 * h.tmaxLim.toNat), (.debMs, h.debMs.toNat), (.linVref, h.linVref.toNat)] ++
      [(.current, h.current.toNat), (.idVsum, h.idVsum.toNat), (.idTsum, h.idTsum.toNat), (.idCell, h.idCell.toNat),
        (.idFault, h.idFault.toNat), (.idBal, h.idBal.toNat), (.idDiag, h.idDiag.toNat), (.rxId, h.rxId.toNat),
        (.rxLen, h.rxLen.toNat), (.rxD0, h.rxD0.toNat), (.rxD1, h.rxD1.toNat), (.pecErrCnt, s.cnt.pecErr.toNat),
        (.faultCnt, s.cnt.fault.toNat), (.cycleCnt, s.cnt.cycle.toNat), (.lastGood, s.seq.lastGood.toNat),
        (.lastFtx, s.seq.lastFtx.toNat), (.cursor, s.cursor.val), (.fcause, s.seq.fcause.toNat)]
    (∀ r : Reg, exec (.rd (BitVec.ofNat 12 r.offset) .word) s = .next { s with reads := s.reads ++ [readReg r s] }) ∧
    (∀ p ∈ numbers, (readReg p.1 s).toNat = p.2) ∧
    (s.txq = [] → ∀ r ∈ [Reg.txqId, .txqLen, .txqD0, .txqD1], readReg r s = 0) ∧
    (∀ f rest, s.txq = f :: rest →
      readReg .txqId s = f.id ∧ (readReg .txqLen s).toNat = f.len.val ∧
      [0, 1, 2, 3].map (byteOf (readReg .txqD0 s)) ++ [0, 1, 2, 3].map (byteOf (readReg .txqD1 s)) = f.data.toList) ∧
    (∀ i : Fin 12, (readReg (.curCell i) s).toNat = (s.cur.cell[i]).toNat) ∧
    (∀ j : Fin 4, (readReg (.curTemp j) s).toInt = (s.cur.temp[j]).toInt) ∧
    (∀ j : Fin 4, (readReg (.auxRaw j) s).toNat = (s.auxRaw[j]).toNat) ∧
    (∀ i : Fin 12, (readReg (.lastCell i) s).toNat =
      ((s.hist[(s.cursor.val + 4) % 5]'(Nat.mod_lt _ (by decide))).cell[i]).toNat) ∧
    s.cur.agg.shownBy (fun a => readReg (.curAgg a) s) ∧
    s.pack.shownBy (fun a => readReg (.packAgg a) s) ∧
    (∀ k : Fin 5,
      (∀ i : Fin 12, (readReg (.hist k ⟨i.val, by omega⟩) s).toNat = ((s.hist[k]).cell[i]).toNat) ∧
      (∀ j : Fin 4, (readReg (.hist k ⟨12 + j.val, by omega⟩) s).toInt = ((s.hist[k]).temp[j]).toInt) ∧
      (s.hist[k]).agg.shownBy (fun a => readReg (.hist k a.slotWord) s))

/-- An access that is not a whole aligned word or is at an unmapped offset, and a write to a read-only register, set
`ERR.BAD_ADDR` and change nothing else; such a read returns 0 (R106). -/
def Obligations.BadAddressOnlySetsItsBit : Prop :=
  ∀ (s : State) (off : Offset) (size : AccessSize) (v : Word),
    (size ≠ .word ∨ off.toNat % 4 ≠ 0 ∨ (∀ r : Reg, r.offset ≠ off.toNat) →
      exec (.rd off size) s = .next { s with err := s.err ||| 0x200, reads := s.reads ++ [0] } ∧
      exec (.wr off size v) s = .next { s with err := s.err ||| 0x200 }) ∧
    (∀ r : Reg, r.access = .ro →
      exec (.wr (BitVec.ofNat 12 r.offset) .word v) s = .next { s with err := s.err ||| 0x200 })

/-- A write to an RW register stores its defined fields only, leaves every other RW register, and changes nothing else
but `CFG_PEND`, which a write to `CFG_A` or `CFG_THR` sets (R33, R105, R240). -/
def Obligations.RwWriteStoresDefinedFields : Prop :=
  ∀ (s : State) (r : Reg) (v : Word), r.access = .rw →
    ∃ t, exec (.wr (BitVec.ofNat 12 r.offset) .word v) s = .next t ∧
      readReg r t = v &&& r.rwMask ∧
      (∀ r' : Reg, r'.access = .rw → r' ≠ r → readReg r' t = readReg r' s) ∧
      t = { s with
        regs := t.regs
        status := { s.status with cfgPend := s.status.cfgPend || decide (r = .cfgA ∨ r = .cfgThr) } }

/-- A write to `ERR` or `EVT` clears the bits written as 1; a write of any value to a counter clears it; each changes
nothing else (R37, R38, R57). -/
def Obligations.StickyAndCounterWrites : Prop :=
  ∀ (s : State) (v : Word),
    exec (.wr 0x00C .word v) s = .next { s with err := s.err &&& ~~~(v.setWidth 10) } ∧
    exec (.wr 0x010 .word v) s = .next { s with evt := s.evt &&& ~~~(v.setWidth 4) } ∧
    exec (.wr 0x0A4 .word v) s = .next { s with cnt := { s.cnt with pecErr := 0 } } ∧
    exec (.wr 0x0A8 .word v) s = .next { s with cnt := { s.cnt with fault := 0 } } ∧
    exec (.wr 0x0AC .word v) s = .next { s with cnt := { s.cnt with cycle := 0 } }

/-- `STATUS` as read: each field at its bits (R35), while the queue is within its 4-bit count. The two outputs: while
`rst` is asserted both are 0 (R461); otherwise `ilk_ok` is 1 exactly when `SUP` is not FAULT (R375), and `irq` exactly
when some bit of `ERR` or `EVT` and its enable in `IRQ_EN` are both 1 (R430). -/
def Obligations.StatusWordAndOutputs : Prop :=
  ∀ s : State,
    (s.txq.length ≤ 15 →
      (readReg .status s).toNat =
        (if s.status.sup = .debSafe then 1 else if s.status.sup = .fault then 2 else 0) +
        4 * (if s.status.mode = .balancing then 1 else 0) + 8 * s.status.balReq.toNat + 16 * s.status.diag.toNat +
        32 * s.status.cfgPend.toNat + 64 * (if s.status.sup = .fault then 0 else 1) +
        128 * (if s.dcc = 0 then 0 else 1) + 256 * s.txq.length + 4096 * s.status.cause.toNat) ∧
    (s.rst = true → ilkOk s = false ∧ irq s = false) ∧
    (s.rst = false →
      (ilkOk s = true ↔ s.status.sup ≠ .fault) ∧
      (irq s = true ↔
        (∃ k : Fin 10, s.err.getLsbD k.val = true ∧ (readReg .irqEn s).getLsbD k.val = true) ∨
        (∃ k : Fin 4, s.evt.getLsbD k.val = true ∧ (readReg .irqEn s).getLsbD (16 + k.val) = true)))

/-- `NOP` changes nothing, and every word whose low byte is 0 is a `NOP` (R400). -/
def Obligations.NopChangesNothing : Prop :=
  ∀ (s : State) (a : Byte) (b : Half), decode (commandWord 0x00 a b) = .ok .nop ∧ exec .nop s = .next s

/-! ## PEC engine -/

/-- `PEC_INIT` sets the remainder to the seed, after which `PEC_OUT` reads 0x20, and `PEC_BYTE` folds its byte; neither
changes anything else (R203, R204). -/
def Obligations.PecInitAndPecByte : Prop :=
  ∀ (s : State) (b : Byte),
    exec .pecInit s = .next { s with pecRem := 0x0010 } ∧
    readReg .pecOut { s with pecRem := 0x0010 } = 0x00000020 ∧
    exec (.pecByte b) s = .next { s with pecRem := pecFold s.pecRem b }

/-- `Fold` in the naturals: index, shift, exclusive or, and the remainder modulo 2^15 (R202). -/
def Obligations.FoldOnNaturals : Prop :=
  ∀ (rem : BitVec 15) (b : Byte),
    (pecFold rem b).toNat =
      ((rem.toNat <<< 8) ^^^ (pecTable (BitVec.ofNat 8 (((rem.toNat >>> 7) ^^^ b.toNat) &&& 0xFF))).toNat) % 2 ^ 15

/-- After `PEC_INIT` and one `PEC_BYTE` for each byte of any sequence, `PEC_OUT` reads the PEC of the sequence, and only
`PEC_REM` has changed (R204, R41). -/
def Obligations.StreamedBytesGivePec : Prop :=
  ∀ (s : State) (bytes : List Byte),
    ∃ t, execAll (.pecInit :: bytes.map .pecByte) s = .next t ∧
      readReg .pecOut t = (pec bytes).setWidth 32 ∧ t = { s with pecRem := t.pecRem }

/-- The properties of `Pec` (R207) and the two published constants (R208). -/
def Obligations.PecProperties : Prop :=
  pec [] = 0x0020 ∧ (∀ bytes, (pec bytes).getLsbD 0 = false) ∧
  (∀ bytes b, (pec (bytes ++ [b])).toNat =
    ((pecFold (BitVec.ofNat 15 ((pec bytes).toNat >>> 1)) b).toNat <<< 1) % 2 ^ 16) ∧
  pec [0x00, 0x01] = 0x3D6E ∧ pec [0x00, 0x04] = 0x07C2

/-- `BUILD_CMD`: the four bytes of the command frame, zeros after them, length 4, and nothing else changed (R205). -/
def Obligations.BuildCmdFrame : Prop :=
  ∀ (s : State) (c : Half),
    let p := pec [hiByte c, loByte c]
    ∃ t, exec (.buildCmd c) s = .next t ∧
      txbBytes t = [hiByte c, loByte c, hiByte p, loByte p, 0, 0, 0, 0, 0, 0, 0, 0] ∧
      readReg .txLen t = 4 ∧ t = { s with txb := t.txb }

/-- `BUILD_WRCFG`: the twelve bytes of the write-configuration frame, length 12, `CFG_PEND` cleared, and nothing else
changed (R206). -/
def Obligations.BuildWrcfgFrame : Prop :=
  ∀ (s : State) (c : Half),
    let p := pec [hiByte c, loByte c]
    let q := pec (cfgBytes s)
    ∃ t, exec (.buildWrcfg c) s = .next t ∧
      txbBytes t = [hiByte c, loByte c, hiByte p, loByte p] ++ cfgBytes s ++ [hiByte q, loByte q] ∧
      readReg .txLen t = 12 ∧
      t = { s with txb := t.txb, status := { s.status with cfgPend := false } }

/-! ## Frame parser, configuration, balancing, mode -/

/-- The configuration bytes, each as a number computed from `CFG_A`, `CFG_THR` and `DCC` (R241), and the two registers
that show them (R47). -/
def Obligations.CfgBytesLayout : Prop :=
  ∀ s : State,
    let a := s.regs.cfgA.toNat
    let uv := s.regs.vuv.toNat
    let ov := s.regs.vov.toNat
    let d := s.dcc.toNat
    (cfgBytes s).map BitVec.toNat =
      [a % 2 + 4 * (a / 2 % 2) + 8 * (a / 4), uv % 256, uv / 256 + 16 * (ov % 16), ov / 16, d % 256, d / 256] ∧
    [0, 1, 2, 3].map (byteOf (readReg .cfgb0 s)) ++ [0, 1, 2, 3].map (byteOf (readReg .cfgb1 s)) =
      cfgBytes s ++ [0, 0]

/-- `PARSE_CV` of a group in range, when the PEC matches or the policy is ACCEPT: the three cells of the group take the
frame's codes, the aggregates of `CUR` are recomputed, a mismatch is raised and counted, and nothing else changes
(R230, R231). -/
def Obligations.ParseCvStoresCells : Prop :=
  ∀ (s : State) (g : Byte), g.toNat < 4 → rxbPecMatches s = true ∨ s.regs.ctrl.getLsbD 0 = false →
    ∃ t, exec (.parseCv g) s = .next t ∧
      (∀ i : Fin 12, (t.cur.cell[i]).toNat =
        if i.val / 3 = g.toNat then rxbCode s (i.val % 3) else (s.cur.cell[i]).toNat) ∧
      t.cur.temp = s.cur.temp ∧ t.cur.agg = aggsOf t.cur.cell t.cur.temp ∧
      t.err = (if rxbPecMatches s then s.err else s.err ||| 0x004) ∧
      t.cnt.pecErr.toNat =
        (if rxbPecMatches s then s.cnt.pecErr.toNat else min (s.cnt.pecErr.toNat + 1) 0xFFFF) ∧
      t = { s with cur := t.cur, err := t.err, cnt := { s.cnt with pecErr := t.cnt.pecErr } }

/-- `PARSE_AUX` of a group in range, when the PEC matches or the policy is ACCEPT: the sensors of the group (0, 1 and 2
of group 0; 3 of group 1, by word 0) take the frame's codes and their linearized temperatures, the aggregates of `CUR`
are recomputed, a mismatch is raised and counted, and nothing else changes (R154, R230, R232). -/
def Obligations.ParseAuxStoresTemps : Prop :=
  ∀ (s : State) (g : Byte), g.toNat < 2 → rxbPecMatches s = true ∨ s.regs.ctrl.getLsbD 0 = false →
    ∃ t, exec (.parseAux g) s = .next t ∧
      (∀ j : Fin 4, j.val / 3 = g.toNat →
        (t.auxRaw[j]).toNat = rxbCode s (j.val % 3) ∧ t.cur.temp[j] = lin s.regs.linVref t.auxRaw[j]) ∧
      (∀ j : Fin 4, j.val / 3 ≠ g.toNat →
        t.auxRaw[j] = s.auxRaw[j] ∧ t.cur.temp[j] = s.cur.temp[j]) ∧
      t.cur.cell = s.cur.cell ∧ t.cur.agg = aggsOf t.cur.cell t.cur.temp ∧
      t.err = (if rxbPecMatches s then s.err else s.err ||| 0x008) ∧
      t.cnt.pecErr.toNat =
        (if rxbPecMatches s then s.cnt.pecErr.toNat else min (s.cnt.pecErr.toNat + 1) 0xFFFF) ∧
      t = { s with
        cur := t.cur, auxRaw := t.auxRaw, err := t.err, cnt := { s.cnt with pecErr := t.cnt.pecErr } }

/-- Under the policy DISCARD, a cell-voltage or auxiliary frame whose PEC mismatches is not applied: its error bit and
the count change and nothing else does (R230 to R232). -/
def Obligations.DiscardedFrameIsNotApplied : Prop :=
  ∀ (s : State) (g : Byte), rxbPecMatches s = false → s.regs.ctrl.getLsbD 0 = true →
    let counted := BitVec.ofNat 16 (min (s.cnt.pecErr.toNat + 1) 0xFFFF)
    (g.toNat < 4 → exec (.parseCv g) s =
      .next { s with err := s.err ||| 0x004, cnt := { s.cnt with pecErr := counted } }) ∧
    (g.toNat < 2 → exec (.parseAux g) s =
      .next { s with err := s.err ||| 0x008, cnt := { s.cnt with pecErr := counted } })

/-- `PARSE_CFG`: a PEC mismatch and a difference from the mirror each raise their bit, independently of each other and of
the policy, a mismatch is counted, and nothing else changes (R233). That the comparison runs whatever `PECPOL` and the
PEC say is the model's reading: R233 is followed against test vector V17 (log entry 5). -/
def Obligations.ParseCfgChecksFrame : Prop :=
  ∀ s : State,
    let ok := rxbPecMatches s
    let same := [0, 1, 2, 3, 4, 5].map (rxbByte s) = cfgBytes s
    ∃ t, exec .parseCfg s = .next t ∧
      (same → t.err = if ok then s.err else s.err ||| 0x010) ∧
      (¬ same → t.err = if ok then s.err ||| 0x020 else s.err ||| 0x030) ∧
      t.cnt.pecErr.toNat = (if ok then s.cnt.pecErr.toNat else min (s.cnt.pecErr.toNat + 1) 0xFFFF) ∧
      t = { s with err := t.err, cnt := { s.cnt with pecErr := t.cnt.pecErr } }

/-- A command with an operand out of range sets `ERR.BAD_ARG` and changes nothing else; a word with an illegal OP sets
only ILLEGAL_CMD, whatever its operands (R145). -/
def Obligations.BadArgHasNoEffect : Prop :=
  (∀ (i : Instr) (s : State), i.isCommand = true → i.wf = false →
    exec i s = .next { s with err := s.err ||| 0x002 }) ∧
  (∀ (w : Word) (s : State) (e : DecodeError), decode w = .error e →
    exec (.wr 0x018 .word w) s = .next { s with err := s.err ||| 0x001 })

/-- `BALANCE` in Balancing mode sets bit i of `DCC` exactly when cell i of the newest closed frame exceeds that frame's
minimum by more than `BAL_EPS`, and sets `CFG_PEND`; in Normal mode it raises MODE; nothing else changes (R250,
R251). -/
def Obligations.BalanceWritesBitmap : Prop :=
  ∀ s : State,
    (s.status.mode = .normal → exec .balance s = .next { s with err := s.err ||| 0x100 }) ∧
    (s.status.mode = .balancing →
      ∃ t, exec .balance s = .next t ∧
        (∀ i : Fin 12, t.dcc.getLsbD i.val = true ↔
          ((newest s).agg.vmin.toNat + s.regs.balEps.toNat < ((newest s).cell[i]).toNat)) ∧
        t = { s with dcc := t.dcc, status := { s.status with cfgPend := true } })

/-- Re-running `BALANCE` changes nothing; the bitmap it would write depends on the history, the cursor and `BAL_EPS`
alone, and is the same after any instruction but a close, a tick or a write to `CMD` or `BAL_EPS` (R252). -/
def Obligations.BalanceIsIdempotent : Prop :=
  (∀ s t : State, exec .balance s = .next t → exec .balance t = .next t) ∧
  (∀ (i : Instr) (s t : State), exec i s = .next t → i ≠ .close → i ≠ .tick →
    (∀ off size v, i = .wr off size v → off ≠ 0x018 ∧ off ≠ 0x054) →
    balanceBitmap t = balanceBitmap s) ∧
  (∀ s t : State, t.hist = s.hist → t.cursor = s.cursor → t.regs.balEps = s.regs.balEps →
    balanceBitmap t = balanceBitmap s)

/-- `SET_MODE`: nothing when the mode is the current one; otherwise the mode changes and `CFG_PEND` is set, and leaving
Balancing clears `DCC`; nothing else changes (R255, R256). -/
def Obligations.SetModeCases : Prop :=
  ∀ s : State,
    (s.status.mode = .normal →
      exec (.setMode 0) s = .next s ∧
      exec (.setMode 1) s = .next { s with status := { s.status with mode := .balancing, cfgPend := true } }) ∧
    (s.status.mode = .balancing →
      exec (.setMode 1) s = .next s ∧
      exec (.setMode 0) s =
        .next { s with dcc := 0, status := { s.status with mode := .normal, cfgPend := true } })

/-! ## Linearizer -/

/-- `LIN_TEMP` of a sensor in range stores the code and its linearized temperature, recomputes the aggregates of `CUR`
and changes nothing else; the two sentinels are +32767 for code 0 and -32768 for a code at or above `LIN_VREF` (R270,
R271, R275). -/
def Obligations.LinTempStoresTemperature : Prop :=
  ∀ (s : State) (j : Byte) (code : Half), j.toNat < 4 →
    ∃ t, exec (.linTemp j code) s = .next t ∧
      (∀ k : Fin 4, t.auxRaw[k] = if k.val = j.toNat then code else s.auxRaw[k]) ∧
      (∀ k : Fin 4, t.cur.temp[k] = if k.val = j.toNat then lin s.regs.linVref code else s.cur.temp[k]) ∧
      t.cur.cell = s.cur.cell ∧ t.cur.agg = aggsOf t.cur.cell t.cur.temp ∧
      t = { s with cur := t.cur, auxRaw := t.auxRaw } ∧
      (code.toNat = 0 → (lin s.regs.linVref code).toInt = 32767) ∧
      (code.toNat ≠ 0 → s.regs.linVref.toNat ≤ code.toNat → (lin s.regs.linVref code).toInt = -32768)

/-- The reference values of the linearizer at `LIN_VREF` = 30000 (R277). -/
def Obligations.LinReferenceTable : Prop :=
  ∀ p ∈ [((0 : Half), (32767 : Int)), (1, 25607), (100, 3170), (1000, 1481), (5000, 734), (10000, 441), (15000, 250),
      (20000, 81), (22500, -10), (25000, -115), (29000, -424), (29999, -1158), (30000, -32768)],
    (lin 30000 p.1).toInt = p.2

/-- Where the model's enclosure decides (everywhere but where the free value of log entry 4 stands), `Lin` of a code
between 1 and `LIN_VREF - 1` is the formula of R273 over the reals with the constants of R274, rounded half up to
0.1 degrees and clamped. `x` is above 1 for every 16-bit code and reference, so the formula's case `x ≤ 1` never
comes. -/
def Obligations.LinIsBetaEquation : Prop :=
  ∀ code vref : Half, 0 < code.toNat → code.toNat < vref.toNat → thermRef code.toNat vref.toNat ≠ none →
    let R : ℝ := 10000 * (code.toNat : ℝ) / ((vref.toNat : ℝ) - code.toNat)
    let x : ℝ := R / (10000 * Real.exp (-(3435 / 298.15)))
    1 < x ∧
      (lin vref code).toInt = max (-32768) (min ⌊10 * (3435 / Real.log x - 273.15) + 1 / 2⌋ 32767)

/-! ## Aggregator -/

/-- `RoundDiv(S, n)` is `floor((2S + n) / (2n))`, with the examples of the rule (R291). -/
def Obligations.RoundDivIsNearest : Prop :=
  (∀ (S : Int) (n : Nat), 1 ≤ n →
    2 * n * roundDiv S n ≤ 2 * S + n ∧ 2 * S + n < 2 * n * (roundDiv S n + 1)) ∧
  roundDiv 7 2 = 4 ∧ roundDiv (-7) 2 = -3 ∧ roundDiv 6 12 = 1 ∧ roundDiv 5 12 = 0 ∧ roundDiv (-6) 4 = -1

/-- The aggregates of a frame: least, greatest, exact sum and rounded average of the cells; least, greatest and rounded
average of the temperatures as signed values; none overflows its width (R292). -/
def Obligations.AggsAreExact : Prop :=
  ∀ (cell : Vector Half 12) (temp : Vector Half 4),
    let a := aggsOf cell temp
    ((∀ i : Fin 12, a.vmin.toNat ≤ (cell[i]).toNat) ∧ ∃ i : Fin 12, a.vmin = cell[i]) ∧
    ((∀ i : Fin 12, (cell[i]).toNat ≤ a.vmax.toNat) ∧ ∃ i : Fin 12, a.vmax = cell[i]) ∧
    a.vtot.toNat = ∑ i : Fin 12, (cell[i]).toNat ∧ a.vtot.toNat < 2 ^ 20 ∧
    (a.vavg.toNat : Int) = roundDiv (∑ i : Fin 12, ((cell[i]).toNat : Int)) 12 ∧
    ((∀ j : Fin 4, a.tmin.toInt ≤ (temp[j]).toInt) ∧ ∃ j : Fin 4, a.tmin = temp[j]) ∧
    ((∀ j : Fin 4, (temp[j]).toInt ≤ a.tmax.toInt) ∧ ∃ j : Fin 4, a.tmax = temp[j]) ∧
    a.tavg.toInt = roundDiv (∑ j : Fin 4, (temp[j]).toInt) 4

/-- `UPD_CELL` and `UPD_TEMP` of an index in range store one cell or one temperature of `CUR`, recompute its aggregates
and change nothing else (R293, R294). -/
def Obligations.UpdatesStoreOneValue : Prop :=
  ∀ (s : State) (n : Byte) (v : Half),
    (n.toNat < 12 → ∃ t, exec (.updCell n v) s = .next t ∧
      (∀ i : Fin 12, t.cur.cell[i] = if i.val = n.toNat then v else s.cur.cell[i]) ∧
      t.cur.temp = s.cur.temp ∧ t.cur.agg = aggsOf t.cur.cell t.cur.temp ∧ t = { s with cur := t.cur }) ∧
    (n.toNat < 4 → ∃ t, exec (.updTemp n v) s = .next t ∧
      (∀ j : Fin 4, t.cur.temp[j] = if j.val = n.toNat then v else s.cur.temp[j]) ∧
      t.cur.cell = s.cur.cell ∧ t.cur.agg = aggsOf t.cur.cell t.cur.temp ∧ t = { s with cur := t.cur })

/-- `CLOSE` copies `CUR` into the slot at the cursor, moves the cursor, recomputes the pack aggregates, counts the cycle
and raises the event; `CUR` stays, it is the newest closed frame, and nothing else changes (R295, R297). -/
def Obligations.CloseClosesTheCycle : Prop :=
  ∀ s : State,
    ∃ t, exec .close s = .next t ∧
      (∀ k : Fin 5, t.hist[k] = if k = s.cursor then s.cur else s.hist[k]) ∧
      t.cursor.val = (s.cursor.val + 1) % 5 ∧ t.pack = packAggs t.hist ∧
      t.cnt.cycle.toNat = (s.cnt.cycle.toNat + 1) % 2 ^ 32 ∧ t.evt = s.evt ||| 0x4 ∧ newest t = s.cur ∧
      t = { s with
        hist := t.hist, cursor := t.cursor, pack := t.pack, evt := t.evt
        cnt := { s.cnt with cycle := t.cnt.cycle } }

/-- Each pack aggregate is the rounded average over the five slots of that slot's own aggregate, exactly: none overflows
its field (R296). -/
def Obligations.PackAveragesAreExact : Prop :=
  ∀ hist : Vector CellFrame 5,
    let p := packAggs hist
    (p.vmin.toNat : Int) = roundDiv (∑ k : Fin 5, ((hist[k]).agg.vmin.toNat : Int)) 5 ∧
    (p.vmax.toNat : Int) = roundDiv (∑ k : Fin 5, ((hist[k]).agg.vmax.toNat : Int)) 5 ∧
    (p.vavg.toNat : Int) = roundDiv (∑ k : Fin 5, ((hist[k]).agg.vavg.toNat : Int)) 5 ∧
    (p.vtot.toNat : Int) = roundDiv (∑ k : Fin 5, ((hist[k]).agg.vtot.toNat : Int)) 5 ∧
    p.tmin.toInt = roundDiv (∑ k : Fin 5, (hist[k]).agg.tmin.toInt) 5 ∧
    p.tmax.toInt = roundDiv (∑ k : Fin 5, (hist[k]).agg.tmax.toInt) 5 ∧
    p.tavg.toInt = roundDiv (∑ k : Fin 5, (hist[k]).agg.tavg.toInt) 5

/-- Five closes of one working frame, from any state, make every pack aggregate that frame's own aggregate (R298). -/
def Obligations.IdenticalFramesAverageToThemselves : Prop :=
  ∀ s : State, ∃ t, execAll (List.replicate 5 .close) s = .next t ∧ t.pack = s.cur.agg ∧
    ∀ k : Fin 5, t.hist[k] = s.cur

/-- From reset, after k closes of one frame (k from 1 to 5), each aggregate of the pack is `RoundDiv(k a, 5)` of the
frame's `a`, negative temperatures included (R299). -/
def Obligations.WarmUpAverages : Prop :=
  ∀ (f : CellFrame) (k : Nat), 1 ≤ k → k ≤ 5 →
    ∃ t, execAll (List.replicate k .close) { State.reset with cur := f } = .next t ∧
      (t.pack.vmin.toNat : Int) = roundDiv (k * f.agg.vmin.toNat) 5 ∧
      (t.pack.vmax.toNat : Int) = roundDiv (k * f.agg.vmax.toNat) 5 ∧
      (t.pack.vavg.toNat : Int) = roundDiv (k * f.agg.vavg.toNat) 5 ∧
      (t.pack.vtot.toNat : Int) = roundDiv (k * f.agg.vtot.toNat) 5 ∧
      t.pack.tmin.toInt = roundDiv (k * f.agg.tmin.toInt) 5 ∧
      t.pack.tmax.toInt = roundDiv (k * f.agg.tmax.toInt) 5 ∧
      t.pack.tavg.toInt = roundDiv (k * f.agg.tavg.toInt) 5

/-! ## Vehicle bus -/

/-- `TX_VSUM` and `TX_TSUM` with room in the queue append one frame with the identifier, length and bytes of its layout;
with a full queue they set only `ERR.TXQ_OVF`; nothing else changes (R320 to R322, R330, R331). -/
def Obligations.SummaryFramesAreQueued : Prop :=
  ∀ s : State,
    let p := s.pack
    let total : Half := BitVec.ofNat 16 (min (p.vtot.toNat / 10) 0xFFFF)
    let cur := s.regs.current
    (s.txq.length < 8 →
      (∃ f : BusFrame, exec .txVsum s = .next { s with txq := s.txq ++ [f] } ∧
        f.id = s.regs.idVsum ∧ f.len.val = 8 ∧
        f.data.toList = [loByte p.vmin, hiByte p.vmin, loByte p.vmax, hiByte p.vmax, loByte p.vavg, hiByte p.vavg,
          loByte total, hiByte total]) ∧
      (∃ f : BusFrame, exec .txTsum s = .next { s with txq := s.txq ++ [f] } ∧
        f.id = s.regs.idTsum ∧ f.len.val = 8 ∧
        f.data.toList = [loByte p.tmax, hiByte p.tmax, loByte p.tmin, hiByte p.tmin, byteOf cur 0, byteOf cur 1,
          byteOf cur 2, byteOf cur 3])) ∧
    (8 ≤ s.txq.length →
      exec .txVsum s = .next { s with err := s.err ||| 0x040 } ∧
      exec .txTsum s = .next { s with err := s.err ||| 0x040 })

/-- `TX_CELL` of a frame in range with room in the queue appends the three cells of the newest closed frame, with
identifier `ID_CELL + k` and length 6; with a full queue it sets only `ERR.TXQ_OVF` (R323, R332). -/
def Obligations.CellFrameIsQueued : Prop :=
  ∀ (s : State) (k : Byte) (h : k.toNat < 4),
    let c (j : Fin 3) : Half := (newest s).cell[3 * k.toNat + j.val]'(by simp only [Config.ncell]; omega)
    (s.txq.length < 8 → ∃ f : BusFrame, exec (.txCell k) s = .next { s with txq := s.txq ++ [f] } ∧
      f.id.toNat = (s.regs.idCell.toNat + k.toNat) % 2 ^ 32 ∧ f.len.val = 6 ∧
      f.data.toList = [loByte (c 0), hiByte (c 0), loByte (c 1), hiByte (c 1), loByte (c 2), hiByte (c 2), 0, 0]) ∧
    (8 ≤ s.txq.length → exec (.txCell k) s = .next { s with err := s.err ||| 0x040 })

/-- `TX_TELEM` pushes the two summaries and, in diagnostic mode, the four cell frames, each push tried on its own: the
leading frames that fit are queued in order, the rest are dropped, TXQ_OVF is set when one was dropped, and nothing
else changes (R320, R334). -/
def Obligations.TelemetryBurstQueuesWhatFits : Prop :=
  ∀ s : State, s.txq.length ≤ 8 →
    let cells (k : Fin 4) : BusFrame := busFrame (s.regs.idCell + BitVec.ofNat 32 k.val) (cellData s k)
    let burst : List BusFrame :=
      [busFrame s.regs.idVsum (vsumData s), busFrame s.regs.idTsum (tsumData s)] ++
        (if s.status.diag then [cells 0, cells 1, cells 2, cells 3] else [])
    exec .txTelem s = .next { s with
      txq := (s.txq ++ burst).take 8
      err := if s.txq.length + burst.length ≤ 8 then s.err else s.err ||| 0x040 }

/-- `TXQ_POP` removes the head of the queue and nothing else; on an empty queue it sets only `ERR.TXQ_UNF` (R335). -/
def Obligations.PopRemovesTheHead : Prop :=
  ∀ (s : State) (f : BusFrame) (rest : List BusFrame),
    (s.txq = f :: rest → exec .txqPop s = .next { s with txq := rest }) ∧
    (s.txq = [] → exec .txqPop s = .next { s with err := s.err ||| 0x080 })

/-- `RX_FRAME`: a frame with no payload changes nothing; otherwise each flag whose identifier matches takes whether byte
0 is non-zero, a match raises RX_MATCH, and nothing else changes (R340). -/
def Obligations.RxFrameSetsFlags : Prop :=
  ∀ s : State,
    let on := s.regs.rxD0.toNat % 256 ≠ 0
    let bal := s.regs.rxId = s.regs.idBal
    let dia := s.regs.rxId = s.regs.idDiag
    (s.regs.rxLen = 0 ∨ (¬ bal ∧ ¬ dia) → exec .rxFrame s = .next s) ∧
    (s.regs.rxLen ≠ 0 → bal ∨ dia → ∃ t, exec .rxFrame s = .next t ∧
      (bal → (t.status.balReq = true ↔ on)) ∧ (¬ bal → t.status.balReq = s.status.balReq) ∧
      (dia → (t.status.diag = true ↔ on)) ∧ (¬ dia → t.status.diag = s.status.diag) ∧
      t = { s with
        evt := s.evt ||| 0x8
        status := { s.status with balReq := t.status.balReq, diag := t.status.diag } })

/-! ## Safety sequencer -/

/-- The limit check: each cause bit is set exactly when its limit is violated, bounds inclusive, voltages unsigned and
temperatures signed, on the pack aggregates or, with LIMSRC, on the newest closed frame's (R361). -/
def Obligations.LimitBitsAreViolations : Prop :=
  ∀ s : State,
    let a := if s.regs.ctrl.getLsbD 3 then (newest s).agg else s.pack
    ((limits s).getLsbD 0 = true ↔ a.vmin.toNat < s.regs.vminLim.toNat) ∧
    ((limits s).getLsbD 1 = true ↔ s.regs.vmaxLim.toNat < a.vmax.toNat) ∧
    ((limits s).getLsbD 2 = true ↔ a.tmin.toInt < s.regs.tminLim.toInt) ∧
    ((limits s).getLsbD 3 = true ↔ s.regs.tmaxLim.toInt < a.tmax.toInt) ∧
    (limits s).getLsbD 4 = false

/-- `TICK` answers a next state from every state: the cycle closed as `CLOSE` closes it, `STATUS.CAUSE` the limit check
of the closed cycle, and no host register, no frame buffer and not the time changed (R360). -/
def Obligations.TickClosesAndChecks : Prop :=
  ∀ s : State,
    ∃ t u, exec .tick s = .next t ∧ exec .close s = .next u ∧
      t.hist = u.hist ∧ t.cursor = u.cursor ∧ t.pack = u.pack ∧ t.cnt.cycle = u.cnt.cycle ∧
      t.status.cause = limits u ∧ t.evt &&& 0x4 = 0x4 ∧ t.status.diag = s.status.diag ∧
      t.cnt.pecErr = s.cnt.pecErr ∧
      t = { s with
        status := t.status, evt := t.evt, err := t.err, txq := t.txq, cnt := t.cnt, seq := t.seq, dcc := t.dcc
        hist := t.hist, cursor := t.cursor, pack := t.pack }

/-- The sequencer's part of a `TICK`, in the three branches of the table: in limits; out of limits in FAULT, with the
repeated frame when FREP is set and due; out of limits outside FAULT, before and after the debounce interval (R362,
R363, R364, R366, R373). -/
def Obligations.TickSequencerTable : Prop :=
  ∀ s t u : State, exec .close s = .next u → exec .tick s = .next t →
    let c := limits u
    let frame := faultFrame s.regs.idFault c
    let pushed := if 8 ≤ s.txq.length then s.txq else s.txq ++ [frame]
    let ovf := if 8 ≤ s.txq.length then s.err ||| 0x040 else s.err
    let due (since : Word) := s.regs.debMs.toNat ≤ (s.msCount - since).toNat
    (c = 0 → t.status.sup = .idleSafe ∧ t.seq = { s.seq with lastGood := s.msCount } ∧ t.txq = s.txq ∧
      t.err = s.err ∧ t.cnt.fault = s.cnt.fault ∧
      t.evt = if s.status.sup = .fault then s.evt ||| 0x6 else s.evt ||| 0x4) ∧
    (c ≠ 0 → s.status.sup = .fault → t.status.sup = .fault ∧ t.cnt.fault = s.cnt.fault ∧ t.evt = s.evt ||| 0x4 ∧
      (s.regs.ctrl.getLsbD 2 = true ∧ due s.seq.lastFtx →
        t.txq = pushed ∧ t.err = ovf ∧ t.seq = { s.seq with lastFtx := s.msCount }) ∧
      (¬ (s.regs.ctrl.getLsbD 2 = true ∧ due s.seq.lastFtx) →
        t.txq = s.txq ∧ t.err = s.err ∧ t.seq = s.seq)) ∧
    (c ≠ 0 → s.status.sup ≠ .fault → ¬ due s.seq.lastGood → t.status.sup = .debSafe ∧ t.seq = s.seq ∧
      t.txq = s.txq ∧ t.err = s.err ∧ t.cnt.fault = s.cnt.fault ∧ t.evt = s.evt ||| 0x4) ∧
    (c ≠ 0 → s.status.sup ≠ .fault → due s.seq.lastGood → t.status.sup = .fault ∧
      t.seq = { s.seq with lastFtx := s.msCount, fcause := c } ∧ t.txq = pushed ∧ t.err = ovf ∧
      t.cnt.fault.toNat = min (s.cnt.fault.toNat + 1) 0xFFFF ∧ t.evt = s.evt ||| 0x5)

/-- The end of a `TICK`: the mode follows the balancing request; in Normal mode `DCC` is 0 if the mode was Balancing and
as it was otherwise, and in Balancing it is the bitmap of the frame just closed, with the request cleared when no cell
needs discharge (R256, R367, R368). -/
def Obligations.TickControlCheck : Prop :=
  ∀ s t u : State, exec .close s = .next u → exec .tick s = .next t →
    (s.status.balReq = true → t.status.mode = .balancing ∧ t.dcc = balanceBitmap u ∧ t.status.cfgPend = true ∧
      (t.status.balReq = true ↔ t.dcc ≠ 0)) ∧
    (s.status.balReq = false → t.status.mode = .normal ∧ t.status.balReq = false ∧
      (s.status.mode = .balancing → t.dcc = 0 ∧ t.status.cfgPend = true) ∧
      (s.status.mode = .normal → t.dcc = s.dcc ∧ t.status.cfgPend = s.status.cfgPend))

/-- A strobe advances the time and, when the watchdog is enabled outside FAULT and the deadline is reached, enters FAULT
with the last evaluation's limit bits and WD; otherwise it does nothing else (R364, R370, R371). -/
def Obligations.StrobeRunsTheWatchdog : Prop :=
  ∀ (s : State) (rest : List Event), s.rst = false → s.sched = .strobe :: rest →
    let now := s.msCount + 1
    let due := s.regs.ctrl.getLsbD 1 = true ∧ s.status.sup ≠ .fault ∧
      s.regs.debMs.toNat ≤ (now - s.seq.lastGood).toNat
    let c : BitVec 5 := (s.status.cause &&& 0x0F) ||| 0x10
    (¬ due → step s = .next { s with msCount := now, sched := rest }) ∧
    (due → step s = .next { s with
      msCount := now, sched := rest, evt := s.evt ||| 0x1
      status := { s.status with sup := .fault, cause := c }
      cnt := { s.cnt with fault := BitVec.ofNat 16 (min (s.cnt.fault.toNat + 1) 0xFFFF) }
      seq := { s.seq with lastFtx := now, fcause := c }
      txq := if 8 ≤ s.txq.length then s.txq else s.txq ++ [faultFrame s.regs.idFault c]
      err := if 8 ≤ s.txq.length then s.err ||| 0x040 else s.err })

/-- Right after every strobe outside reset with the watchdog enabled and a debounce interval of at least 1 ms, the block
is in FAULT or less than `DEB_MS` has passed since the last in-limits tick (R374, property 3). -/
def Obligations.WatchdogBoundsTheDebounce : Prop :=
  ∀ s t : State, strobeNext s → step s = .next t → t.regs.ctrl.getLsbD 1 = true → 1 ≤ t.regs.debMs.toNat →
    t.status.sup = .fault ∨ (t.msCount - t.seq.lastGood).toNat < t.regs.debMs.toNat

/-- Whatever event takes the block from outside FAULT into FAULT: at least `DEB_MS` has passed since the last in-limits
evaluation, FAULT_ENTER is set, the entry is counted, the cause latched and its frame queued once (or dropped with
TXQ_OVF by a full queue), the time of the frame recorded, and the interlock output falls (R324, R363, R364, R371,
R375). -/
def Obligations.FaultEntryActions : Prop :=
  ∀ s t : State, s.status.sup ≠ .fault → step s = .next t → t.status.sup = .fault →
    s.regs.debMs.toNat ≤ (t.msCount - s.seq.lastGood).toNat ∧ t.seq.lastGood = s.seq.lastGood ∧
    t.evt &&& 0x1 = 0x1 ∧ t.cnt.fault.toNat = min (s.cnt.fault.toNat + 1) 0xFFFF ∧
    t.seq.fcause = t.status.cause ∧ t.status.cause ≠ 0 ∧ t.seq.lastFtx = t.msCount ∧ ilkOk t = false ∧
    (s.txq.length < 8 → t.txq = s.txq ++ [faultFrame s.regs.idFault t.status.cause]) ∧
    (8 ≤ s.txq.length → t.txq = s.txq ∧ t.err &&& 0x040 = 0x040)

/-- No instruction but `TICK` changes `SUP`, and while the block is in FAULT only an in-limits `TICK` or reset takes it
out: any other step leaves it there, with the entry count as it was or cleared by the host (R365, R373). -/
def Obligations.OnlyTickStrobeAndResetMoveSup : Prop :=
  (∀ (i : Instr) (s t : State), exec i s = .next t → t.status.sup ≠ s.status.sup → runs i .tick) ∧
  (∀ s t : State, s.status.sup = .fault → step s = .next t →
    (t.status.sup = .fault ∧ (t.cnt.fault = s.cnt.fault ∨ (t.cnt.fault = 0 ∧ writeNext s 0x0A8))) ∨
    resetNext s ∨
    (t.status.sup = .idleSafe ∧ t.status.cause = 0 ∧ t.evt &&& 0x2 = 0x2 ∧
      ∃ w, commandNext s w ∧ decode w = .ok .tick))

/-! ## The whole machine -/

/-- The invariant holds after reset (R290, R64, R46, R65, R43, R374, R460). -/
def Obligations.InvAtReset : Prop := BlockInv State.reset

/-- Every step keeps the invariant: frame aggregates, pack averages, no discharge in Normal mode, the queue within its
depth and padded, the command buffer padded, the sequencer state and the cause bits in agreement, reset values held
while `rst` is asserted (R290, R296, R46, R65, R43, R374, R461). -/
def Obligations.InvKeptByEveryStep : Prop := ∀ s t : State, BlockInv s → step s = .next t → BlockInv t

/-- The block never stops: a step answers a next state unless its event is a host access while `rst` is asserted, which
the model refuses (R404, R423, R461; the refusal is the model's choice, log entry 3). -/
def Obligations.OnlyAccessInResetIsRefused : Prop :=
  ∀ s : State,
    (∃ t, step s = .next t) ∨
    (s.rst = true ∧ step s = .refused .accessDuringReset ∧
      ∃ rest, (∃ off size, s.sched = .hostRead off size :: rest) ∨
        (∃ off size v, s.sched = .hostWrite off size v :: rest))

/-- Sticky bits stay: only a host write to `ERR` or reset clears an error bit, and only a host write to `EVT` or reset an
event bit (R37, R38, R423). -/
def Obligations.StickyBitsStay : Prop :=
  ∀ s t : State, step s = .next t → ¬ resetNext s →
    (¬ writeNext s 0x00C → s.err &&& t.err = s.err) ∧ (¬ writeNext s 0x010 → s.evt &&& t.evt = s.evt)

/-- Errors do not steer: a command issued with any error bits set does exactly what it does with none set, and the bits
it raises join them (R423). -/
def Obligations.ErrorsDoNotSteerCommands : Prop :=
  ∀ (i : Instr) (s t : State) (e : BitVec 10), i.isCommand = true →
    exec i { s with err := 0 } = .next t → exec i { s with err := e } = .next { t with err := e ||| t.err }

/-- No command changes a register the host writes, the time, the reset input, what reads returned or the events to come;
a host read changes no state of the block but `ERR.BAD_ADDR` (R66, R104, R109, R370). -/
def Obligations.CommandsLeaveHostRegisters : Prop :=
  (∀ (i : Instr) (s t : State), i.isCommand = true → exec i s = .next t →
    t.regs = s.regs ∧ t.msCount = s.msCount ∧ t.rst = s.rst ∧ t.reads = s.reads ∧ t.sched = s.sched) ∧
  (∀ (off : Offset) (size : AccessSize) (s t : State), exec (.rd off size) s = .next t →
    t = { s with reads := t.reads, err := t.err } ∧ (t.err = s.err ∨ t.err = s.err ||| 0x200))

/-- `CFG_PEND` is cleared by `BUILD_WRCFG` alone (R240). -/
def Obligations.CfgPendClearedOnlyByBuild : Prop :=
  ∀ (i : Instr) (s t : State), exec i s = .next t → s.status.cfgPend = true → t.status.cfgPend = false →
    ∃ c, runs i (.buildWrcfg c)

/-- The history, the cursor and the pack aggregates change only when a cycle closes, by `CLOSE` or `TICK` (R293, R296). -/
def Obligations.HistoryChangesOnlyByClose : Prop :=
  ∀ (i : Instr) (s t : State), exec i s = .next t →
    t.hist ≠ s.hist ∨ t.cursor ≠ s.cursor ∨ t.pack ≠ s.pack ∨ (t.cnt.cycle ≠ s.cnt.cycle ∧ t.cnt.cycle ≠ 0) →
    runs i .close ∨ runs i .tick

/-- The queue only grows at its end, but for the host's own `TXQ_POP` and reset: its frames, the head among them, keep
their places and contents (R330, R473). -/
def Obligations.QueueHeadIsStable : Prop :=
  ∀ s t : State, step s = .next t → ¬ resetNext s → (∀ w, commandNext s w → decode w ≠ .ok .txqPop) →
    s.txq <+: t.txq
end

