-- ==== Sys2Proof/Laws/Decode.lean ====
section
/-! SUPPORT. What the decoder answers, said once: one lemma per row of the opcode map, the fields of a built word, and
that every answer is a command or a rejection by name (30_encoding R141 to R144). -/

namespace Sys2Proof

/-! The fields of a built command word -/

/-- The bits of a built word (R141, R160). -/
theorem commandWord_getLsbD (op a : Byte) (b : Half) (k : Nat) :
    (commandWord op a b).getLsbD k =
      if k < 8 then op.getLsbD k else if k < 16 then a.getLsbD (k - 8) else b.getLsbD (k - 16) := by
  have h := BitVec.getLsbD_append (x := b ++ a) (y := op) (i := k)
  rw [BitVec.getLsbD_append (x := b) (y := a) (i := k - 8)] at h
  have e : (if k < 8 then op.getLsbD k else if k - 8 < 8 then a.getLsbD (k - 8) else b.getLsbD (k - 8 - 8)) =
      if k < 8 then op.getLsbD k else if k < 16 then a.getLsbD (k - 8) else b.getLsbD (k - 16) := by
    have e1 : (k - 8 < 8) = (k < 16) := by
      rw [eq_iff_iff]
      omega
    have e2 : k - 8 - 8 = k - 16 := by omega
    rw [e2]
    simp only [e1]
  exact Eq.trans h e

/-- `OP` of a built word (R141, R160). -/
@[simp] theorem opOf_commandWord (op a : Byte) (b : Half) : opOf (commandWord op a b) = op := by
  ext k hk
  simp [opOf, commandWord_getLsbD, hk, BitVec.getLsbD_eq_getElem]

/-- `A` of a built word (R141, R160). -/
@[simp] theorem aOf_commandWord (op a : Byte) (b : Half) : aOf (commandWord op a b) = a := by
  ext k hk
  have h : 8 + k < 16 := by omega
  simp [aOf, commandWord_getLsbD, h, BitVec.getLsbD_eq_getElem, hk]

/-- `B` of a built word (R141, R160). -/
@[simp] theorem bOf_commandWord (op a : Byte) (b : Half) : bOf (commandWord op a b) = b := by
  ext k hk
  have h : ¬ 16 + k < 8 := by omega
  simp [bOf, commandWord_getLsbD, h, BitVec.getLsbD_eq_getElem, hk]

/-! The rows of the opcode map (R143) -/

theorem decode_nop {w : Word} (h : (opOf w).toNat = 0x00) : decode w = .ok .nop := by
  rw [decode, h]
  rfl

theorem decode_pecInit {w : Word} (h : (opOf w).toNat = 0x01) : decode w = .ok .pecInit := by
  rw [decode, h]
  rfl

theorem decode_pecByte {w : Word} (h : (opOf w).toNat = 0x02) : decode w = .ok (.pecByte (aOf w)) := by
  rw [decode, h]
  rfl

theorem decode_buildCmd {w : Word} (h : (opOf w).toNat = 0x03) : decode w = .ok (.buildCmd (bOf w)) := by
  rw [decode, h]
  rfl

theorem decode_buildWrcfg {w : Word} (h : (opOf w).toNat = 0x04) : decode w = .ok (.buildWrcfg (bOf w)) := by
  rw [decode, h]
  rfl

theorem decode_parseCv {w : Word} (h : (opOf w).toNat = 0x10) : decode w = .ok (.parseCv (aOf w)) := by
  rw [decode, h]
  rfl

theorem decode_parseAux {w : Word} (h : (opOf w).toNat = 0x11) : decode w = .ok (.parseAux (aOf w)) := by
  rw [decode, h]
  rfl

theorem decode_parseCfg {w : Word} (h : (opOf w).toNat = 0x12) : decode w = .ok .parseCfg := by
  rw [decode, h]
  rfl

theorem decode_balance {w : Word} (h : (opOf w).toNat = 0x13) : decode w = .ok .balance := by
  rw [decode, h]
  rfl

theorem decode_setMode {w : Word} (h : (opOf w).toNat = 0x14) : decode w = .ok (.setMode (aOf w)) := by
  rw [decode, h]
  rfl

theorem decode_linTemp {w : Word} (h : (opOf w).toNat = 0x18) : decode w = .ok (.linTemp (aOf w) (bOf w)) := by
  rw [decode, h]
  rfl

theorem decode_updCell {w : Word} (h : (opOf w).toNat = 0x20) : decode w = .ok (.updCell (aOf w) (bOf w)) := by
  rw [decode, h]
  rfl

theorem decode_updTemp {w : Word} (h : (opOf w).toNat = 0x21) : decode w = .ok (.updTemp (aOf w) (bOf w)) := by
  rw [decode, h]
  rfl

theorem decode_close {w : Word} (h : (opOf w).toNat = 0x22) : decode w = .ok .close := by
  rw [decode, h]
  rfl

theorem decode_txVsum {w : Word} (h : (opOf w).toNat = 0x30) : decode w = .ok .txVsum := by
  rw [decode, h]
  rfl

theorem decode_txTsum {w : Word} (h : (opOf w).toNat = 0x31) : decode w = .ok .txTsum := by
  rw [decode, h]
  rfl

theorem decode_txCell {w : Word} (h : (opOf w).toNat = 0x32) : decode w = .ok (.txCell (aOf w)) := by
  rw [decode, h]
  rfl

theorem decode_txTelem {w : Word} (h : (opOf w).toNat = 0x33) : decode w = .ok .txTelem := by
  rw [decode, h]
  rfl

theorem decode_txqPop {w : Word} (h : (opOf w).toNat = 0x34) : decode w = .ok .txqPop := by
  rw [decode, h]
  rfl

theorem decode_rxFrame {w : Word} (h : (opOf w).toNat = 0x38) : decode w = .ok .rxFrame := by
  rw [decode, h]
  rfl

theorem decode_tick {w : Word} (h : (opOf w).toNat = 0x40) : decode w = .ok .tick := by
  rw [decode, h]
  rfl

/-- The decoder gives commands only (R143). -/
theorem decode_isCommand {w : Word} {i : Instr} (h : decode w = .ok i) : i.isCommand = true := by
  unfold decode at h
  split at h <;> first | (cases h; rfl) | cases h

end Sys2Proof
end

