-- ==== Sys2Proof/Laws/State.lean ====
section
/-! SUPPORT. What each named update of the state leaves and what it sets: one lemma per update, a conjunction of one
equation per field, so that a proof rewrites with it and unfolds no record update. -/

namespace Sys2Proof.Machine

/-- `raise Err(e)` sets one bit of `ERR` (R12). -/
@[simp] theorem raiseErr_fields (e : ErrBit) (s : State) :
    (raiseErr e s).regs = s.regs ∧ (raiseErr e s).status = s.status ∧
    (raiseErr e s).err = s.err ||| (1#10 <<< e.code) ∧ (raiseErr e s).evt = s.evt ∧
    (raiseErr e s).msCount = s.msCount ∧ (raiseErr e s).pecRem = s.pecRem ∧ (raiseErr e s).txb = s.txb ∧
    (raiseErr e s).dcc = s.dcc ∧ (raiseErr e s).txq = s.txq ∧ (raiseErr e s).cnt = s.cnt ∧
    (raiseErr e s).seq = s.seq ∧ (raiseErr e s).cursor = s.cursor ∧ (raiseErr e s).hist = s.hist ∧
    (raiseErr e s).cur = s.cur ∧ (raiseErr e s).auxRaw = s.auxRaw ∧ (raiseErr e s).pack = s.pack ∧
    (raiseErr e s).rst = s.rst ∧ (raiseErr e s).reads = s.reads ∧ (raiseErr e s).sched = s.sched := by
  exact ⟨rfl, rfl, rfl, rfl, rfl, rfl, rfl, rfl, rfl, rfl, rfl, rfl, rfl, rfl, rfl, rfl, rfl, rfl, rfl⟩

/-- `event(e)` sets one bit of `EVT` (R12). -/
@[simp] theorem raiseEvt_fields (e : EvtBit) (s : State) :
    (raiseEvt e s).regs = s.regs ∧ (raiseEvt e s).status = s.status ∧ (raiseEvt e s).err = s.err ∧
    (raiseEvt e s).evt = s.evt ||| (1#4 <<< e.code) ∧ (raiseEvt e s).msCount = s.msCount ∧
    (raiseEvt e s).pecRem = s.pecRem ∧ (raiseEvt e s).txb = s.txb ∧ (raiseEvt e s).dcc = s.dcc ∧
    (raiseEvt e s).txq = s.txq ∧ (raiseEvt e s).cnt = s.cnt ∧ (raiseEvt e s).seq = s.seq ∧
    (raiseEvt e s).cursor = s.cursor ∧ (raiseEvt e s).hist = s.hist ∧ (raiseEvt e s).cur = s.cur ∧
    (raiseEvt e s).auxRaw = s.auxRaw ∧ (raiseEvt e s).pack = s.pack ∧ (raiseEvt e s).rst = s.rst ∧
    (raiseEvt e s).reads = s.reads ∧ (raiseEvt e s).sched = s.sched := by
  exact ⟨rfl, rfl, rfl, rfl, rfl, rfl, rfl, rfl, rfl, rfl, rfl, rfl, rfl, rfl, rfl, rfl, rfl, rfl, rfl⟩

/-- The recomputation of the working frame's aggregates changes nothing else (R292). -/
@[simp] theorem refreshCur_fields (s : State) :
    (refreshCur s).regs = s.regs ∧ (refreshCur s).status = s.status ∧ (refreshCur s).err = s.err ∧
    (refreshCur s).evt = s.evt ∧ (refreshCur s).msCount = s.msCount ∧ (refreshCur s).pecRem = s.pecRem ∧
    (refreshCur s).txb = s.txb ∧ (refreshCur s).dcc = s.dcc ∧ (refreshCur s).txq = s.txq ∧
    (refreshCur s).cnt = s.cnt ∧ (refreshCur s).seq = s.seq ∧ (refreshCur s).cursor = s.cursor ∧
    (refreshCur s).hist = s.hist ∧ (refreshCur s).cur = s.cur.refresh ∧ (refreshCur s).auxRaw = s.auxRaw ∧
    (refreshCur s).pack = s.pack ∧ (refreshCur s).rst = s.rst ∧ (refreshCur s).reads = s.reads ∧
    (refreshCur s).sched = s.sched := by
  exact ⟨rfl, rfl, rfl, rfl, rfl, rfl, rfl, rfl, rfl, rfl, rfl, rfl, rfl, rfl, rfl, rfl, rfl, rfl, rfl⟩

/-- A cell stored (R293). -/
@[simp] theorem putCell_fields (i : Fin Config.ncell) (v : Half) (s : State) :
    (putCell i v s).regs = s.regs ∧ (putCell i v s).status = s.status ∧ (putCell i v s).err = s.err ∧
    (putCell i v s).evt = s.evt ∧ (putCell i v s).msCount = s.msCount ∧ (putCell i v s).pecRem = s.pecRem ∧
    (putCell i v s).txb = s.txb ∧ (putCell i v s).dcc = s.dcc ∧ (putCell i v s).txq = s.txq ∧
    (putCell i v s).cnt = s.cnt ∧ (putCell i v s).seq = s.seq ∧ (putCell i v s).cursor = s.cursor ∧
    (putCell i v s).hist = s.hist ∧
    (putCell i v s).cur = ⟨s.cur.cell.set i.val v i.isLt, s.cur.temp, s.cur.agg⟩ ∧
    (putCell i v s).auxRaw = s.auxRaw ∧ (putCell i v s).pack = s.pack ∧ (putCell i v s).rst = s.rst ∧
    (putCell i v s).reads = s.reads ∧ (putCell i v s).sched = s.sched := by
  exact ⟨rfl, rfl, rfl, rfl, rfl, rfl, rfl, rfl, rfl, rfl, rfl, rfl, rfl, rfl, rfl, rfl, rfl, rfl, rfl⟩

/-- A temperature stored (R294). -/
@[simp] theorem putTemp_fields (j : Fin Config.ntemp) (t : Half) (s : State) :
    (putTemp j t s).regs = s.regs ∧ (putTemp j t s).status = s.status ∧ (putTemp j t s).err = s.err ∧
    (putTemp j t s).evt = s.evt ∧ (putTemp j t s).msCount = s.msCount ∧ (putTemp j t s).pecRem = s.pecRem ∧
    (putTemp j t s).txb = s.txb ∧ (putTemp j t s).dcc = s.dcc ∧ (putTemp j t s).txq = s.txq ∧
    (putTemp j t s).cnt = s.cnt ∧ (putTemp j t s).seq = s.seq ∧ (putTemp j t s).cursor = s.cursor ∧
    (putTemp j t s).hist = s.hist ∧
    (putTemp j t s).cur = ⟨s.cur.cell, s.cur.temp.set j.val t j.isLt, s.cur.agg⟩ ∧
    (putTemp j t s).auxRaw = s.auxRaw ∧ (putTemp j t s).pack = s.pack ∧ (putTemp j t s).rst = s.rst ∧
    (putTemp j t s).reads = s.reads ∧ (putTemp j t s).sched = s.sched := by
  exact ⟨rfl, rfl, rfl, rfl, rfl, rfl, rfl, rfl, rfl, rfl, rfl, rfl, rfl, rfl, rfl, rfl, rfl, rfl, rfl⟩

/-- A raw code stored and linearized (R232, R275). -/
@[simp] theorem storeCode_fields (j : Fin Config.ntemp) (c : Half) (s : State) :
    (storeCode j c s).regs = s.regs ∧ (storeCode j c s).status = s.status ∧ (storeCode j c s).err = s.err ∧
    (storeCode j c s).evt = s.evt ∧ (storeCode j c s).msCount = s.msCount ∧
    (storeCode j c s).pecRem = s.pecRem ∧ (storeCode j c s).txb = s.txb ∧ (storeCode j c s).dcc = s.dcc ∧
    (storeCode j c s).txq = s.txq ∧ (storeCode j c s).cnt = s.cnt ∧ (storeCode j c s).seq = s.seq ∧
    (storeCode j c s).cursor = s.cursor ∧ (storeCode j c s).hist = s.hist ∧
    (storeCode j c s).cur = ⟨s.cur.cell, s.cur.temp.set j.val (lin s.regs.linVref c) j.isLt, s.cur.agg⟩ ∧
    (storeCode j c s).auxRaw = s.auxRaw.set j.val c j.isLt ∧ (storeCode j c s).pack = s.pack ∧
    (storeCode j c s).rst = s.rst ∧ (storeCode j c s).reads = s.reads ∧ (storeCode j c s).sched = s.sched := by
  exact ⟨rfl, rfl, rfl, rfl, rfl, rfl, rfl, rfl, rfl, rfl, rfl, rfl, rfl, rfl, rfl, rfl, rfl, rfl, rfl⟩

/-- `STATUS.SUP` set. -/
@[simp] theorem setSup_fields (x : Sup) (s : State) :
    (setSup x s).regs = s.regs ∧
    (setSup x s).status = ⟨x, s.status.mode, s.status.balReq, s.status.diag, s.status.cfgPend, s.status.cause⟩ ∧
    (setSup x s).err = s.err ∧ (setSup x s).evt = s.evt ∧ (setSup x s).msCount = s.msCount ∧
    (setSup x s).pecRem = s.pecRem ∧ (setSup x s).txb = s.txb ∧ (setSup x s).dcc = s.dcc ∧
    (setSup x s).txq = s.txq ∧ (setSup x s).cnt = s.cnt ∧ (setSup x s).seq = s.seq ∧
    (setSup x s).cursor = s.cursor ∧ (setSup x s).hist = s.hist ∧ (setSup x s).cur = s.cur ∧
    (setSup x s).auxRaw = s.auxRaw ∧ (setSup x s).pack = s.pack ∧ (setSup x s).rst = s.rst ∧
    (setSup x s).reads = s.reads ∧ (setSup x s).sched = s.sched := by
  exact ⟨rfl, rfl, rfl, rfl, rfl, rfl, rfl, rfl, rfl, rfl, rfl, rfl, rfl, rfl, rfl, rfl, rfl, rfl, rfl⟩

/-- `STATUS.CAUSE` set. -/
@[simp] theorem setCause_fields (c : BitVec 5) (s : State) :
    (setCause c s).regs = s.regs ∧
    (setCause c s).status = ⟨s.status.sup, s.status.mode, s.status.balReq, s.status.diag, s.status.cfgPend, c⟩ ∧
    (setCause c s).err = s.err ∧ (setCause c s).evt = s.evt ∧ (setCause c s).msCount = s.msCount ∧
    (setCause c s).pecRem = s.pecRem ∧ (setCause c s).txb = s.txb ∧ (setCause c s).dcc = s.dcc ∧
    (setCause c s).txq = s.txq ∧ (setCause c s).cnt = s.cnt ∧ (setCause c s).seq = s.seq ∧
    (setCause c s).cursor = s.cursor ∧ (setCause c s).hist = s.hist ∧ (setCause c s).cur = s.cur ∧
    (setCause c s).auxRaw = s.auxRaw ∧ (setCause c s).pack = s.pack ∧ (setCause c s).rst = s.rst ∧
    (setCause c s).reads = s.reads ∧ (setCause c s).sched = s.sched := by
  exact ⟨rfl, rfl, rfl, rfl, rfl, rfl, rfl, rfl, rfl, rfl, rfl, rfl, rfl, rfl, rfl, rfl, rfl, rfl, rfl⟩

/-- `STATUS.CFG_PEND` set (R240). -/
@[simp] theorem pendCfg_fields (s : State) :
    (pendCfg s).regs = s.regs ∧
    (pendCfg s).status = ⟨s.status.sup, s.status.mode, s.status.balReq, s.status.diag, true, s.status.cause⟩ ∧
    (pendCfg s).err = s.err ∧ (pendCfg s).evt = s.evt ∧ (pendCfg s).msCount = s.msCount ∧
    (pendCfg s).pecRem = s.pecRem ∧ (pendCfg s).txb = s.txb ∧ (pendCfg s).dcc = s.dcc ∧
    (pendCfg s).txq = s.txq ∧ (pendCfg s).cnt = s.cnt ∧ (pendCfg s).seq = s.seq ∧
    (pendCfg s).cursor = s.cursor ∧ (pendCfg s).hist = s.hist ∧ (pendCfg s).cur = s.cur ∧
    (pendCfg s).auxRaw = s.auxRaw ∧ (pendCfg s).pack = s.pack ∧ (pendCfg s).rst = s.rst ∧
    (pendCfg s).reads = s.reads ∧ (pendCfg s).sched = s.sched := by
  exact ⟨rfl, rfl, rfl, rfl, rfl, rfl, rfl, rfl, rfl, rfl, rfl, rfl, rfl, rfl, rfl, rfl, rfl, rfl, rfl⟩

/-- A cycle closed (R295). -/
@[simp] theorem closeCycle_fields (s : State) :
    (closeCycle s).regs = s.regs ∧ (closeCycle s).status = s.status ∧ (closeCycle s).err = s.err ∧
    (closeCycle s).evt = s.evt ||| (1#4 <<< EvtBit.cycle.code) ∧ (closeCycle s).msCount = s.msCount ∧
    (closeCycle s).pecRem = s.pecRem ∧ (closeCycle s).txb = s.txb ∧ (closeCycle s).dcc = s.dcc ∧
    (closeCycle s).txq = s.txq ∧ (closeCycle s).cnt = ⟨s.cnt.pecErr, s.cnt.fault, s.cnt.cycle + 1⟩ ∧
    (closeCycle s).seq = s.seq ∧ (closeCycle s).cursor = nextSlot s.cursor ∧
    (closeCycle s).hist = closedHist s ∧ (closeCycle s).cur = s.cur ∧ (closeCycle s).auxRaw = s.auxRaw ∧
    (closeCycle s).pack = packAggs (closedHist s) ∧ (closeCycle s).rst = s.rst ∧
    (closeCycle s).reads = s.reads ∧ (closeCycle s).sched = s.sched := by
  exact ⟨rfl, rfl, rfl, rfl, rfl, rfl, rfl, rfl, rfl, rfl, rfl, rfl, rfl, rfl, rfl, rfl, rfl, rfl, rfl⟩

/-- A PEC mismatch raised and counted (R230). -/
@[simp] theorem pecMismatch_fields (e : ErrBit) (s : State) :
    (pecMismatch e s).regs = s.regs ∧ (pecMismatch e s).status = s.status ∧
    (pecMismatch e s).err = s.err ||| (1#10 <<< e.code) ∧ (pecMismatch e s).evt = s.evt ∧
    (pecMismatch e s).msCount = s.msCount ∧ (pecMismatch e s).pecRem = s.pecRem ∧
    (pecMismatch e s).txb = s.txb ∧ (pecMismatch e s).dcc = s.dcc ∧ (pecMismatch e s).txq = s.txq ∧
    (pecMismatch e s).cnt = ⟨satIncr s.cnt.pecErr, s.cnt.fault, s.cnt.cycle⟩ ∧
    (pecMismatch e s).seq = s.seq ∧ (pecMismatch e s).cursor = s.cursor ∧ (pecMismatch e s).hist = s.hist ∧
    (pecMismatch e s).cur = s.cur ∧ (pecMismatch e s).auxRaw = s.auxRaw ∧ (pecMismatch e s).pack = s.pack ∧
    (pecMismatch e s).rst = s.rst ∧ (pecMismatch e s).reads = s.reads ∧ (pecMismatch e s).sched = s.sched := by
  exact ⟨rfl, rfl, rfl, rfl, rfl, rfl, rfl, rfl, rfl, rfl, rfl, rfl, rfl, rfl, rfl, rfl, rfl, rfl, rfl⟩

/-- A value returned by a host read (R404). -/
@[simp] theorem returnRead_fields (v : Word) (s : State) :
    (returnRead v s).regs = s.regs ∧ (returnRead v s).status = s.status ∧ (returnRead v s).err = s.err ∧
    (returnRead v s).evt = s.evt ∧ (returnRead v s).msCount = s.msCount ∧
    (returnRead v s).pecRem = s.pecRem ∧ (returnRead v s).txb = s.txb ∧ (returnRead v s).dcc = s.dcc ∧
    (returnRead v s).txq = s.txq ∧ (returnRead v s).cnt = s.cnt ∧ (returnRead v s).seq = s.seq ∧
    (returnRead v s).cursor = s.cursor ∧ (returnRead v s).hist = s.hist ∧ (returnRead v s).cur = s.cur ∧
    (returnRead v s).auxRaw = s.auxRaw ∧ (returnRead v s).pack = s.pack ∧ (returnRead v s).rst = s.rst ∧
    (returnRead v s).reads = s.reads ++ [v] ∧ (returnRead v s).sched = s.sched := by
  exact ⟨rfl, rfl, rfl, rfl, rfl, rfl, rfl, rfl, rfl, rfl, rfl, rfl, rfl, rfl, rfl, rfl, rfl, rfl, rfl⟩

/-- The balancing step of a tick (R368). -/
@[simp] theorem balanceStep_fields (s : State) :
    (balanceStep s).regs = s.regs ∧
    (balanceStep s).status = ⟨s.status.sup, s.status.mode, (if balanceBitmap s = 0 then false else s.status.balReq), s.status.diag, true, s.status.cause⟩ ∧
    (balanceStep s).err = s.err ∧ (balanceStep s).evt = s.evt ∧ (balanceStep s).msCount = s.msCount ∧
    (balanceStep s).pecRem = s.pecRem ∧ (balanceStep s).txb = s.txb ∧ (balanceStep s).dcc = balanceBitmap s ∧
    (balanceStep s).txq = s.txq ∧ (balanceStep s).cnt = s.cnt ∧ (balanceStep s).seq = s.seq ∧
    (balanceStep s).cursor = s.cursor ∧ (balanceStep s).hist = s.hist ∧ (balanceStep s).cur = s.cur ∧
    (balanceStep s).auxRaw = s.auxRaw ∧ (balanceStep s).pack = s.pack ∧ (balanceStep s).rst = s.rst ∧
    (balanceStep s).reads = s.reads ∧ (balanceStep s).sched = s.sched := by
  exact ⟨rfl, rfl, rfl, rfl, rfl, rfl, rfl, rfl, rfl, rfl, rfl, rfl, rfl, rfl, rfl, rfl, rfl, rfl, rfl⟩

/-- `rst` released (R461). -/
@[simp] theorem releaseReset_fields (s : State) :
    (releaseReset s).regs = s.regs ∧ (releaseReset s).status = s.status ∧ (releaseReset s).err = s.err ∧
    (releaseReset s).evt = s.evt ∧ (releaseReset s).msCount = s.msCount ∧
    (releaseReset s).pecRem = s.pecRem ∧ (releaseReset s).txb = s.txb ∧ (releaseReset s).dcc = s.dcc ∧
    (releaseReset s).txq = s.txq ∧ (releaseReset s).cnt = s.cnt ∧ (releaseReset s).seq = s.seq ∧
    (releaseReset s).cursor = s.cursor ∧ (releaseReset s).hist = s.hist ∧ (releaseReset s).cur = s.cur ∧
    (releaseReset s).auxRaw = s.auxRaw ∧ (releaseReset s).pack = s.pack ∧ (releaseReset s).rst = false ∧
    (releaseReset s).reads = s.reads ∧ (releaseReset s).sched = s.sched := by
  exact ⟨rfl, rfl, rfl, rfl, rfl, rfl, rfl, rfl, rfl, rfl, rfl, rfl, rfl, rfl, rfl, rfl, rfl, rfl, rfl⟩

/-- The in-limits branch of a tick (R362). -/
@[simp] theorem tickPass_fields (s : State) :
    (tickPass s).regs = s.regs ∧
    (tickPass s).status = ⟨.idleSafe, s.status.mode, s.status.balReq, s.status.diag, s.status.cfgPend, s.status.cause⟩ ∧
    (tickPass s).err = s.err ∧
    (tickPass s).evt = (if s.status.sup = .fault then s.evt ||| (1#4 <<< EvtBit.faultExit.code) else s.evt) ∧
    (tickPass s).msCount = s.msCount ∧ (tickPass s).pecRem = s.pecRem ∧ (tickPass s).txb = s.txb ∧
    (tickPass s).dcc = s.dcc ∧ (tickPass s).txq = s.txq ∧ (tickPass s).cnt = s.cnt ∧
    (tickPass s).seq = ⟨s.msCount, s.seq.lastFtx, s.seq.fcause⟩ ∧ (tickPass s).cursor = s.cursor ∧
    (tickPass s).hist = s.hist ∧ (tickPass s).cur = s.cur ∧ (tickPass s).auxRaw = s.auxRaw ∧
    (tickPass s).pack = s.pack ∧ (tickPass s).rst = s.rst ∧ (tickPass s).reads = s.reads ∧
    (tickPass s).sched = s.sched := by
  by_cases h : s.status.sup = .fault <;> simp [tickPass, h]

/-- A push: the frame queued, or dropped with TXQ_OVF (R320). -/
@[simp] theorem push_fields (id : Word) (b : List Byte) (s : State) :
    (push id b s).regs = s.regs ∧ (push id b s).status = s.status ∧
    (push id b s).err = (if Config.txqDepth ≤ s.txq.length then s.err ||| (1#10 <<< ErrBit.txqOvf.code) else s.err) ∧
    (push id b s).evt = s.evt ∧ (push id b s).msCount = s.msCount ∧ (push id b s).pecRem = s.pecRem ∧
    (push id b s).txb = s.txb ∧ (push id b s).dcc = s.dcc ∧
    (push id b s).txq = (if Config.txqDepth ≤ s.txq.length then s.txq else s.txq ++ [busFrame id b]) ∧
    (push id b s).cnt = s.cnt ∧ (push id b s).seq = s.seq ∧ (push id b s).cursor = s.cursor ∧
    (push id b s).hist = s.hist ∧ (push id b s).cur = s.cur ∧ (push id b s).auxRaw = s.auxRaw ∧
    (push id b s).pack = s.pack ∧ (push id b s).rst = s.rst ∧ (push id b s).reads = s.reads ∧
    (push id b s).sched = s.sched := by
  by_cases h : Config.txqDepth ≤ s.txq.length <;> simp [push, h]

/-- The voltage summary pushed (R330). -/
@[simp] theorem pushVsum_fields (s : State) :
    (pushVsum s).regs = s.regs ∧ (pushVsum s).status = s.status ∧
    (pushVsum s).err = (if Config.txqDepth ≤ s.txq.length then s.err ||| (1#10 <<< ErrBit.txqOvf.code) else s.err) ∧
    (pushVsum s).evt = s.evt ∧ (pushVsum s).msCount = s.msCount ∧ (pushVsum s).pecRem = s.pecRem ∧
    (pushVsum s).txb = s.txb ∧ (pushVsum s).dcc = s.dcc ∧
    (pushVsum s).txq = (if Config.txqDepth ≤ s.txq.length then s.txq else s.txq ++ [busFrame (s.regs.idVsum) (vsumData s)]) ∧
    (pushVsum s).cnt = s.cnt ∧ (pushVsum s).seq = s.seq ∧ (pushVsum s).cursor = s.cursor ∧
    (pushVsum s).hist = s.hist ∧ (pushVsum s).cur = s.cur ∧ (pushVsum s).auxRaw = s.auxRaw ∧
    (pushVsum s).pack = s.pack ∧ (pushVsum s).rst = s.rst ∧ (pushVsum s).reads = s.reads ∧
    (pushVsum s).sched = s.sched := by
  exact push_fields _ _ s

/-- The temperature and current summary pushed (R331). -/
@[simp] theorem pushTsum_fields (s : State) :
    (pushTsum s).regs = s.regs ∧ (pushTsum s).status = s.status ∧
    (pushTsum s).err = (if Config.txqDepth ≤ s.txq.length then s.err ||| (1#10 <<< ErrBit.txqOvf.code) else s.err) ∧
    (pushTsum s).evt = s.evt ∧ (pushTsum s).msCount = s.msCount ∧ (pushTsum s).pecRem = s.pecRem ∧
    (pushTsum s).txb = s.txb ∧ (pushTsum s).dcc = s.dcc ∧
    (pushTsum s).txq = (if Config.txqDepth ≤ s.txq.length then s.txq else s.txq ++ [busFrame (s.regs.idTsum) (tsumData s)]) ∧
    (pushTsum s).cnt = s.cnt ∧ (pushTsum s).seq = s.seq ∧ (pushTsum s).cursor = s.cursor ∧
    (pushTsum s).hist = s.hist ∧ (pushTsum s).cur = s.cur ∧ (pushTsum s).auxRaw = s.auxRaw ∧
    (pushTsum s).pack = s.pack ∧ (pushTsum s).rst = s.rst ∧ (pushTsum s).reads = s.reads ∧
    (pushTsum s).sched = s.sched := by
  exact push_fields _ _ s

/-- A per-cell diagnostic frame pushed (R332). -/
@[simp] theorem pushCell_fields (k : Fin 4) (s : State) :
    (pushCell k s).regs = s.regs ∧ (pushCell k s).status = s.status ∧
    (pushCell k s).err = (if Config.txqDepth ≤ s.txq.length then s.err ||| (1#10 <<< ErrBit.txqOvf.code) else s.err) ∧
    (pushCell k s).evt = s.evt ∧ (pushCell k s).msCount = s.msCount ∧ (pushCell k s).pecRem = s.pecRem ∧
    (pushCell k s).txb = s.txb ∧ (pushCell k s).dcc = s.dcc ∧
    (pushCell k s).txq = (if Config.txqDepth ≤ s.txq.length then s.txq else s.txq ++ [busFrame (s.regs.idCell + BitVec.ofNat 32 k.val) (cellData s k)]) ∧
    (pushCell k s).cnt = s.cnt ∧ (pushCell k s).seq = s.seq ∧ (pushCell k s).cursor = s.cursor ∧
    (pushCell k s).hist = s.hist ∧ (pushCell k s).cur = s.cur ∧ (pushCell k s).auxRaw = s.auxRaw ∧
    (pushCell k s).pack = s.pack ∧ (pushCell k s).rst = s.rst ∧ (pushCell k s).reads = s.reads ∧
    (pushCell k s).sched = s.sched := by
  exact push_fields _ _ s

/-- A fault frame pushed (R324). -/
@[simp] theorem pushFault_fields (c : BitVec 5) (s : State) :
    (pushFault c s).regs = s.regs ∧ (pushFault c s).status = s.status ∧
    (pushFault c s).err = (if Config.txqDepth ≤ s.txq.length then s.err ||| (1#10 <<< ErrBit.txqOvf.code) else s.err) ∧
    (pushFault c s).evt = s.evt ∧ (pushFault c s).msCount = s.msCount ∧ (pushFault c s).pecRem = s.pecRem ∧
    (pushFault c s).txb = s.txb ∧ (pushFault c s).dcc = s.dcc ∧
    (pushFault c s).txq = (if Config.txqDepth ≤ s.txq.length then s.txq else s.txq ++ [busFrame (s.regs.idFault) (faultData c)]) ∧
    (pushFault c s).cnt = s.cnt ∧ (pushFault c s).seq = s.seq ∧ (pushFault c s).cursor = s.cursor ∧
    (pushFault c s).hist = s.hist ∧ (pushFault c s).cur = s.cur ∧ (pushFault c s).auxRaw = s.auxRaw ∧
    (pushFault c s).pack = s.pack ∧ (pushFault c s).rst = s.rst ∧ (pushFault c s).reads = s.reads ∧
    (pushFault c s).sched = s.sched := by
  exact push_fields _ _ s

/-- An entry into FAULT (R364). -/
@[simp] theorem enterFault_fields (c : BitVec 5) (s : State) :
    (enterFault c s).regs = s.regs ∧
    (enterFault c s).status = ⟨.fault, s.status.mode, s.status.balReq, s.status.diag, s.status.cfgPend, s.status.cause⟩ ∧
    (enterFault c s).err = (if Config.txqDepth ≤ s.txq.length then s.err ||| (1#10 <<< ErrBit.txqOvf.code) else s.err) ∧
    (enterFault c s).evt = s.evt ||| (1#4 <<< EvtBit.faultEnter.code) ∧
    (enterFault c s).msCount = s.msCount ∧ (enterFault c s).pecRem = s.pecRem ∧
    (enterFault c s).txb = s.txb ∧ (enterFault c s).dcc = s.dcc ∧
    (enterFault c s).txq = (if Config.txqDepth ≤ s.txq.length then s.txq else s.txq ++ [busFrame (s.regs.idFault) (faultData c)]) ∧
    (enterFault c s).cnt = ⟨s.cnt.pecErr, satIncr s.cnt.fault, s.cnt.cycle⟩ ∧
    (enterFault c s).seq = ⟨s.seq.lastGood, s.msCount, c⟩ ∧ (enterFault c s).cursor = s.cursor ∧
    (enterFault c s).hist = s.hist ∧ (enterFault c s).cur = s.cur ∧ (enterFault c s).auxRaw = s.auxRaw ∧
    (enterFault c s).pack = s.pack ∧ (enterFault c s).rst = s.rst ∧ (enterFault c s).reads = s.reads ∧
    (enterFault c s).sched = s.sched := by
  simp [enterFault]

/-- A change of the operating mode (R256). -/
@[simp] theorem setMode_fields (m : OpMode) (s : State) :
    (setMode m s).regs = s.regs ∧
    (setMode m s).status = (if m = s.status.mode then s.status else ⟨s.status.sup, m, s.status.balReq, s.status.diag, true, s.status.cause⟩) ∧
    (setMode m s).err = s.err ∧ (setMode m s).evt = s.evt ∧ (setMode m s).msCount = s.msCount ∧
    (setMode m s).pecRem = s.pecRem ∧ (setMode m s).txb = s.txb ∧
    (setMode m s).dcc = (if m = s.status.mode then s.dcc else if m = .normal then 0 else s.dcc) ∧
    (setMode m s).txq = s.txq ∧ (setMode m s).cnt = s.cnt ∧ (setMode m s).seq = s.seq ∧
    (setMode m s).cursor = s.cursor ∧ (setMode m s).hist = s.hist ∧ (setMode m s).cur = s.cur ∧
    (setMode m s).auxRaw = s.auxRaw ∧ (setMode m s).pack = s.pack ∧ (setMode m s).rst = s.rst ∧
    (setMode m s).reads = s.reads ∧ (setMode m s).sched = s.sched := by
  by_cases h : m = s.status.mode <;> simp [setMode, h]

end Sys2Proof.Machine
end

