-- ==== Sys2Proof/Laws/Ops.lean ====
section
/-! SUPPORT. What each shared operation does, said once: operands, the working frame, the history, the bitmap, the
transmit queue, the response frame, averages and extremes. -/

namespace Sys2Proof.Machine

/-! Operands -/

theorem operandA_of_lt {a : Byte} {n : Nat} (h : a.toNat < n) : operandA a n = some ⟨a.toNat, h⟩ := by
  simp [operandA, h]

theorem operandA_of_not_lt {a : Byte} {n : Nat} (h : ¬ a.toNat < n) : operandA a n = none := by
  simp [operandA, h]

/-- An operand is in range and gives its own number, or it is out of range (R140, R145). -/
theorem operandA_cases (a : Byte) (n : Nat) :
    (∃ k : Fin n, operandA a n = some k ∧ k.val = a.toNat) ∨ (operandA a n = none ∧ n ≤ a.toNat) := by
  by_cases h : a.toNat < n
  · exact .inl ⟨⟨a.toNat, h⟩, operandA_of_lt h, rfl⟩
  · exact .inr ⟨operandA_of_not_lt h, by omega⟩

/-! The working frame -/

@[simp] theorem CellFrame.refresh_fields (f : CellFrame) :
    f.refresh.cell = f.cell ∧ f.refresh.temp = f.temp ∧ f.refresh.agg = aggsOf f.cell f.temp := ⟨rfl, rfl, rfl⟩

/-- A recomputed frame satisfies the invariant of R290. -/
@[simp] theorem CellFrame.refresh_aggsHold (f : CellFrame) : f.refresh.aggsHold := rfl

/-! The history -/

theorem closedHist_get (s : State) (k : Fin Config.rollN) :
    (closedHist s)[k] = if k = s.cursor then s.cur else s.hist[k] := by
  simp only [closedHist, Fin.getElem_fin, Vector.getElem_set, Fin.ext_iff, eq_comm]

@[simp] theorem newestSlot_nextSlot (c : Fin Config.rollN) : newestSlot (nextSlot c) = c := by
  revert c
  decide

/-- After a close the newest closed frame is the working frame (R63, R295). -/
@[simp] theorem newest_closeCycle (s : State) : newest (closeCycle s) = s.cur := by
  simp [newest, closedHist]

/-! The balancing bitmap -/

/-- Bit `i` of the bitmap (R251). -/
theorem balanceBitmap_bit (s : State) (i : Fin 12) :
    (balanceBitmap s).getLsbD i.val = needsDischarge (newest s) s.regs.balEps i := by
  simp [balanceBitmap]

/-- The bitmap reads the history, the cursor and `BAL_EPS` alone (R252). -/
theorem balanceBitmap_congr {s t : State} (hh : t.hist = s.hist) (hc : t.cursor = s.cursor)
    (he : t.regs.balEps = s.regs.balEps) : balanceBitmap t = balanceBitmap s := by
  simp [balanceBitmap, newest, hh, hc, he]

/-! The transmit queue -/

/-- A push keeps the frames before it (R320). -/
theorem push_prefix (id : Word) (b : List Byte) (s : State) : s.txq <+: (push id b s).txq := by
  by_cases h : Config.txqDepth ≤ s.txq.length <;> simp [h]

/-- A push keeps the queue within its depth (R320). -/
theorem push_length (id : Word) (b : List Byte) (s : State) (h : s.txq.length ≤ Config.txqDepth) :
    (push id b s).txq.length ≤ Config.txqDepth := by
  by_cases h' : Config.txqDepth ≤ s.txq.length
  · simpa [h'] using h
  · simp [h']
    omega

/-- A zero-extended field reads as its unsigned value (R11, R61). -/
@[simp] theorem zext32_toNat (v : Half) : (zext32 v).toNat = v.toNat := by
  have := v.isLt
  simp only [zext32, BitVec.toNat_setWidth]
  omega

/-- A sign-extended field reads as its signed value (R11, R61). -/
@[simp] theorem sext32_toInt (v : Half) : (sext32 v).toInt = v.toInt := by
  simp [sext32, BitVec.toInt_signExtend_of_le]

/-- The words an aggregate record reads as show it (R60, R61, R64). -/
theorem aggWord_shows (a : Aggregates) : a.shownBy (aggWord a) :=
  ⟨zext32_toNat _, zext32_toNat _, zext32_toNat _, rfl, sext32_toInt _, sext32_toInt _, sext32_toInt _⟩

/-- The padding of `bytes ++ zeros to 8 bytes` (R320). -/
@[simp] theorem padData_get (bytes : List Byte) (k : Nat) (h : k < 8) :
    (padData bytes)[k] = bytes.getD k 0 := by
  simp [padData]

/-- The eight data bytes of a frame made for the queue (R320). -/
theorem busFrame_data (id : Word) (b : List Byte) :
    (busFrame id b).data.toList =
      [b.getD 0 0, b.getD 1 0, b.getD 2 0, b.getD 3 0, b.getD 4 0, b.getD 5 0, b.getD 6 0, b.getD 7 0] := by
  apply List.ext_getElem
  · simp
  · intro k h _
    have hk : k < 8 := by simpa using h
    have e : (busFrame id b).data[k] = b.getD k 0 := padData_get b k hk
    rw [Vector.getElem_toList, e]
    interval_cases k <;> rfl

/-- The frame a fault push makes, byte by byte (R324). -/
theorem busFrame_faultData (id : Word) (c : BitVec 5) : busFrame id (faultData c) = faultFrame id c := rfl

/-- A frame made for the queue is padded with zeros (R65). -/
theorem busFrame_padded (id : Word) (b : List Byte) : (busFrame id b).padded := by
  intro k hk
  have hb : b.length ≤ k.val := by
    have := k.isLt
    simp only [busFrame] at hk
    omega
  simp [busFrame, List.getElem?_eq_none hb]

/-- A push keeps every entry padded (R65). -/
theorem push_padded (id : Word) (b : List Byte) (s : State) (h : ∀ f ∈ s.txq, f.padded) :
    ∀ f ∈ (push id b s).txq, f.padded := by
  by_cases h' : Config.txqDepth ≤ s.txq.length
  · simpa [h'] using h
  · intro f hf
    simp only [push_fields, h', if_false, List.mem_append, List.mem_singleton] at hf
    rcases hf with hf | rfl
    · exact h f hf
    · exact busFrame_padded id b

/-! The response frame -/

theorem byteOf_toNat (w : Word) (k : Nat) : (byteOf w k).toNat = w.toNat / 2 ^ (8 * k) % 256 := by
  simp [byteOf, BitVec.extractLsb'_toNat, Nat.shiftRight_eq_div_pow]

/-- Two bytes side by side, as a number. -/
theorem append_toNat (hi lo : Byte) : (hi ++ lo : Half).toNat = 256 * hi.toNat + lo.toNat := by
  rw [BitVec.toNat_append, ← Nat.shiftLeft_add_eq_or_of_lt lo.isLt, Nat.shiftLeft_eq]
  omega

/-- The data bytes of the response frame, byte by byte (R42). -/
theorem rxData_eq (s : State) :
    rxData s = [rxbByte s 0, rxbByte s 1, rxbByte s 2, rxbByte s 3, rxbByte s 4, rxbByte s 5] := rfl

/-- Word `j` of the response frame, as a number (R152). -/
theorem rxWord_toNat (s : State) (j : Nat) (hj : j < 3) : (rxWord s j).toNat = rxbCode s j := by
  have h : rxWord s j = rxbByte s (2 * j + 1) ++ rxbByte s (2 * j) := by
    interval_cases j <;> rfl
  rw [h, append_toNat, rxbCode]
  omega

/-- The check of the received PEC, as claims state it (R230). -/
theorem pecOk_eq (s : State) : pecOk s = rxbPecMatches s := by
  have h : (rxPec s).toNat = 256 * (rxbByte s 6).toNat + (rxbByte s 7).toNat := append_toNat _ _
  rw [pecOk, rxbPecMatches, ← rxData_eq, ← h, Bool.eq_iff_iff]
  simp [BitVec.toNat_inj]

/-- What a read gives depends on the block's own state, not on the reset input and the model's host side. -/
@[simp] theorem readReg_congr (r : Reg) (s : State) (b : Bool) (vs : List Word) (es : List Event) :
    readReg r { s with rst := b, reads := vs, sched := es } = readReg r s := by
  cases r <;> rfl

/-! Saturation, averages, extremes -/

/-- A saturating count, as a number (R57). -/
theorem satIncr_toNat (n : Half) : (satIncr n).toNat = min (n.toNat + 1) 0xFFFF := by
  simp only [satIncr, sat16, BitVec.toNat_ofNat]
  omega

/-- `RoundDiv` is a floor (R291). -/
theorem roundDiv_bounds (S : Int) (n : Nat) (hn : 1 ≤ n) :
    2 * n * roundDiv S n ≤ 2 * S + n ∧ 2 * S + n < 2 * n * (roundDiv S n + 1) := by
  have hp : (0 : Int) < 2 * n := by omega
  have h1 := Int.mul_ediv_add_emod (2 * S + n) (2 * n)
  have h2 := Int.emod_nonneg (2 * S + n) hp.ne'
  have h3 := Int.emod_lt_of_pos (2 * S + n) hp
  simp only [roundDiv]
  constructor
  · linarith
  · linarith

/-- An average of `n` values between `lo` and `hi` lies between `lo` and `hi` (R292, R296). -/
theorem roundDiv_mem (S lo hi : Int) (n : Nat) (hn : 1 ≤ n) (h1 : n * lo ≤ S) (h2 : S ≤ n * hi) :
    lo ≤ roundDiv S n ∧ roundDiv S n ≤ hi := by
  have hp : (0 : Int) < 2 * n := by omega
  have hn' : (1 : Int) ≤ n := by omega
  simp only [roundDiv]
  constructor
  · rw [Int.le_ediv_iff_mul_le hp]
    linarith
  · rw [← Int.lt_add_one_iff, Int.ediv_lt_iff_lt_mul hp]
    linarith

/-- The rounded average of `n` equal values is the value (R298). -/
theorem roundDiv_mul_self (a : Int) (n : Nat) (hn : 1 ≤ n) : roundDiv (n * a) n = a := by
  have h := roundDiv_mem (n * a) a a n hn le_rfl le_rfl
  omega

theorem foldl_min_le (xs : List Int) (x : Int) : xs.foldl min x ≤ x ∧ ∀ y ∈ xs, xs.foldl min x ≤ y := by
  induction xs generalizing x with
  | nil => simp
  | cons z zs ih =>
    have h := ih (min x z)
    refine ⟨h.1.trans (min_le_left _ _), ?_⟩
    intro y hy
    rcases List.mem_cons.1 hy with rfl | hy
    · exact h.1.trans (min_le_right _ _)
    · exact h.2 y hy

theorem foldl_min_mem (xs : List Int) (x : Int) : xs.foldl min x = x ∨ xs.foldl min x ∈ xs := by
  induction xs generalizing x with
  | nil => simp
  | cons z zs ih =>
    rcases ih (min x z) with h | h
    · rcases min_choice x z with e | e
      · exact .inl (h.trans e)
      · exact .inr (List.mem_cons.2 (.inl (h.trans e)))
    · exact .inr (List.mem_cons.2 (.inr h))

/-- `minOf` of a non-empty list is its least element. -/
theorem minOf_spec (xs : List Int) (hx : xs ≠ []) : minOf xs ∈ xs ∧ ∀ y ∈ xs, minOf xs ≤ y := by
  cases xs with
  | nil => exact absurd rfl hx
  | cons x xs =>
    refine ⟨?_, ?_⟩
    · rcases foldl_min_mem xs x with h | h
      · exact List.mem_cons.2 (.inl h)
      · exact List.mem_cons.2 (.inr h)
    · intro y hy
      rcases List.mem_cons.1 hy with rfl | hy
      · exact (foldl_min_le xs y).1
      · exact (foldl_min_le xs x).2 y hy

theorem foldl_max_le (xs : List Int) (x : Int) : x ≤ xs.foldl max x ∧ ∀ y ∈ xs, y ≤ xs.foldl max x := by
  induction xs generalizing x with
  | nil => simp
  | cons z zs ih =>
    have h := ih (max x z)
    refine ⟨(le_max_left _ _).trans h.1, ?_⟩
    intro y hy
    rcases List.mem_cons.1 hy with rfl | hy
    · exact (le_max_right _ _).trans h.1
    · exact h.2 y hy

theorem foldl_max_mem (xs : List Int) (x : Int) : xs.foldl max x = x ∨ xs.foldl max x ∈ xs := by
  induction xs generalizing x with
  | nil => simp
  | cons z zs ih =>
    rcases ih (max x z) with h | h
    · rcases max_choice x z with e | e
      · exact .inl (h.trans e)
      · exact .inr (List.mem_cons.2 (.inl (h.trans e)))
    · exact .inr (List.mem_cons.2 (.inr h))

/-- `maxOf` of a non-empty list is its greatest element. -/
theorem maxOf_spec (xs : List Int) (hx : xs ≠ []) : maxOf xs ∈ xs ∧ ∀ y ∈ xs, y ≤ maxOf xs := by
  cases xs with
  | nil => exact absurd rfl hx
  | cons x xs =>
    refine ⟨?_, ?_⟩
    · rcases foldl_max_mem xs x with h | h
      · exact List.mem_cons.2 (.inl h)
      · exact List.mem_cons.2 (.inr h)
    · intro y hy
      rcases List.mem_cons.1 hy with rfl | hy
      · exact (foldl_max_le xs y).1
      · exact (foldl_max_le xs x).2 y hy

/-- `sumOf` is the sum. -/
theorem sumOf_eq (xs : List Int) : sumOf xs = xs.sum := by
  have h : ∀ (ys : List Int) (a : Int), ys.foldl (fun a x => a + x) a = a + ys.sum := by
    intro ys
    induction ys with
    | nil => simp
    | cons y ys ih => intro a; simp [ih, add_assoc]
  simpa [sumOf] using h xs 0

end Sys2Proof.Machine
end

