-- ==== Sys2Proof/Laws/Exec.lean ====
section
/-! SUPPORT. What each instruction answers, said once: one equation per instruction and operand case, what a write to
each kind of register does, and that every instruction answers a next state. -/

namespace Sys2Proof.Machine

/-! The instructions without a range check -/

@[simp] theorem exec_nop (s : State) : exec .nop s = .next s := rfl

@[simp] theorem exec_pecInit (s : State) : exec .pecInit s = .next { s with pecRem := pecSeed } := rfl

@[simp] theorem exec_pecByte (b : Byte) (s : State) :
    exec (.pecByte b) s = .next { s with pecRem := pecFold s.pecRem b } := rfl

@[simp] theorem exec_buildCmd (c : Half) (s : State) :
    exec (.buildCmd c) s = .next { s with txb := txBuffer (commandFrame c) 4 } := rfl

@[simp] theorem exec_buildWrcfg (c : Half) (s : State) :
    exec (.buildWrcfg c) s = .next { s with
      txb := txBuffer (wrcfgFrame c (cfgBytes s)) 12
      status := { s.status with cfgPend := false } } := rfl

@[simp] theorem exec_parseCfg (s : State) :
    exec .parseCfg s = .next (if rxData s = cfgBytes s then parseCheck .pecCfg s
      else raiseErr .cfgMismatch (parseCheck .pecCfg s)) := rfl

theorem exec_balance_normal (s : State) (h : s.status.mode = .normal) :
    exec .balance s = .next (raiseErr .mode s) := by
  simp [exec, execBalance, h]

theorem exec_balance_balancing (s : State) (h : s.status.mode = .balancing) :
    exec .balance s = .next (pendCfg { s with dcc := balanceBitmap s }) := by
  simp [exec, execBalance, h]

@[simp] theorem exec_close (s : State) : exec .close s = .next (closeCycle s) := rfl

@[simp] theorem exec_txVsum (s : State) : exec .txVsum s = .next (pushVsum s) := rfl

@[simp] theorem exec_txTsum (s : State) : exec .txTsum s = .next (pushTsum s) := rfl

@[simp] theorem exec_txTelem (s : State) :
    exec .txTelem s = .next (if s.status.diag then pushCells (pushTsum (pushVsum s))
      else pushTsum (pushVsum s)) := rfl

theorem exec_txqPop_nil (s : State) (h : s.txq = []) : exec .txqPop s = .next (raiseErr .txqUnf s) := by
  simp [exec, execTxqPop, h]

theorem exec_txqPop_cons (s : State) (f : BusFrame) (rest : List BusFrame) (h : s.txq = f :: rest) :
    exec .txqPop s = .next { s with txq := rest } := by
  simp [exec, execTxqPop, h]

@[simp] theorem exec_rxFrame (s : State) :
    exec .rxFrame s = .next (if rxHits s s.regs.idBal || rxHits s s.regs.idDiag then
      raiseEvt .rxMatch { s with status := rxFlags s } else s) := rfl

@[simp] theorem exec_tick (s : State) :
    exec .tick s = .next (tickControl (tickSequence (tickCause s) (setCause (tickCause s) (closeCycle s)))) := rfl

/-! The instructions with a range check (R145) -/

theorem exec_parseCv (g : Byte) (s : State) (h : g.toNat < 4) :
    exec (.parseCv g) s = .next (if parseApply s then applyCv ⟨g.toNat, h⟩ (parseCheck .pecCv s)
      else parseCheck .pecCv s) := by
  simp [exec, execParseCv, operandA_of_lt h]

theorem exec_parseAux (g : Byte) (s : State) (h : g.toNat < 2) :
    exec (.parseAux g) s = .next (if parseApply s then applyAux ⟨g.toNat, h⟩ (parseCheck .pecAux s)
      else parseCheck .pecAux s) := by
  simp [exec, execParseAux, operandA_of_lt h]

theorem exec_setMode (m : Byte) (s : State) (h : m.toNat < 2) :
    exec (.setMode m) s = .next (setMode (modeOf (m.toNat == 1)) s) := by
  have e : ((⟨m.toNat, h⟩ : Fin 2) == 1) = (m.toNat == 1) := by
    rw [Bool.eq_iff_iff]
    simp [Fin.ext_iff]
  simp [exec, execSetMode, operandA_of_lt h, e]

theorem exec_linTemp (j : Byte) (code : Half) (s : State) (h : j.toNat < Config.ntemp) :
    exec (.linTemp j code) s = .next (refreshCur (storeCode ⟨j.toNat, h⟩ code s)) := by
  simp [exec, execLinTemp, operandA_of_lt h]

theorem exec_updCell (i : Byte) (v : Half) (s : State) (h : i.toNat < Config.ncell) :
    exec (.updCell i v) s = .next (refreshCur (putCell ⟨i.toNat, h⟩ v s)) := by
  simp [exec, execUpdCell, operandA_of_lt h]

theorem exec_updTemp (j : Byte) (t : Half) (s : State) (h : j.toNat < Config.ntemp) :
    exec (.updTemp j t) s = .next (refreshCur (putTemp ⟨j.toNat, h⟩ t s)) := by
  simp [exec, execUpdTemp, operandA_of_lt h]

theorem exec_txCell (k : Byte) (s : State) (h : k.toNat < 4) :
    exec (.txCell k) s = .next (pushCell ⟨k.toNat, h⟩ s) := by
  simp [exec, execTxCell, operandA_of_lt h]

/-! The instructions with a range check, out of range: BAD_ARG and nothing else (R145) -/

theorem exec_parseCv_bad (b : Byte) (s : State) (h : ¬ b.toNat < 4) :
    exec (.parseCv b) s = .next (raiseErr .badArg s) := by
  simp only [exec, execParseCv, operandA_of_not_lt h]

theorem exec_parseAux_bad (b : Byte) (s : State) (h : ¬ b.toNat < 2) :
    exec (.parseAux b) s = .next (raiseErr .badArg s) := by
  simp only [exec, execParseAux, operandA_of_not_lt h]

theorem exec_setMode_bad (b : Byte) (s : State) (h : ¬ b.toNat < 2) :
    exec (.setMode b) s = .next (raiseErr .badArg s) := by
  simp only [exec, execSetMode, operandA_of_not_lt h]

theorem exec_linTemp_bad (b : Byte) (c : Half) (s : State) (h : ¬ b.toNat < Config.ntemp) :
    exec (.linTemp b c) s = .next (raiseErr .badArg s) := by
  simp only [exec, execLinTemp, operandA_of_not_lt h]

theorem exec_updCell_bad (b : Byte) (v : Half) (s : State) (h : ¬ b.toNat < Config.ncell) :
    exec (.updCell b v) s = .next (raiseErr .badArg s) := by
  simp only [exec, execUpdCell, operandA_of_not_lt h]

theorem exec_updTemp_bad (b : Byte) (v : Half) (s : State) (h : ¬ b.toNat < Config.ntemp) :
    exec (.updTemp b v) s = .next (raiseErr .badArg s) := by
  simp only [exec, execUpdTemp, operandA_of_not_lt h]

theorem exec_txCell_bad (b : Byte) (s : State) (h : ¬ b.toNat < 4) :
    exec (.txCell b) s = .next (raiseErr .badArg s) := by
  simp only [exec, execTxCell, operandA_of_not_lt h]

/-! The port transactions -/

theorem exec_rd_mapped {off : Offset} {size : AccessSize} {r : Reg} (h : busReg off size = some r) (s : State) :
    exec (.rd off size) s = .next (returnRead (readReg r s) s) := by
  simp [exec, execRd, h]

theorem exec_rd_unmapped {off : Offset} {size : AccessSize} (h : busReg off size = none) (s : State) :
    exec (.rd off size) s = .next (returnRead 0 (raiseErr .badAddr s)) := by
  simp [exec, execRd, h]

/-- What a host write does, by the kind of the register it addresses (R105). -/
theorem exec_wr_cases (off : Offset) (size : AccessSize) (v : Word) (s : State) :
    (busReg off size = none ∧ exec (.wr off size v) s = .next (raiseErr .badAddr s)) ∨
    ∃ r, busReg off size = some r ∧
      ((r.access = .ro ∧ exec (.wr off size v) s = .next (raiseErr .badAddr s)) ∨
       (r.access = .rw ∧ exec (.wr off size v) s = .next (storeRw r v s)) ∨
       (r.access = .w1c ∧ exec (.wr off size v) s = .next (clearSticky r v s)) ∨
       (r.access = .wc ∧ exec (.wr off size v) s = .next (clearCounter r s)) ∨
       (r.access = .wo ∧ exec (.wr off size v) s = writeCmd v s)) := by
  cases h : busReg off size with
  | none => exact .inl ⟨rfl, by simp [exec, execWr, h]⟩
  | some r =>
    refine .inr ⟨r, rfl, ?_⟩
    cases ha : r.access <;> simp [exec, execWr, h, ha]

/-- Running a decoded command is the command (R140). -/
theorem runCommand_eq_exec {i : Instr} (h : i.isCommand = true) (s : State) : runCommand i s = exec i s := by
  cases i <;> first | rfl | cases h

/-- `CMD` is at its offset (R32, R36). -/
@[simp] theorem busReg_cmd : busReg 0x018 .word = some .cmd := by decide

/-- A host write to `CMD` (R36). -/
theorem exec_wr_cmd (w : Word) (s : State) : exec (.wr 0x018 .word w) s = writeCmd w s := by
  have h : exec (.wr 0x018 .word w) s = execWr 0x018 .word w s := rfl
  rw [h, execWr, busReg_cmd]
  rfl

/-- A write of a word to `CMD`: the command it decodes to, or ILLEGAL_CMD (R140, R144). -/
theorem writeCmd_cases (v : Word) (s : State) :
    (∃ i, decode v = .ok i ∧ i.isCommand = true ∧ writeCmd v s = exec i s) ∨
    (∃ e, decode v = .error e ∧ writeCmd v s = .next (raiseErr .illegalCmd s)) := by
  cases h : decode v with
  | ok i =>
    exact .inl ⟨i, rfl, decode_isCommand h, by simp [writeCmd, h, runCommand_eq_exec (decode_isCommand h)]⟩
  | error e => exact .inr ⟨e, rfl, by cases e; simp [writeCmd, h]⟩

/-- Every command answers a next state. -/
theorem exec_command_total {i : Instr} (h : i.isCommand = true) (s : State) : ∃ t, exec i s = .next t := by
  cases i with
  | rd => cases h
  | wr => cases h
  | parseCv g => rcases operandA_cases g 4 with ⟨k, e, -⟩ | ⟨e, -⟩ <;> simp [exec, execParseCv, e]
  | parseAux g => rcases operandA_cases g 2 with ⟨k, e, -⟩ | ⟨e, -⟩ <;> simp [exec, execParseAux, e]
  | setMode m => rcases operandA_cases m 2 with ⟨k, e, -⟩ | ⟨e, -⟩ <;> simp [exec, execSetMode, e]
  | linTemp j c =>
    rcases operandA_cases j Config.ntemp with ⟨k, e, -⟩ | ⟨e, -⟩ <;> simp [exec, execLinTemp, e]
  | updCell i v =>
    rcases operandA_cases i Config.ncell with ⟨k, e, -⟩ | ⟨e, -⟩ <;> simp [exec, execUpdCell, e]
  | updTemp j v =>
    rcases operandA_cases j Config.ntemp with ⟨k, e, -⟩ | ⟨e, -⟩ <;> simp [exec, execUpdTemp, e]
  | txCell k => rcases operandA_cases k 4 with ⟨k, e, -⟩ | ⟨e, -⟩ <;> simp [exec, execTxCell, e]
  | balance =>
    cases hm : s.status.mode
    · exact ⟨_, exec_balance_normal s hm⟩
    · exact ⟨_, exec_balance_balancing s hm⟩
  | txqPop =>
    cases hq : s.txq with
    | nil => exact ⟨_, exec_txqPop_nil s hq⟩
    | cons f rest => exact ⟨_, exec_txqPop_cons s f rest hq⟩
  | _ => exact ⟨_, rfl⟩

end Sys2Proof.Machine
end

