-- ==== Sys2Proof/Laws/Step.lean ====
section
/-! SUPPORT. What one step can do, said once: one equation per event, the inversion of a step, and what holds of the
states around it. -/

namespace Sys2Proof.Machine

@[simp] theorem step_idle (s : State) (h : s.sched = []) : step s = .next s := by
  simp [step, runNext, h]

theorem step_hostRead {s : State} {off : Offset} {size : AccessSize} {rest : List Event}
    (h : s.sched = .hostRead off size :: rest) :
    step s = if s.rst then .refused .accessDuringReset else exec (.rd off size) { s with sched := rest } := by
  simp [step, runNext, deliver, h]

theorem step_hostWrite {s : State} {off : Offset} {size : AccessSize} {v : Word} {rest : List Event}
    (h : s.sched = .hostWrite off size v :: rest) :
    step s = if s.rst then .refused .accessDuringReset else exec (.wr off size v) { s with sched := rest } := by
  simp [step, runNext, deliver, h]

theorem step_strobe {s : State} {rest : List Event} (h : s.sched = .strobe :: rest) :
    step s = .next (if s.rst then { s with sched := rest } else timeStrobe { s with sched := rest }) := by
  simp [step, runNext, deliver, h]

theorem step_rstAssert {s : State} {rest : List Event} (h : s.sched = .rstAssert :: rest) :
    step s = .next (assertReset { s with sched := rest }) := by
  simp [step, runNext, deliver, h]

theorem step_rstRelease {s : State} {rest : List Event} (h : s.sched = .rstRelease :: rest) :
    step s = .next (releaseReset { s with sched := rest }) := by
  simp [step, runNext, deliver, h]

/-- Everything a step can do: idle, a host access outside reset, a strobe in or outside reset, an edge of `rst`. -/
theorem step_cases {s t : State} (h : step s = .next t) :
    (s.sched = [] ∧ t = s) ∨
    (∃ rest, s.sched = .rstAssert :: rest ∧ t = assertReset { s with sched := rest }) ∨
    (∃ rest, s.sched = .rstRelease :: rest ∧ t = releaseReset { s with sched := rest }) ∨
    (∃ rest, s.sched = .strobe :: rest ∧ s.rst = true ∧ t = { s with sched := rest }) ∨
    (∃ rest, s.sched = .strobe :: rest ∧ s.rst = false ∧ t = timeStrobe { s with sched := rest }) ∨
    (∃ off size rest, s.sched = .hostRead off size :: rest ∧ s.rst = false ∧
      exec (.rd off size) { s with sched := rest } = .next t) ∨
    (∃ off size v rest, s.sched = .hostWrite off size v :: rest ∧ s.rst = false ∧
      exec (.wr off size v) { s with sched := rest } = .next t) := by
  cases hs : s.sched with
  | nil => exact .inl ⟨rfl, by simpa [step_idle s hs] using h.symm⟩
  | cons e rest =>
    cases e with
    | hostRead off size =>
      rw [step_hostRead hs] at h
      cases hr : s.rst
      · simp only [hr] at h
        exact .inr (.inr (.inr (.inr (.inr (.inl ⟨off, size, rest, rfl, rfl, h⟩)))))
      · simp [hr] at h
    | hostWrite off size v =>
      rw [step_hostWrite hs] at h
      cases hr : s.rst
      · simp only [hr] at h
        exact .inr (.inr (.inr (.inr (.inr (.inr ⟨off, size, v, rest, rfl, rfl, h⟩)))))
      · simp [hr] at h
    | strobe =>
      rw [step_strobe hs] at h
      cases hr : s.rst
      · exact .inr (.inr (.inr (.inr (.inl ⟨rest, rfl, rfl, by simpa [hr] using h.symm⟩))))
      · exact .inr (.inr (.inr (.inl ⟨rest, rfl, rfl, by simpa [hr] using h.symm⟩)))
    | rstAssert =>
      rw [step_rstAssert hs] at h
      exact .inr (.inl ⟨rest, rfl, by simpa using h.symm⟩)
    | rstRelease =>
      rw [step_rstRelease hs] at h
      exact .inr (.inr (.inl ⟨rest, rfl, by simpa using h.symm⟩))

/-- What a host write can do, its command told apart: the bad address, the stores and clears, the command, the illegal
command (R105, R140). -/
theorem exec_wr_inv {off : Offset} {size : AccessSize} {v : Word} {s t : State}
    (h : exec (.wr off size v) s = .next t) :
    t = raiseErr .badAddr s ∨
    (∃ r, busReg off size = some r ∧ r.access = .rw ∧ t = storeRw r v s) ∨
    (∃ r, busReg off size = some r ∧ r.access = .w1c ∧ t = clearSticky r v s) ∨
    (∃ r, busReg off size = some r ∧ r.access = .wc ∧ t = clearCounter r s) ∨
    (∃ r i, busReg off size = some r ∧ r.access = .wo ∧ decode v = .ok i ∧ i.isCommand = true ∧ exec i s = .next t) ∨
    t = raiseErr .illegalCmd s := by
  rcases exec_wr_cases off size v s with ⟨-, e⟩ | ⟨r, hr, ⟨-, e⟩ | ⟨ha, e⟩ | ⟨ha, e⟩ | ⟨ha, e⟩ | ⟨ha, e⟩⟩ <;>
    rw [e] at h
  · exact .inl (by simpa using h.symm)
  · exact .inl (by simpa using h.symm)
  · exact .inr (.inl ⟨r, hr, ha, by simpa using h.symm⟩)
  · exact .inr (.inr (.inl ⟨r, hr, ha, by simpa using h.symm⟩))
  · exact .inr (.inr (.inr (.inl ⟨r, hr, ha, by simpa using h.symm⟩)))
  · rcases writeCmd_cases v s with ⟨i, hd, hc, e'⟩ | ⟨-, -, e'⟩ <;> rw [e'] at h
    · exact .inr (.inr (.inr (.inr (.inl ⟨r, i, hr, ha, hd, hc, h⟩))))
    · exact .inr (.inr (.inr (.inr (.inr (by simpa using h.symm)))))

/-- What a host read can do (R104). -/
theorem exec_rd_inv {off : Offset} {size : AccessSize} {s t : State} (h : exec (.rd off size) s = .next t) :
    (busReg off size = none ∧ t = returnRead 0 (raiseErr .badAddr s)) ∨
    ∃ r, busReg off size = some r ∧ t = returnRead (readReg r s) s := by
  cases hb : busReg off size with
  | none => exact .inl ⟨rfl, by simpa [exec_rd_unmapped hb] using h.symm⟩
  | some r => exact .inr ⟨r, rfl, by simpa [exec_rd_mapped hb] using h.symm⟩

/-- `CMD` is the only write-only register (R32). -/
theorem access_wo {r : Reg} (h : r.access = .wo) : r = .cmd := by
  cases r <;> first | rfl | cases h

/-- `ERR` and `EVT` are the only registers a 1 clears (R32). -/
theorem access_w1c {r : Reg} (h : r.access = .w1c) : r = .err ∨ r = .evt := by
  cases r <;> first | exact .inl rfl | exact .inr rfl | cases h

/-- The counters are the only registers any write clears (R32). -/
theorem access_wc {r : Reg} (h : r.access = .wc) : r = .pecErrCnt ∨ r = .faultCnt ∨ r = .cycleCnt := by
  cases r <;> first | exact .inl rfl | exact .inr (.inl rfl) | exact .inr (.inr rfl) | cases h

/-- A host write to an RW register changes the host's registers and `CFG_PEND` and nothing else (R105). -/
theorem storeRw_frame (r : Reg) (v : Word) (s : State) :
    storeRw r v s = { s with
      regs := s.regs.store r v, status := { s.status with cfgPend := (storeRw r v s).status.cfgPend } } := by
  unfold storeRw
  split <;> rfl

/-- A host write to an RW register leaves `CFG_PEND` or sets it (R240). -/
theorem storeRw_cfgPend (r : Reg) (v : Word) (s : State) :
    (storeRw r v s).status.cfgPend = s.status.cfgPend ∨ (storeRw r v s).status.cfgPend = true := by
  unfold storeRw
  split <;> simp

/-- A host write to `ERR` or `EVT` changes them and nothing else (R37, R38). -/
theorem clearSticky_frame (r : Reg) (v : Word) (s : State) :
    clearSticky r v s = { s with err := (clearSticky r v s).err, evt := (clearSticky r v s).evt } := by
  unfold clearSticky
  split <;> rfl

/-- A host write to a counter changes the counters and nothing else (R57). -/
theorem clearCounter_frame (r : Reg) (s : State) :
    clearCounter r s = { s with cnt := (clearCounter r s).cnt } := by
  unfold clearCounter
  split <;> rfl

/-- A mapped access is a word access of the register at its word index (R107). -/
theorem busReg_some {off : Offset} {size : AccessSize} {r : Reg} (h : busReg off size = some r) :
    size = .word ∧ off.toNat % 4 = 0 ∧ regAtWord (off.toNat / 4) = some r := by
  unfold busReg at h
  split at h
  · next hw =>
    rw [wholeWord, Bool.and_eq_true, beq_iff_eq, beq_iff_eq] at hw
    exact ⟨hw.1, hw.2, h⟩
  · cases h

end Sys2Proof.Machine
end

