-- ==== Sys2Proof/Laws/Tick.lean ====
section
/-! SUPPORT. What the parts of a tick and of a strobe do, said once: the control check (45_supervisor R367, R368), the
sequencer's branches (R362, R363, R366) and the watchdog (R371). -/

namespace Sys2Proof.Machine

/-- The balancing bitmap is that of any state with the same history, cursor and `BAL_EPS`: a change of mode keeps it. -/
@[simp] theorem balanceBitmap_setMode (m : OpMode) (s : State) : balanceBitmap (setMode m s) = balanceBitmap s :=
  balanceBitmap_congr (by simp) (by simp) (by simp)

/-- The control check and the balancing step, with a balancing request pending (R367, R368). -/
theorem tickControl_balancing (s : State) (h : s.status.balReq = true) :
    tickControl s = { s with
      status := ⟨s.status.sup, .balancing, decide (balanceBitmap s ≠ 0), s.status.diag, true, s.status.cause⟩
      dcc := balanceBitmap s } := by
  obtain ⟨_, ⟨sup, mode, balReq, diag, cfgPend, cause⟩, _, _, _, _, _, _, _, _, _, _, _, _, _, _, _, _, _⟩ := s
  cases h
  cases mode <;>
    simp only [tickControl, balanceStep, setMode, modeOf, pendCfg, balanceBitmap, newest, if_true, if_false, reduceCtorEq,
      State.mk.injEq, Status.mk.injEq, true_and, and_true, ne_eq] <;>
    split <;> simp_all

/-- The control check without a balancing request (R256, R367). -/
theorem tickControl_normal (s : State) (h : s.status.balReq = false) :
    tickControl s = { s with
      status := ⟨s.status.sup, .normal, false, s.status.diag,
        if s.status.mode = .normal then s.status.cfgPend else true, s.status.cause⟩
      dcc := if s.status.mode = .normal then s.dcc else 0 } := by
  obtain ⟨_, ⟨sup, mode, balReq, diag, cfgPend, cause⟩, _, _, _, _, _, _, _, _, _, _, _, _, _, _, _, _, _⟩ := s
  cases h
  cases mode <;> simp [tickControl, setMode, modeOf, pendCfg]

/-- The control check changes `STATUS` and `DCC` and nothing else (R367, R368). -/
theorem tickControl_frame (s : State) :
    tickControl s = { s with status := (tickControl s).status, dcc := (tickControl s).dcc } := by
  cases h : s.status.balReq
  · rw [tickControl_normal s h]
  · rw [tickControl_balancing s h]

/-- The control check keeps the sequencer state, the diagnostic flag and the cause bits (R367). -/
theorem tickControl_status (s : State) :
    (tickControl s).status.sup = s.status.sup ∧ (tickControl s).status.diag = s.status.diag ∧
    (tickControl s).status.cause = s.status.cause := by
  cases h : s.status.balReq
  · rw [tickControl_normal s h]
    exact ⟨rfl, rfl, rfl⟩
  · rw [tickControl_balancing s h]
    exact ⟨rfl, rfl, rfl⟩

/-- After the control check no cell is discharged in Normal mode, if that was so before (R46). -/
theorem tickControl_normalNoDischarge (s : State) (h : s.status.mode = .normal → s.dcc = 0) :
    (tickControl s).status.mode = .normal → (tickControl s).dcc = 0 := by
  cases hb : s.status.balReq
  · rw [tickControl_normal s hb]
    intro _
    by_cases hm : s.status.mode = .normal <;> simp [hm, h]
  · rw [tickControl_balancing s hb]
    intro hm
    cases hm

/-- The branches of the sequencer: in limits, repeating or silent in FAULT, entering FAULT, debouncing (R362, R363,
R366, R373). -/
theorem tickSequence_cases (c : BitVec 5) (s : State) :
    (c = 0 ∧ tickSequence c s = tickPass s) ∨
    (c ≠ 0 ∧ s.status.sup = .fault ∧ frep s = true ∧ elapsed s s.seq.lastFtx = true ∧
      tickSequence c s = { pushFault c s with seq := { s.seq with lastFtx := s.msCount } }) ∨
    (c ≠ 0 ∧ s.status.sup = .fault ∧ (frep s && elapsed s s.seq.lastFtx) = false ∧ tickSequence c s = s) ∨
    (c ≠ 0 ∧ s.status.sup ≠ .fault ∧ elapsed s s.seq.lastGood = true ∧ tickSequence c s = enterFault c s) ∨
    (c ≠ 0 ∧ s.status.sup ≠ .fault ∧ elapsed s s.seq.lastGood = false ∧ tickSequence c s = setSup .debSafe s) := by
  by_cases hc : c = 0
  · exact .inl ⟨hc, by simp [tickSequence, hc]⟩
  · by_cases hs : s.status.sup = .fault
    · cases hf : frep s && elapsed s s.seq.lastFtx
      · exact .inr (.inr (.inl ⟨hc, hs, rfl, by rw [tickSequence, if_neg hc, if_pos hs, tickRepeat, hf, if_neg Bool.false_ne_true]⟩))
      · refine .inr (.inl ⟨hc, hs, (Bool.and_eq_true _ _ ▸ hf).1, (Bool.and_eq_true _ _ ▸ hf).2, ?_⟩)
        rw [tickSequence, if_neg hc, if_pos hs, tickRepeat, hf, if_pos rfl]
        simp
    · cases he : elapsed s s.seq.lastGood
      · refine .inr (.inr (.inr (.inr ⟨hc, hs, rfl, ?_⟩)))
        rw [tickSequence, if_neg hc, if_neg hs, tickDebounce, he, if_neg Bool.false_ne_true]
      · refine .inr (.inr (.inr (.inl ⟨hc, hs, rfl, ?_⟩)))
        rw [tickSequence, if_neg hc, if_neg hs, tickDebounce, he, if_pos rfl]

/-- The sequencer's part of a tick leaves everything the table of R373 does not name. -/
theorem tickSequence_frame (c : BitVec 5) (s : State) :
    tickSequence c s = { s with
      status := { s.status with sup := (tickSequence c s).status.sup }
      err := (tickSequence c s).err
      evt := (tickSequence c s).evt
      txq := (tickSequence c s).txq
      cnt := { s.cnt with fault := (tickSequence c s).cnt.fault }
      seq := (tickSequence c s).seq } := by
  rcases tickSequence_cases c s with ⟨-, e⟩ | ⟨-, -, -, -, e⟩ | ⟨-, -, -, e⟩ | ⟨-, -, -, e⟩ | ⟨-, -, -, e⟩ <;> rw [e]
  · simp only [tickPass]
    split <;> rfl
  · by_cases h : Config.txqDepth ≤ s.txq.length <;> simp [pushFault, push, raiseErr, h]
  · by_cases h : Config.txqDepth ≤ s.txq.length <;> simp [enterFault, setSup, raiseEvt, pushFault, push, raiseErr, h]
  · rfl

/-- `elapsed` in natural numbers (R363, R371). -/
theorem elapsed_iff (s : State) (since : Word) :
    elapsed s since = true ↔ s.regs.debMs.toNat ≤ (s.msCount - since).toNat := by
  simp [elapsed, BitVec.le_def]

/-- What a strobe does: the time advances, and the watchdog enters FAULT when it is due (R370, R371). -/
theorem timeStrobe_cases (s : State) :
    (wdogDue { s with msCount := s.msCount + 1 } = false ∧ timeStrobe s = { s with msCount := s.msCount + 1 }) ∨
    (wdogDue { s with msCount := s.msCount + 1 } = true ∧
      timeStrobe s = enterFault (wdogCause s) (setCause (wdogCause s) { s with msCount := s.msCount + 1 })) := by
  cases h : wdogDue { s with msCount := s.msCount + 1 }
  · exact .inl ⟨rfl, by rw [timeStrobe, watchdog, h, if_neg Bool.false_ne_true]⟩
  · exact .inr ⟨rfl, by rw [timeStrobe, watchdog, h, if_pos rfl]; rfl⟩

/-- The watchdog's condition (R371). -/
theorem wdogDue_iff (s : State) :
    wdogDue s = true ↔
      wdogEn s = true ∧ s.status.sup ≠ .fault ∧ s.regs.debMs.toNat ≤ (s.msCount - s.seq.lastGood).toNat := by
  rw [wdogDue, Bool.and_eq_true, Bool.and_eq_true, elapsed_iff]
  simp [and_assoc]

end Sys2Proof.Machine
end

