-- ==== Sys2Proof/Laws/Command.lean ====
section
/-! SUPPORT. Everything a command can do, said once: the inversion of `exec` over the commands, one case per row of the
opcode map and outcome, and the frame of each shared operation as one equation between states. -/

namespace Sys2Proof.Machine

/-- The state a command can leave: one constructor per command and outcome. -/
inductive CommandEffect (s : State) : Instr → State → Prop
  | badArg (i : Instr) : i.isCommand = true → i.wf = false → CommandEffect s i (raiseErr .badArg s)
  | nop : CommandEffect s .nop s
  | pecInit : CommandEffect s .pecInit { s with pecRem := pecSeed }
  | pecByte (b : Byte) : CommandEffect s (.pecByte b) { s with pecRem := pecFold s.pecRem b }
  | buildCmd (c : Half) : CommandEffect s (.buildCmd c) { s with txb := txBuffer (commandFrame c) 4 }
  | buildWrcfg (c : Half) : CommandEffect s (.buildWrcfg c) { s with
      txb := txBuffer (wrcfgFrame c (cfgBytes s)) 12
      status := { s.status with cfgPend := false } }
  | parseCvApplied (b : Byte) (g : Fin 4) : g.val = b.toNat → parseApply s = true →
      CommandEffect s (.parseCv b) (applyCv g (parseCheck .pecCv s))
  | parseCvDropped (b : Byte) : parseApply s = false → CommandEffect s (.parseCv b) (parseCheck .pecCv s)
  | parseAuxApplied (b : Byte) (g : Fin 2) : g.val = b.toNat → parseApply s = true →
      CommandEffect s (.parseAux b) (applyAux g (parseCheck .pecAux s))
  | parseAuxDropped (b : Byte) : parseApply s = false → CommandEffect s (.parseAux b) (parseCheck .pecAux s)
  | parseCfgSame : rxData s = cfgBytes s → CommandEffect s .parseCfg (parseCheck .pecCfg s)
  | parseCfgDiffers : rxData s ≠ cfgBytes s →
      CommandEffect s .parseCfg (raiseErr .cfgMismatch (parseCheck .pecCfg s))
  | balanceNormal : s.status.mode = .normal → CommandEffect s .balance (raiseErr .mode s)
  | balance : s.status.mode = .balancing → CommandEffect s .balance (pendCfg { s with dcc := balanceBitmap s })
  | setMode (b : Byte) (m : OpMode) : CommandEffect s (.setMode b) (setMode m s)
  | linTemp (b : Byte) (c : Half) (j : Fin Config.ntemp) : j.val = b.toNat →
      CommandEffect s (.linTemp b c) (refreshCur (storeCode j c s))
  | updCell (b : Byte) (v : Half) (k : Fin Config.ncell) : k.val = b.toNat →
      CommandEffect s (.updCell b v) (refreshCur (putCell k v s))
  | updTemp (b : Byte) (v : Half) (j : Fin Config.ntemp) : j.val = b.toNat →
      CommandEffect s (.updTemp b v) (refreshCur (putTemp j v s))
  | close : CommandEffect s .close (closeCycle s)
  | txVsum : CommandEffect s .txVsum (pushVsum s)
  | txTsum : CommandEffect s .txTsum (pushTsum s)
  | txCell (b : Byte) (k : Fin 4) : k.val = b.toNat → CommandEffect s (.txCell b) (pushCell k s)
  | txTelem : s.status.diag = false → CommandEffect s .txTelem (pushTsum (pushVsum s))
  | txTelemDiag : s.status.diag = true → CommandEffect s .txTelem (pushCells (pushTsum (pushVsum s)))
  | txqPopEmpty : s.txq = [] → CommandEffect s .txqPop (raiseErr .txqUnf s)
  | txqPop (f : BusFrame) (rest : List BusFrame) : s.txq = f :: rest → CommandEffect s .txqPop { s with txq := rest }
  | rxFrame : CommandEffect s .rxFrame (raiseEvt .rxMatch { s with status := rxFlags s })
  | rxFrameNone : CommandEffect s .rxFrame s
  | tick : CommandEffect s .tick
      (tickControl (tickSequence (tickCause s) (setCause (tickCause s) (closeCycle s))))

/-- An effect is the next state that was computed. -/
theorem CommandEffect.of_eq {s t u : State} {i : Instr} (h : exec i s = .next t) (e : exec i s = .next u)
    (he : CommandEffect s i u) : CommandEffect s i t := by
  have hu : u = t := Host.Outcome.next.inj (e.symm.trans h)
  rw [← hu]
  exact he

/-- Every next state of a command is one of its effects. -/
theorem command_effect {i : Instr} (hc : i.isCommand = true) {s t : State} (h : exec i s = .next t) :
    CommandEffect s i t := by
  cases i with
  | rd => cases hc
  | wr => cases hc
  | nop => exact .of_eq h (exec_nop s) .nop
  | pecInit => exact .of_eq h (exec_pecInit s) .pecInit
  | pecByte b => exact .of_eq h (exec_pecByte b s) (.pecByte b)
  | buildCmd c => exact .of_eq h (exec_buildCmd c s) (.buildCmd c)
  | buildWrcfg c => exact .of_eq h (exec_buildWrcfg c s) (.buildWrcfg c)
  | close => exact .of_eq h (exec_close s) .close
  | txVsum => exact .of_eq h (exec_txVsum s) .txVsum
  | txTsum => exact .of_eq h (exec_txTsum s) .txTsum
  | tick => exact .of_eq h (exec_tick s) .tick
  | parseCv b =>
    by_cases hb : b.toNat < 4
    · refine .of_eq h (exec_parseCv b s hb) ?_
      cases ha : parseApply s
      · exact .parseCvDropped b ha
      · exact .parseCvApplied b _ rfl ha
    · exact .of_eq h (exec_parseCv_bad b s hb) (.badArg _ rfl (by simpa [Instr.wf] using hb))
  | parseAux b =>
    by_cases hb : b.toNat < 2
    · refine .of_eq h (exec_parseAux b s hb) ?_
      cases ha : parseApply s
      · exact .parseAuxDropped b ha
      · exact .parseAuxApplied b _ rfl ha
    · exact .of_eq h (exec_parseAux_bad b s hb) (.badArg _ rfl (by simpa [Instr.wf] using hb))
  | parseCfg =>
    refine .of_eq h (exec_parseCfg s) ?_
    by_cases hd : rxData s = cfgBytes s
    · rw [if_pos hd]
      exact .parseCfgSame hd
    · rw [if_neg hd]
      exact .parseCfgDiffers hd
  | balance =>
    cases hm : s.status.mode
    · exact .of_eq h (exec_balance_normal s hm) (.balanceNormal hm)
    · exact .of_eq h (exec_balance_balancing s hm) (.balance hm)
  | setMode b =>
    by_cases hb : b.toNat < 2
    · exact .of_eq h (exec_setMode b s hb) (.setMode b _)
    · exact .of_eq h (exec_setMode_bad b s hb) (.badArg _ rfl (by simpa [Instr.wf] using hb))
  | linTemp b c =>
    by_cases hb : b.toNat < Config.ntemp
    · exact .of_eq h (exec_linTemp b c s hb) (.linTemp b c _ rfl)
    · exact .of_eq h (exec_linTemp_bad b c s hb) (.badArg _ rfl (by simpa [Instr.wf] using hb))
  | updCell b v =>
    by_cases hb : b.toNat < Config.ncell
    · exact .of_eq h (exec_updCell b v s hb) (.updCell b v _ rfl)
    · exact .of_eq h (exec_updCell_bad b v s hb) (.badArg _ rfl (by simpa [Instr.wf] using hb))
  | updTemp b v =>
    by_cases hb : b.toNat < Config.ntemp
    · exact .of_eq h (exec_updTemp b v s hb) (.updTemp b v _ rfl)
    · exact .of_eq h (exec_updTemp_bad b v s hb) (.badArg _ rfl (by simpa [Instr.wf] using hb))
  | txCell b =>
    by_cases hb : b.toNat < 4
    · exact .of_eq h (exec_txCell b s hb) (.txCell b _ rfl)
    · exact .of_eq h (exec_txCell_bad b s hb) (.badArg _ rfl (by simpa [Instr.wf] using hb))
  | txTelem =>
    refine .of_eq h (exec_txTelem s) ?_
    cases hd : s.status.diag
    · rw [if_neg Bool.false_ne_true]
      exact .txTelem hd
    · rw [if_pos rfl]
      exact .txTelemDiag hd
  | txqPop =>
    cases hq : s.txq with
    | nil => exact .of_eq h (exec_txqPop_nil s hq) (.txqPopEmpty hq)
    | cons f rest => exact .of_eq h (exec_txqPop_cons s f rest hq) (.txqPop f rest hq)
  | rxFrame =>
    refine .of_eq h (exec_rxFrame s) ?_
    by_cases hm : (rxHits s s.regs.idBal || rxHits s s.regs.idDiag) = true
    · rw [if_pos hm]
      exact .rxFrame
    · rw [if_neg hm]
      exact .rxFrameNone

/-! Frames -/

/-- The PEC check changes `ERR` and `PEC_ERR_CNT` and nothing else (R230). -/
theorem parseCheck_frame (e : ErrBit) (s : State) :
    parseCheck e s = { s with
      err := (parseCheck e s).err, cnt := { s.cnt with pecErr := (parseCheck e s).cnt.pecErr } } := by
  by_cases h : pecOk s = true <;> simp [parseCheck, h, pecMismatch, raiseErr]

/-- The bits of `ERR` after the PEC check (R230). -/
theorem parseCheck_err (e : ErrBit) (s : State) :
    (parseCheck e s).err = if pecOk s then s.err else s.err ||| (1#10 <<< e.code) := by
  by_cases h : pecOk s = true <;> simp [parseCheck, h]

/-- A voltage group applied changes the working frame alone (R231). -/
theorem applyCv_frame (g : Fin 4) (s : State) : applyCv g s = { s with cur := (applyCv g s).cur } := rfl

/-- An auxiliary group applied changes the working frame and the raw codes alone (R232). -/
theorem applyAux_frame (g : Fin 2) (s : State) :
    applyAux g s = { s with cur := (applyAux g s).cur, auxRaw := (applyAux g s).auxRaw } := by
  unfold applyAux
  split <;> rfl

/-- Applying a voltage group leaves recomputed aggregates (R231). -/
theorem applyCv_aggsHold (g : Fin 4) (s : State) : (applyCv g s).cur.aggsHold := rfl

/-- Applying an auxiliary group leaves recomputed aggregates (R232). -/
theorem applyAux_aggsHold (g : Fin 2) (s : State) : (applyAux g s).cur.aggsHold := by
  unfold applyAux
  split <;> exact CellFrame.refresh_aggsHold _

/-- A push changes the queue and `ERR` and nothing else (R320). -/
theorem push_frame (id : Word) (b : List Byte) (s : State) :
    push id b s = { s with txq := (push id b s).txq, err := (push id b s).err } := by
  unfold push
  split <;> rfl

/-- What any sequence of pushes does: it extends the queue, sets no bit of `ERR` but TXQ_OVF, and keeps the depth and
the padding (R320). -/
structure Pushed (s t : State) : Prop where
  frame : t = { s with txq := t.txq, err := t.err }
  grows : s.txq <+: t.txq
  err : t.err = s.err ∨ t.err = s.err ||| 0x040
  depth : s.txq.length ≤ Config.txqDepth → t.txq.length ≤ Config.txqDepth
  padded : (∀ f ∈ s.txq, f.padded) → ∀ f ∈ t.txq, f.padded

theorem pushed_push (id : Word) (b : List Byte) (s : State) : Pushed s (push id b s) where
  frame := push_frame id b s
  grows := push_prefix id b s
  err := by
    by_cases h : Config.txqDepth ≤ s.txq.length
    · exact .inr (by simp [h, ErrBit.code])
    · exact .inl (by simp [h])
  depth := push_length id b s
  padded := push_padded id b s

theorem Pushed.trans {s t u : State} (h1 : Pushed s t) (h2 : Pushed t u) : Pushed s u where
  frame := by
    rw [h2.frame, h1.frame]
  grows := h1.grows.trans h2.grows
  err := by
    rcases h1.err with e1 | e1 <;> rcases h2.err with e2 | e2 <;> rw [e2, e1]
    · exact .inl rfl
    · exact .inr rfl
    · exact .inr rfl
    · exact .inr (by rw [BitVec.or_assoc, BitVec.or_self])
  depth h := h2.depth (h1.depth h)
  padded h := h2.padded (h1.padded h)

theorem pushed_vsum (s : State) : Pushed s (pushVsum s) := pushed_push _ _ s

theorem pushed_tsum (s : State) : Pushed s (pushTsum s) := pushed_push _ _ s

theorem pushed_cell (k : Fin 4) (s : State) : Pushed s (pushCell k s) := pushed_push _ _ s

theorem pushed_fault (c : BitVec 5) (s : State) : Pushed s (pushFault c s) := pushed_push _ _ s

theorem pushed_cells (s : State) : Pushed s (pushCells s) := by
  unfold pushCells
  exact (pushed_cell 0 s).trans ((pushed_cell 1 _).trans ((pushed_cell 2 _).trans (pushed_cell 3 _)))

theorem pushed_summaries (s : State) : Pushed s (pushTsum (pushVsum s)) :=
  (pushed_vsum s).trans (pushed_tsum (pushVsum s))

theorem pushed_burst (s : State) : Pushed s (pushCells (pushTsum (pushVsum s))) :=
  (pushed_summaries s).trans (pushed_cells (pushTsum (pushVsum s)))

/-- A tick changes what the table of R373, the closing of the cycle and the control check name, and nothing else
(R360). -/
theorem tick_frame (s t : State)
    (h : t = tickControl (tickSequence (tickCause s) (setCause (tickCause s) (closeCycle s)))) :
    t = { s with
      status := ⟨t.status.sup, t.status.mode, t.status.balReq, s.status.diag, t.status.cfgPend, tickCause s⟩
      err := t.err, evt := t.evt, dcc := t.dcc, txq := t.txq, seq := t.seq
      cnt := ⟨s.cnt.pecErr, t.cnt.fault, s.cnt.cycle + 1⟩
      cursor := nextSlot s.cursor, hist := closedHist s, pack := packAggs (closedHist s) } := by
  have h2 := tickSequence_frame (tickCause s) (setCause (tickCause s) (closeCycle s))
  generalize tickSequence (tickCause s) (setCause (tickCause s) (closeCycle s)) = u at h h2
  have h1 := tickControl_frame u
  have h3 := tickControl_status u
  rw [← h] at h1 h3
  have hd : t.status.diag = s.status.diag := by
    rw [h3.2.1, h2]
    simp
  have hc : t.status.cause = tickCause s := by
    rw [h3.2.2, h2]
    simp
  have hst : t.status =
      ⟨t.status.sup, t.status.mode, t.status.balReq, s.status.diag, t.status.cfgPend, tickCause s⟩ := by
    rw [← hd, ← hc]
  rw [← hst]
  have e1 : t.err = u.err := by rw [h1]
  have e2 : t.evt = u.evt := by rw [h1]
  have e3 : t.txq = u.txq := by rw [h1]
  have e4 : t.seq = u.seq := by rw [h1]
  have e5 : t.cnt = u.cnt := by rw [h1]
  rw [e1, e2, e3, e4, e5]
  refine h1.trans ?_
  generalize t.status = st, t.dcc = dc
  rw [h2]
  simp

end Sys2Proof.Machine
end

