-- ==== Sys2Proof/Laws/PerInstr.lean ====
section
/-! SUPPORT. The per-instruction family `Encodes`: an instruction has a command word exactly when it is a command
(30_encoding R143, R160); the two port transactions have none. -/

namespace Sys2Proof.Laws.Encodes

/-- An instruction has a command word exactly when it is a command. -/
def Statement (i : Instr) : Prop := (encode i).isSome = i.isCommand

theorem nop : Statement .nop := rfl

theorem pecInit : Statement .pecInit := rfl

theorem pecByte (b : Byte) : Statement (.pecByte b) := rfl

theorem buildCmd (c : Half) : Statement (.buildCmd c) := rfl

theorem buildWrcfg (c : Half) : Statement (.buildWrcfg c) := rfl

theorem parseCv (g : Byte) : Statement (.parseCv g) := rfl

theorem parseAux (g : Byte) : Statement (.parseAux g) := rfl

theorem parseCfg : Statement .parseCfg := rfl

theorem balance : Statement .balance := rfl

theorem setMode (m : Byte) : Statement (.setMode m) := rfl

theorem linTemp (j : Byte) (code : Half) : Statement (.linTemp j code) := rfl

theorem updCell (i : Byte) (v : Half) : Statement (.updCell i v) := rfl

theorem updTemp (j : Byte) (t : Half) : Statement (.updTemp j t) := rfl

theorem close : Statement .close := rfl

theorem txVsum : Statement .txVsum := rfl

theorem txTsum : Statement .txTsum := rfl

theorem txCell (k : Byte) : Statement (.txCell k) := rfl

theorem txTelem : Statement .txTelem := rfl

theorem txqPop : Statement .txqPop := rfl

theorem rxFrame : Statement .rxFrame := rfl

theorem tick : Statement .tick := rfl

theorem rd (off : Offset) (size : AccessSize) : Statement (.rd off size) := rfl

theorem wr (off : Offset) (size : AccessSize) (v : Word) : Statement (.wr off size v) := rfl

end Sys2Proof.Laws.Encodes
end

