-- ==== Sys2Proof/Laws/Therm.lean ====
section
/-! SUPPORT. The enclosures of the linearizer enclose: `lnLo` and `lnHi` bound the logarithm, `lnXLo` and `lnXHi` bound
`ln x` of R273, and so what `betaTenths` answers at both ends bounds the rounded temperature. -/

namespace Sys2Proof.Machine

open Finset

theorem lnUnit_pos : (0 : ℝ) < lnUnit := by norm_num [lnUnit, Config.lnBits]

/-- A quotient of naturals rounded down, over the reals. -/
theorem natDiv_le_div (p q : Nat) : ((p / q : Nat) : ℝ) ≤ p / q := Nat.cast_div_le

/-- A quotient of naturals is less than its rounding down plus one. -/
theorem div_lt_natDiv_add_one (p q : Nat) (hq : 0 < q) : (p : ℝ) / q < ((p / q : Nat) : ℝ) + 1 := by
  have hq' : (0 : ℝ) < q := by exact_mod_cast hq
  rw [div_lt_iff₀ hq']
  have h := Nat.lt_div_mul_add (a := p) hq
  have : (p : ℝ) < ((p / q * q + q : Nat) : ℝ) := by exact_mod_cast h
  push_cast at this
  linarith

/-- One term of the series, before rounding. -/
theorem term_eq (a b i : Nat) :
    ((lnUnit * a ^ (2 * i + 1) : Nat) : ℝ) / ((2 * i + 1) * b ^ (2 * i + 1) : Nat)
      = lnUnit * (((a : ℝ) / b) ^ (2 * i + 1) / (2 * i + 1)) := by
  push_cast
  rw [div_pow]
  field_simp

theorem atanhTerm_le (a b i : Nat) :
    (atanhTerm a b i : ℝ) ≤ lnUnit * (((a : ℝ) / b) ^ (2 * i + 1) / (2 * i + 1)) := by
  rw [← term_eq]
  exact natDiv_le_div _ _

theorem lt_atanhTerm (a b i : Nat) (hb : 0 < b) :
    lnUnit * (((a : ℝ) / b) ^ (2 * i + 1) / (2 * i + 1)) < atanhTerm a b i + 1 := by
  rw [← term_eq]
  exact div_lt_natDiv_add_one _ _ (by positivity)

/-- The rounded partial sum is at most the partial sum of the series of `atanh`. -/
theorem atanhLo_le_sum (a b n : Nat) :
    (atanhLo a b n : ℝ) ≤ lnUnit * ∑ i ∈ range n, ((a : ℝ) / b) ^ (2 * i + 1) / (2 * i + 1) := by
  induction n with
  | zero => simp [atanhLo]
  | succ n ih =>
    rw [sum_range_succ, mul_add, atanhLo, Nat.cast_add]
    exact add_le_add ih (atanhTerm_le a b n)

/-- The partial sum exceeds its rounding by at most one unit a term. -/
theorem sum_le_atanhLo_add (a b n : Nat) (hb : 0 < b) :
    lnUnit * ∑ i ∈ range n, ((a : ℝ) / b) ^ (2 * i + 1) / (2 * i + 1) ≤ atanhLo a b n + n := by
  induction n with
  | zero => simp [atanhLo]
  | succ n ih =>
    rw [sum_range_succ, mul_add, atanhLo, Nat.cast_add, Nat.cast_succ]
    linarith [lt_atanhTerm a b n hb]

/-- The rest of the series after `n` terms is at most `atanhTail`. -/
theorem tail_le_atanhTail (a b n : Nat) (hn : 0 < n) (hab : a < b) :
    (lnUnit : ℝ) * (((a : ℝ) / b) ^ (2 * n + 1) / (1 - ((a : ℝ) / b) ^ 2)) ≤ atanhTail a b n := by
  have hb : 0 < b := by omega
  have hb' : (0 : ℝ) < b := by exact_mod_cast hb
  have hab' : (a : ℝ) < b := by exact_mod_cast hab
  have hsq : a ^ 2 < b ^ 2 := Nat.pow_lt_pow_left hab (by norm_num)
  have hsq' : (a : ℝ) ^ 2 < (b : ℝ) ^ 2 := by exact_mod_cast hsq
  obtain ⟨m, rfl⟩ : ∃ m, n = m + 1 := ⟨n - 1, by omega⟩
  have hden : 0 < b ^ (2 * (m + 1) - 1) * (b ^ 2 - a ^ 2) := Nat.mul_pos (by positivity) (by omega)
  have h := div_lt_natDiv_add_one (lnUnit * a ^ (2 * (m + 1) + 1)) _ hden
  have heq : (lnUnit : ℝ) * (((a : ℝ) / b) ^ (2 * (m + 1) + 1) / (1 - ((a : ℝ) / b) ^ 2))
      = ((lnUnit * a ^ (2 * (m + 1) + 1) : Nat) : ℝ) / ((b ^ (2 * (m + 1) - 1) * (b ^ 2 - a ^ 2) : Nat) : ℝ) := by
    rw [Nat.cast_mul (b ^ _), Nat.cast_sub hsq.le]
    push_cast
    have h1 : (b : ℝ) ^ 2 - (a : ℝ) ^ 2 ≠ 0 := by linarith
    have h2 : 2 * (m + 1) - 1 = 2 * m + 1 := by omega
    rw [h2, div_pow, div_pow]
    field_simp
    ring
  rw [heq, atanhTail, Nat.cast_add, Nat.cast_one]
  exact h.le

/-- `(1 + a/b) / (1 - a/b)`. -/
theorem atanh_ratio (a b : Nat) (hab : a < b) :
    (1 + (a : ℝ) / b) / (1 - (a : ℝ) / b) = ((b : ℝ) + a) / ((b : ℝ) - a) := by
  have hb' : (0 : ℝ) < b := by exact_mod_cast (by omega : 0 < b)
  have hab' : (a : ℝ) < b := by exact_mod_cast hab
  have : (b : ℝ) - a ≠ 0 := by linarith
  field_simp

theorem two_atanhLo_le_log (a b n : Nat) (hab : a < b) :
    (2 * atanhLo a b n : ℝ) ≤ lnUnit * Real.log (((b : ℝ) + a) / ((b : ℝ) - a)) := by
  have hb' : (0 : ℝ) < b := by exact_mod_cast (by omega : 0 < b)
  have hab' : (a : ℝ) < b := by exact_mod_cast hab
  have h := Real.sum_range_le_log_div (x := (a : ℝ) / b) (by positivity) ((div_lt_one hb').2 hab') n
  rw [atanh_ratio a b hab] at h
  have := atanhLo_le_sum a b n
  nlinarith [mul_le_mul_of_nonneg_left h lnUnit_pos.le]

theorem log_le_two_atanhHi (a b n : Nat) (hn : 0 < n) (hab : a < b) :
    lnUnit * Real.log (((b : ℝ) + a) / ((b : ℝ) - a)) ≤ 2 * atanhHi a b n := by
  have hb' : (0 : ℝ) < b := by exact_mod_cast (by omega : 0 < b)
  have hab' : (a : ℝ) < b := by exact_mod_cast hab
  have h := Real.log_div_le_sum_range_add (x := (a : ℝ) / b) (by positivity) ((div_lt_one hb').2 hab') n
  rw [atanh_ratio a b hab] at h
  have h1 := sum_le_atanhLo_add a b n (by omega)
  have h2 := tail_le_atanhTail a b n hn hab
  rw [atanhHi, Nat.cast_add, Nat.cast_add]
  nlinarith [mul_le_mul_of_nonneg_left h lnUnit_pos.le]

/-- `ln c` split at its power of two. -/
theorem log_eq_split (c : Nat) (hc : 0 < c) :
    Real.log c = Nat.log2 c * Real.log 2 + Real.log ((c : ℝ) / 2 ^ Nat.log2 c) := by
  have hc' : (c : ℝ) ≠ 0 := by exact_mod_cast hc.ne'
  rw [Real.log_div hc' (by positivity), Real.log_pow]
  ring

/-- The fraction that stands for `c / 2^k`. -/
theorem split_ratio (c : Nat) (hc : 0 < c) :
    ((((c + 2 ^ Nat.log2 c : Nat) : ℝ) + ((c - 2 ^ Nat.log2 c : Nat) : ℝ))
      / (((c + 2 ^ Nat.log2 c : Nat) : ℝ) - ((c - 2 ^ Nat.log2 c : Nat) : ℝ))) = (c : ℝ) / 2 ^ Nat.log2 c := by
  have h : 2 ^ Nat.log2 c ≤ c := Nat.log2_self_le hc.ne'
  rw [Nat.cast_sub h]
  push_cast
  have : (0 : ℝ) < 2 ^ Nat.log2 c := by positivity
  field_simp
  ring

theorem split_lt (c : Nat) : c - 2 ^ Nat.log2 c < c + 2 ^ Nat.log2 c := by
  have : 0 < 2 ^ Nat.log2 c := by positivity
  omega

/-- `lnLo` is below the logarithm. -/
theorem lnLo_le_log (c : Nat) (hc : 0 < c) : (lnLo c : ℝ) ≤ lnUnit * Real.log c := by
  have h2 := two_atanhLo_le_log 1 3 Config.lnTerms (by norm_num)
  have hm := two_atanhLo_le_log _ _ Config.lnTerms (split_lt c)
  rw [split_ratio c hc] at hm
  have e2 : ((3 : Nat) : ℝ) + ((1 : Nat) : ℝ) = 4 := by norm_num
  have e3 : ((3 : Nat) : ℝ) - ((1 : Nat) : ℝ) = 2 := by norm_num
  rw [e2, e3, show (4 : ℝ) / 2 = 2 by norm_num] at h2
  have hk := mul_le_mul_of_nonneg_left h2 (Nat.cast_nonneg (α := ℝ) (Nat.log2 c))
  rw [log_eq_split c hc, lnLo]
  push_cast at hm hk ⊢
  linarith

/-- `lnHi` is above the logarithm. -/
theorem log_le_lnHi (c : Nat) (hc : 0 < c) : lnUnit * Real.log c ≤ lnHi c := by
  have h2 := log_le_two_atanhHi 1 3 Config.lnTerms (by norm_num [Config.lnTerms]) (by norm_num)
  have hm := log_le_two_atanhHi _ _ Config.lnTerms (by norm_num [Config.lnTerms]) (split_lt c)
  rw [split_ratio c hc] at hm
  have e2 : ((3 : Nat) : ℝ) + ((1 : Nat) : ℝ) = 4 := by norm_num
  have e3 : ((3 : Nat) : ℝ) - ((1 : Nat) : ℝ) = 2 := by norm_num
  rw [e2, e3, show (4 : ℝ) / 2 = 2 by norm_num] at h2
  have hk := mul_le_mul_of_nonneg_left h2 (Nat.cast_nonneg (α := ℝ) (Nat.log2 c))
  rw [log_eq_split c hc, lnHi]
  push_cast at hm hk ⊢
  linarith

/-- `ln x` of R273 in the form the enclosures bound: `ln code - ln (vref - code) + B / T0`. -/
noncomputable def lnX (code vref : Nat) : ℝ :=
  Real.log code - Real.log ((vref - code : Nat) : ℝ) + Config.betaOverT0Num / Config.betaOverT0Den

theorem lnXLo_le (code vref : Nat) (h0 : 0 < code) (h1 : code < vref) :
    (lnXLo code vref : ℝ) ≤ lnUnit * lnX code vref := by
  have a := lnLo_le_log code h0
  have b := log_le_lnHi (vref - code) (by omega)
  have c := natDiv_le_div (lnUnit * Config.betaOverT0Num) Config.betaOverT0Den
  rw [Nat.cast_mul, mul_div_assoc] at c
  rw [lnXLo, lnX, Int.cast_add, Int.cast_sub, Int.cast_natCast, Int.cast_natCast, Int.cast_natCast]
  linarith

theorem le_lnXHi (code vref : Nat) (h0 : 0 < code) (h1 : code < vref) :
    lnUnit * lnX code vref ≤ (lnXHi code vref : ℝ) := by
  have a := log_le_lnHi code h0
  have b := lnLo_le_log (vref - code) (by omega)
  have c := (div_lt_natDiv_add_one (lnUnit * Config.betaOverT0Num) Config.betaOverT0Den
    (by norm_num [Config.betaOverT0Den])).le
  rw [Nat.cast_mul, mul_div_assoc] at c
  rw [lnXHi, lnX, Int.cast_add, Int.cast_sub, Int.cast_natCast, Int.cast_natCast, Int.cast_natCast, Nat.cast_add,
    Nat.cast_one]
  linarith

/-- `betaTenths` of a positive enclosure end is the floor of the temperature at that end. -/
theorem betaTenths_eq_floor (L : Int) (hL : 0 < L) :
    betaTenths L = ⌊(Config.tenBeta * lnUnit : ℝ) / L - 2731⌋ := by
  have hL' : (0 : ℝ) < L := by exact_mod_cast hL
  rw [betaTenths, show (2731 : ℝ) = ((2731 : Int) : ℝ) by norm_num, Int.floor_sub_intCast]
  congr 1
  symm
  rw [Int.floor_eq_iff]
  have e := Int.mul_ediv_add_emod (Config.tenBeta * lnUnit : Nat) L
  have r0 := Int.emod_nonneg (Config.tenBeta * lnUnit : Nat) hL.ne'
  have r1 := Int.emod_lt_of_pos (Config.tenBeta * lnUnit : Nat) hL
  have e' : ((L * ((Config.tenBeta * lnUnit : Nat) / L) + (Config.tenBeta * lnUnit : Nat) % L : Int) : ℝ)
      = (Config.tenBeta * lnUnit : ℝ) := by rw [e]; push_cast; ring
  have r0' : (0 : ℝ) ≤ (((Config.tenBeta * lnUnit : Nat) : Int) % L : Int) := by exact_mod_cast r0
  have r1' : ((((Config.tenBeta * lnUnit : Nat) : Int) % L : Int) : ℝ) < L := by exact_mod_cast r1
  rw [Int.cast_add, Int.cast_mul] at e'
  constructor
  · rw [le_div_iff₀ hL']
    linarith
  · rw [div_lt_iff₀ hL']
    linarith

/-- What `thermRef` decides: the hot end when `ln x ≤ 0`, else the clamped floor of the temperature (R273). -/
theorem thermRef_sound (code vref : Nat) (y : Int) (h0 : 0 < code) (h1 : code < vref)
    (h : thermRef code vref = some y) :
    (lnX code vref ≤ 0 ∧ y = 32767) ∨
      (0 < lnX code vref ∧ y = clamp16 ⌊(Config.tenBeta : ℝ) / lnX code vref - 2731⌋) := by
  have hlo := lnXLo_le code vref h0 h1
  have hhi := le_lnXHi code vref h0 h1
  have hu := lnUnit_pos
  unfold thermRef at h
  split at h
  · rename_i hle
    refine .inl ⟨?_, by simpa using h.symm⟩
    have : (lnXHi code vref : ℝ) ≤ 0 := by exact_mod_cast hle
    nlinarith
  · split at h
    · rename_i hpos
      obtain ⟨hpos, heq⟩ := hpos
      have hloR : (0 : ℝ) < lnXLo code vref := by exact_mod_cast hpos
      have hL : 0 < lnX code vref := by
        by_contra hn
        nlinarith [not_lt.1 hn]
      have hhiR : (0 : ℝ) < lnXHi code vref := by nlinarith
      have hhiI : 0 < lnXHi code vref := by exact_mod_cast hhiR
      refine .inr ⟨hL, ?_⟩
      have hT : (0 : ℝ) ≤ Config.tenBeta := Nat.cast_nonneg _
      have key : (Config.tenBeta : ℝ) / lnX code vref
          = (Config.tenBeta * lnUnit : ℝ) / (lnUnit * lnX code vref) := by
        field_simp
      have up : betaTenths (lnXLo code vref) ≥ ⌊(Config.tenBeta : ℝ) / lnX code vref - 2731⌋ := by
        rw [betaTenths_eq_floor _ hpos, key]
        apply Int.floor_le_floor
        gcongr
      have down : betaTenths (lnXHi code vref) ≤ ⌊(Config.tenBeta : ℝ) / lnX code vref - 2731⌋ := by
        rw [betaTenths_eq_floor _ hhiI, key]
        apply Int.floor_le_floor
        gcongr
      have : betaTenths (lnXLo code vref) = ⌊(Config.tenBeta : ℝ) / lnX code vref - 2731⌋ :=
        le_antisymm (heq ▸ down) up
      rw [← this]
      simpa using h.symm
    · simp at h

/-- Where the enclosure decides, its value is the core's (R272). -/
theorem thermCore_of_some {code vref : Half} {y : Int} (h : thermRef code.toNat vref.toNat = some y) :
    thermCore code vref = BitVec.ofInt 16 y := by
  rw [thermCore, h]
  rfl

/-- Between the sentinels `Lin` is the core (R270). -/
theorem lin_of_lt {code vref : Half} (h0 : 0 < code.toNat) (h1 : code.toNat < vref.toNat) :
    lin vref code = thermCore code vref := by
  have c0 : code ≠ 0 := by
    rintro rfl
    exact absurd h0 (by decide)
  have c1 : ¬ vref ≤ code := by
    rw [BitVec.le_def]
    omega
  rw [lin, if_neg c0, if_neg c1]

end Sys2Proof.Machine
end

