-- ==== Sys2Proof/Tests/Slice0.lean ====
section
/-! SUPPORT. The model's own tests: the checks of WellFormed refuse ill-formed terms; written-out command words decode
to their commands; single steps give the values of the spec's vectors (95_test_vectors, cited at each test); and each
statement with hypotheses has a witness that meets them. -/

open Sys2Proof Sys2Proof.Machine

namespace Sys2Proof.Tests

-- One test at a time: evaluated side by side they would start a thread each.
set_option Elab.async false

/-- The state after the instructions; a stop, which no test reaches, leaves the start. -/
def after (is : List Instr) (s : State) : State :=
  match execAll is s with
  | .next t => t
  | .fault _ => s
  | .refused _ => s

/-- The reset state with its RW registers changed. -/
def withRegs (f : HostRegs → HostRegs) : State := { State.reset with regs := f HostRegs.reset }

/-- The reset state with a response frame in `RXB` (V10). -/
def withFrame (w0 w1 : Word) : State := withRegs fun r => { r with rxb0 := w0, rxb1 := w1 }

/-- The reset state in Balancing mode. -/
def balancing : State := { State.reset with status := { State.reset.status with mode := .balancing } }

/-- The reset state in FAULT, with the cause UV. -/
def faulted : State := { State.reset with status := { State.reset.status with sup := .fault, cause := 1 } }

/-- The reset state with the lower voltage limit at 0, so that a frame of zeros is in its limits. -/
def inLimits : State := withRegs fun r => { r with vminLim := 0 }

/-- A frame of the transmit queue. -/
def someFrame : BusFrame := busFrame 0x300 [1]

/-- The reset state with `n` frames queued. -/
def queued (n : Nat) : State := { State.reset with txq := List.replicate n someFrame }

/-! WellFormed: each check refuses a term just past its range (R143), and takes the last one in it -/

theorem test_wf_groupCv : (Instr.parseCv 4).wf = false ∧ (Instr.parseCv 3).wf = true := by decide

theorem test_wf_groupAux : (Instr.parseAux 2).wf = false ∧ (Instr.parseAux 1).wf = true := by decide

theorem test_wf_mode : (Instr.setMode 2).wf = false ∧ (Instr.setMode 1).wf = true := by decide

theorem test_wf_linSensor : (Instr.linTemp 4 0).wf = false ∧ (Instr.linTemp 3 0).wf = true := by decide

theorem test_wf_cell : (Instr.updCell 12 1).wf = false ∧ (Instr.updCell 11 1).wf = true := by decide

theorem test_wf_sensor : (Instr.updTemp 4 0).wf = false ∧ (Instr.updTemp 3 0).wf = true := by decide

theorem test_wf_cellFrame : (Instr.txCell 4).wf = false ∧ (Instr.txCell 3).wf = true := by decide

theorem test_wf_alignment :
    (Instr.rd 0x006 .word).wf = false ∧ (Instr.wr 0x001 .word 0).wf = false ∧ (Instr.rd 0xFFC .word).wf = true := by
  decide

theorem test_wf_size :
    (Instr.rd 0x004 .half).wf = false ∧ (Instr.wr 0x004 .byte 0).wf = false ∧ (Instr.wr 0x004 .word 0).wf = true := by
  decide

/-! Decoding: one written-out word for every command (R143, R160; the words are the spec's own where it writes one:
V3 to V5, V16, V17, V30, V34, V43, V52, V53, V70 to V74, P4) -/

theorem test_decode_pec :
    decode 0xFFFF0000 = .ok .nop ∧ decode 0x00000001 = .ok .pecInit ∧ decode 0x0000FF02 = .ok (.pecByte 0xFF) ∧
    decode 0x05600003 = .ok (.buildCmd 0x0560) ∧ decode 0x00010004 = .ok (.buildWrcfg 0x0001) := by
  decide

theorem test_decode_protocol :
    decode 0x00000210 = .ok (.parseCv 2) ∧ decode 0x00000111 = .ok (.parseAux 1) ∧ decode 0x00000012 = .ok .parseCfg ∧
    decode 0x00000013 = .ok .balance ∧ decode 0x00000114 = .ok (.setMode 1) := by
  decide

theorem test_decode_frames :
    decode 0x3A980318 = .ok (.linTemp 3 15000) ∧ decode 0x88B80B20 = .ok (.updCell 11 35000) ∧
    decode 0xFF380021 = .ok (.updTemp 0 0xFF38) ∧ decode 0x00000022 = .ok .close := by
  decide

theorem test_decode_bus :
    decode 0x00000030 = .ok .txVsum ∧ decode 0x00000031 = .ok .txTsum ∧ decode 0x00000232 = .ok (.txCell 2) ∧
    decode 0x00000033 = .ok .txTelem ∧ decode 0x00000034 = .ok .txqPop ∧ decode 0x00000038 = .ok .rxFrame ∧
    decode 0x00000040 = .ok .tick := by
  decide

/-- A word outside the map is rejected by name (V110), and an operand out of range still decodes (V19). -/
theorem test_decode_illegal :
    decode 0x00000005 = .error (.illegalOp 0x05) ∧ decode 0xFFFFFFFF = .error (.illegalOp 0xFF) ∧
    decode 0x00000410 = .ok (.parseCv 4) := by
  decide

/-- The encoder writes the spec's words (V16, V43, V52). -/
theorem test_encode :
    encode (.linTemp 3 15000) = some 0x3A980318 ∧ encode (.updCell 11 35000) = some 0x88B80B20 ∧
    encode (.parseAux 1) = some 0x00000111 ∧ encode (.rd 0 .word) = none := by
  decide

/-- The host's two questions, on words of the opcode table: the row decodes, and the next step runs it. -/
theorem test_tableWord :
    decodeTableWord 32 0x00000040 = some .tick ∧ decodeTableWord 8 0x22 = some .close ∧ decodeTableWord 0 0 = none ∧
    step (State.reset.withFetchWord 32 0x00000102) = exec (.pecByte 1) State.reset := by
  refine ⟨by decide, by decide, by decide, rfl⟩

/-! The PEC table, every entry as the spec prints it (R200) -/

theorem test_pecTable_0 :
    (List.range 32).map (fun i => pecTable (BitVec.ofNat 8 (i + 0))) = [
       0x0000, 0xC599, 0xCEAB, 0x0B32, 0xD8CF, 0x1D56, 0x1664, 0xD3FD,
       0xF407, 0x319E, 0x3AAC, 0xFF35, 0x2CC8, 0xE951, 0xE263, 0x27FA,
       0xAD97, 0x680E, 0x633C, 0xA6A5, 0x7558, 0xB0C1, 0xBBF3, 0x7E6A,
       0x5990, 0x9C09, 0x973B, 0x52A2, 0x815F, 0x44C6, 0x4FF4, 0x8A6D] := by
  decide +kernel

theorem test_pecTable_1 :
    (List.range 32).map (fun i => pecTable (BitVec.ofNat 8 (i + 32))) = [
       0x5B2E, 0x9EB7, 0x9585, 0x501C, 0x83E1, 0x4678, 0x4D4A, 0x88D3,
       0xAF29, 0x6AB0, 0x6182, 0xA41B, 0x77E6, 0xB27F, 0xB94D, 0x7CD4,
       0xF6B9, 0x3320, 0x3812, 0xFD8B, 0x2E76, 0xEBEF, 0xE0DD, 0x2544,
       0x02BE, 0xC727, 0xCC15, 0x098C, 0xDA71, 0x1FE8, 0x14DA, 0xD143] := by
  decide +kernel

theorem test_pecTable_2 :
    (List.range 32).map (fun i => pecTable (BitVec.ofNat 8 (i + 64))) = [
       0xF3C5, 0x365C, 0x3D6E, 0xF8F7, 0x2B0A, 0xEE93, 0xE5A1, 0x2038,
       0x07C2, 0xC25B, 0xC969, 0x0CF0, 0xDF0D, 0x1A94, 0x11A6, 0xD43F,
       0x5E52, 0x9BCB, 0x90F9, 0x5560, 0x869D, 0x4304, 0x4836, 0x8DAF,
       0xAA55, 0x6FCC, 0x64FE, 0xA167, 0x729A, 0xB703, 0xBC31, 0x79A8] := by
  decide +kernel

theorem test_pecTable_3 :
    (List.range 32).map (fun i => pecTable (BitVec.ofNat 8 (i + 96))) = [
       0xA8EB, 0x6D72, 0x6640, 0xA3D9, 0x7024, 0xB5BD, 0xBE8F, 0x7B16,
       0x5CEC, 0x9975, 0x9247, 0x57DE, 0x8423, 0x41BA, 0x4A88, 0x8F11,
       0x057C, 0xC0E5, 0xCBD7, 0x0E4E, 0xDDB3, 0x182A, 0x1318, 0xD681,
       0xF17B, 0x34E2, 0x3FD0, 0xFA49, 0x29B4, 0xEC2D, 0xE71F, 0x2286] := by
  decide +kernel

theorem test_pecTable_4 :
    (List.range 32).map (fun i => pecTable (BitVec.ofNat 8 (i + 128))) = [
       0xA213, 0x678A, 0x6CB8, 0xA921, 0x7ADC, 0xBF45, 0xB477, 0x71EE,
       0x5614, 0x938D, 0x98BF, 0x5D26, 0x8EDB, 0x4B42, 0x4070, 0x85E9,
       0x0F84, 0xCA1D, 0xC12F, 0x04B6, 0xD74B, 0x12D2, 0x19E0, 0xDC79,
       0xFB83, 0x3E1A, 0x3528, 0xF0B1, 0x234C, 0xE6D5, 0xEDE7, 0x287E] := by
  decide +kernel

theorem test_pecTable_5 :
    (List.range 32).map (fun i => pecTable (BitVec.ofNat 8 (i + 160))) = [
       0xF93D, 0x3CA4, 0x3796, 0xF20F, 0x21F2, 0xE46B, 0xEF59, 0x2AC0,
       0x0D3A, 0xC8A3, 0xC391, 0x0608, 0xD5F5, 0x106C, 0x1B5E, 0xDEC7,
       0x54AA, 0x9133, 0x9A01, 0x5F98, 0x8C65, 0x49FC, 0x42CE, 0x8757,
       0xA0AD, 0x6534, 0x6E06, 0xAB9F, 0x7862, 0xBDFB, 0xB6C9, 0x7350] := by
  decide +kernel

theorem test_pecTable_6 :
    (List.range 32).map (fun i => pecTable (BitVec.ofNat 8 (i + 192))) = [
       0x51D6, 0x944F, 0x9F7D, 0x5AE4, 0x8919, 0x4C80, 0x47B2, 0x822B,
       0xA5D1, 0x6048, 0x6B7A, 0xAEE3, 0x7D1E, 0xB887, 0xB3B5, 0x762C,
       0xFC41, 0x39D8, 0x32EA, 0xF773, 0x248E, 0xE117, 0xEA25, 0x2FBC,
       0x0846, 0xCDDF, 0xC6ED, 0x0374, 0xD089, 0x1510, 0x1E22, 0xDBBB] := by
  decide +kernel

theorem test_pecTable_7 :
    (List.range 32).map (fun i => pecTable (BitVec.ofNat 8 (i + 224))) = [
       0x0AF8, 0xCF61, 0xC453, 0x01CA, 0xD237, 0x17AE, 0x1C9C, 0xD905,
       0xFEFF, 0x3B66, 0x3054, 0xF5CD, 0x2630, 0xE3A9, 0xE89B, 0x2D02,
       0xA76F, 0x62F6, 0x69C4, 0xAC5D, 0x7FA0, 0xBA39, 0xB10B, 0x7492,
       0x5368, 0x96F1, 0x9DC3, 0x585A, 0x8BA7, 0x4E3E, 0x450C, 0x8095] := by
  decide +kernel

/-- Published constants and one long sequence (V1). -/
theorem test_pec_constants :
    pec [0x00, 0x02] = 0x2B0A ∧ pec [0x05, 0x60] = 0xD3A0 ∧ pec [0xB8, 0x88, 0xB8, 0x88, 0xB8, 0x88] = 0x5A64 := by
  decide +kernel

/-! One step of each instruction, at values of the spec's vectors -/

/-- V3. -/
theorem test_pecByte :
    readReg .pecOut (after [.pecInit, .pecByte 0, .pecByte 1] State.reset) = 0x3D6E ∧
    readReg .pecRem (after [.pecInit, .pecByte 0xFF] State.reset) = 0x1095 := by
  decide +kernel

/-- V4: the frame, and zeros past its length. -/
theorem test_buildCmd :
    (after [.buildWrcfg 1, .buildCmd 0x0004] State.reset).txb = ⟨0xC2070400, 0, 0, 4⟩ := by
  decide +kernel

/-- V5. -/
theorem test_buildWrcfg :
    (after [.wr 0x040 .word 0x7E, .wr 0x044 .word 0x08CA04E1, .buildWrcfg 1] State.reset).txb
      = ⟨0x6E3D0100, 0x8CA4E1FC, 0x2EF40000, 12⟩ := by
  decide +kernel

/-- V10: a good PEC. -/
theorem test_parseCv_good :
    (after [.parseCv 0] (withFrame 0x891C88B8 0x84ED8854)).cur.cell.toList.take 4 = [35000, 35100, 34900, 0] ∧
    (after [.parseCv 0] (withFrame 0x891C88B8 0x84ED8854)).err = 0 := by
  decide +kernel

/-- V11: a bad PEC under ACCEPT, group 2. -/
theorem test_parseCv_bad :
    (after [.parseCv 2] (withFrame 0x88B888B8 0xF8978980)).cur.cell.toList.drop 5 = [0, 35000, 35000, 35200, 0, 0, 0] ∧
    (after [.parseCv 2] (withFrame 0x88B888B8 0xF8978980)).err = 0x004 ∧
    (after [.parseCv 2] (withFrame 0x88B888B8 0xF8978980)).cnt.pecErr = 1 := by
  decide +kernel

/-- V16: group 0. -/
theorem test_parseAux_0 :
    (after [.parseAux 0] (withFrame 0x4E203A98 0x46FB2710)).auxRaw.toList = [15000, 20000, 10000, 0] ∧
    (after [.parseAux 0] (withFrame 0x4E203A98 0x46FB2710)).cur.temp.toList.map BitVec.toInt = [250, 81, 441, 0] := by
  decide +kernel

/-- V16: group 1 is sensor 3, by word 0. -/
theorem test_parseAux_1 :
    readReg (.curTemp 3) (after [.parseAux 1] (withFrame 0x000061A8 0x26360000)) = 0xFFFFFF8D := by
  decide +kernel

/-- R233's example, and P1's second read-back: bit 1 of `CFG[0]` differs. -/
theorem test_parseCfg :
    (after [.parseCfg] (withFrame 0 0x12C20000)).err = 0 ∧ (after [.parseCfg] (withFrame 2 0x12C20000)).err = 0x030 := by
  decide +kernel

/-- V30, V31: the comparison is strict. -/
theorem test_balance :
    let s := after [.updCell 0 35200, .updCell 1 35000, .updCell 2 35060, .updCell 3 35000, .updCell 4 35000,
      .updCell 5 35000, .updCell 6 35000, .updCell 7 35000, .updCell 8 35000, .updCell 9 35000, .updCell 10 35000,
      .updCell 11 35000, .close] balancing
    (after [.wr 0x054 .word 50, .balance] s).dcc = 0x005 ∧ (after [.wr 0x054 .word 60, .balance] s).dcc = 0x001 := by
  decide +kernel

/-- V33: in Normal mode. -/
theorem test_balance_normal :
    (after [.balance] State.reset).err = 0x100 ∧ (after [.balance] State.reset).dcc = 0 := by
  decide

/-- V34, R255's example. -/
theorem test_setMode :
    readReg .status (after [.buildWrcfg 1, .setMode 1] State.reset) = 0x64 ∧
    (after [.setMode 0] { balancing with dcc := 5 }).dcc = 0 ∧ (after [.setMode 2] balancing).err = 0x002 := by
  decide +kernel

/-- V43: the code, its temperature and the average. -/
theorem test_linTemp :
    let t := after [.linTemp 3 15000] State.reset
    readReg (.auxRaw 3) t = 15000 ∧ readReg (.curTemp 3) t = 250 ∧ readReg (.curAgg .tavg) t = 0x3F := by
  decide +kernel

/-- V41, V42: the reference voltage at 0 and at 20000. -/
theorem test_lin_vref : lin 0 0 = 0x7FFF ∧ lin 0 1 = 0x8000 ∧ lin 20000 10000 = 250 ∧ lin 30000 65535 = 0x8000 := by
  decide +kernel

/-- V51's last line, in part: one cell at 6 gives an average of 1, one at 5 an average of 0. -/
theorem test_updCell :
    readReg (.curAgg .vavg) (after [.updCell 11 6] State.reset) = 1 ∧
    readReg (.curAgg .vavg) (after [.updCell 11 5] State.reset) = 0 := by
  decide +kernel

/-- V51, V52: signed temperatures. -/
theorem test_updTemp :
    readReg (.curAgg .tmin) (after [.updTemp 0 0xFF38] State.reset) = 0xFFFFFF38 ∧
    readReg (.curAgg .tavg) (after [.updTemp 0 0xFFFF, .updTemp 1 0xFFFF] State.reset) = 0 := by
  decide +kernel

/-- V53 to V55: the cursor, the count, the event and the warm-up average of one close. -/
theorem test_close :
    let t := after [.updCell 0 35000, .close] State.reset
    readReg .cursor t = 1 ∧ readReg .cycleCnt t = 1 ∧ readReg .evt t = 4 ∧ readReg (.packAgg .vmax) t = 7000 := by
  decide +kernel

/-- V57: the cycle count wraps. V54: the cursor wraps. -/
theorem test_close_wraps :
    (after [.close] { State.reset with cursor := 4, cnt := ⟨0, 0, 0xFFFFFFFF⟩ }).cursor = 0 ∧
    (after [.close] { State.reset with cursor := 4, cnt := ⟨0, 0, 0xFFFFFFFF⟩ }).cnt.cycle = 0 := by
  decide +kernel

/-- V76: the total saturates. -/
theorem test_txVsum :
    readReg .txqD1 (after [.txVsum] { State.reset with pack := { Aggregates.zero with vtot := 655368, vavg := 0xD556 } })
      = 0xFFFFD556 := by
  decide +kernel

/-- V77: negative temperatures; and the frame's identifier. -/
theorem test_txTsum :
    readReg .txqD0 (after [.txTsum] { State.reset with pack := { Aggregates.zero with tmax := 0xFF38, tmin := 0xFF37 } })
      = 0xFF37FF38 ∧
    readReg .txqId (after [.txTsum] State.reset) = 0x111 := by
  decide +kernel

/-- V72: identifier, length and the third group of cells. -/
theorem test_txCell :
    let t := after [.updCell 6 0x1234, .updCell 8 0x5678, .close, .txCell 2] State.reset
    readReg .txqId t = 0x114 ∧ readReg .txqLen t = 6 ∧ readReg .txqD0 t = 0x00001234 ∧ readReg .txqD1 t = 0x5678 := by
  decide +kernel

/-- V73: in diagnostic mode with three frames queued the sixth push is dropped. -/
theorem test_txTelem :
    let s := { queued 3 with status := { State.reset.status with diag := true } }
    ((after [.txTelem] s).txq.map fun f => f.id) = [0x300, 0x300, 0x300, 0x110, 0x111, 0x112, 0x113, 0x114] ∧
    (after [.txTelem] s).err = 0x040 := by
  decide +kernel

/-- V75: six frames from an empty queue in diagnostic mode, two without it. -/
theorem test_txTelem_empty :
    (after [.txTelem] { State.reset with status := { State.reset.status with diag := true } }).txq.length = 6 ∧
    ((after [.txTelem] State.reset).txq.map fun f => f.id) = [0x110, 0x111] := by
  decide +kernel

/-- V74: the underflow, and the head reads 0. -/
theorem test_txqPop :
    (after [.txqPop, .txqPop] (queued 1)).err = 0x080 ∧ readReg .txqId (after [.txqPop] (queued 1)) = 0 := by
  decide +kernel

/-- V79: byte 0 alone is read, and an unmatched identifier changes nothing. -/
theorem test_rxFrame :
    (after [.rxFrame] (withRegs fun r => { r with rxId := 0x121, rxLen := 8, rxD0 := 1 })).status.diag = true ∧
    (after [.rxFrame] (withRegs fun r => { r with rxId := 0x120, rxLen := 12, rxD0 := 0x100 })).status.balReq = false ∧
    (after [.rxFrame] (withRegs fun r => { r with rxId := 0x300, rxLen := 8, rxD0 := 1 })).evt = 0 := by
  decide +kernel

/-- V93: a tick of a frame of zeros at ms 0. -/
theorem test_tick_debounces :
    readReg .status (after [.tick] State.reset) = 0x1061 ∧ readReg .cycleCnt (after [.tick] State.reset) = 1 := by
  decide +kernel

/-- V95, V97: with `DEB_MS` = 0 the first out-of-limits tick enters FAULT and queues its cause. -/
theorem test_tick_faults :
    let t := after [.tick] (withRegs fun r => { r with debMs := 0 })
    t.status.sup = .fault ∧ readReg .txqD0 t = 0x01 ∧ readReg .faultCnt t = 1 ∧ t.evt = 0x5 := by
  decide +kernel

/-- V93: the strobe to ms 450 runs the watchdog. -/
theorem test_strobe_faults :
    readReg .status (timeStrobe { State.reset with msCount := 449 }) = 0x10122 ∧
    readReg .status (timeStrobe { State.reset with msCount := 448 }) = 0x60 := by
  decide +kernel

/-- V111, V112: unmapped, past the history, misaligned; `CMD` reads 0 without an error. -/
theorem test_rd :
    (after [.rd 0x0C0 .word] State.reset).err = 0x200 ∧ (after [.rd 0x480 .word] State.reset).err = 0x200 ∧
    (after [.rd 0x006 .word] State.reset).err = 0x200 ∧ (after [.rd 0x018 .word] State.reset).err = 0 ∧
    (after [.rd 0x000 .word] State.reset).reads = [0x424D5331] := by
  decide +kernel

/-- V113, V114: reserved bits, a 1 clears, any write clears. -/
theorem test_wr :
    readReg .ctrl (after [.wr 0x004 .word 0xFFFFFFFF] State.reset) = 0xF ∧
    (after [.wr 0x00C .word 0x001] { State.reset with err := 0x031 }).err = 0x030 ∧
    (after [.wr 0x0A4 .word 0x12345] { State.reset with cnt := ⟨7, 8, 9⟩ }).cnt = ⟨0, 8, 9⟩ ∧
    (after [.wr 0x008 .word 0] State.reset).err = 0x200 ∧ (after [.wr 0x018 .word 5] State.reset).err = 0x001 := by
  decide +kernel

/-- V115. -/
theorem test_irq :
    irq (after [.wr 0x014 .word 0x1, .wr 0x018 .word 5] State.reset) = true ∧
    irq (after [.wr 0x018 .word 5] State.reset) = false ∧
    irq { after [.wr 0x014 .word 0x10000] State.reset with evt := 1 } = true := by
  decide +kernel

/-- V120. -/
theorem test_reset :
    readReg .status State.reset = 0x60 ∧ readReg .vlim State.reset = 0xA7307D00 ∧
    readReg .tlim State.reset = 0x7FFE8001 ∧ readReg .pecOut State.reset = 0x20 ∧ ilkOk State.reset = true := by
  decide +kernel

/-- R461: a host access while `rst` is asserted is the one refusal; the strobe is ignored. -/
theorem test_inReset :
    step { State.reset with rst := true, sched := [.hostRead 0 .word] } = .refused .accessDuringReset ∧
    step { State.reset with rst := true, sched := [.strobe] } = .next { State.reset with rst := true } :=
  ⟨rfl, rfl⟩

/-! Witnesses: for each statement with hypotheses, states and operands that meet them, at the ends of their ranges -/

theorem witness_DecodeOfEncode : (Instr.parseCv 0xFF).isCommand = true ∧ Instr.tick.isCommand = true := by decide

/-- An opcode of each of the three groups. -/
theorem witness_UnusedFieldsAreIgnored :
    (0x40 : Byte) ∈ [(0x00 : Byte), 0x40] ∧ opOf (commandWord 0x32 1 0xFFFF) = 0x32 ∧
    opOf (commandWord 0x04 0xFF 1) = 0x04 := by
  decide

/-- Both ends of every run of illegal OP values, and the legal values beside them. -/
theorem witness_IllegalOpRaisesIllegalCmd :
    (∀ op ∈ [0x05, 0x0F, 0x15, 0x17, 0x19, 0x1F, 0x23, 0x2F, 0x35, 0x37, 0x39, 0x3F, 0x41, 0xFF],
      decode (commandWord op 0 0) = .error (.illegalOp op)) ∧
    (∀ op ∈ [0x00, 0x04, 0x10, 0x14, 0x18, 0x20, 0x22, 0x30, 0x34, 0x38, 0x40],
      (decode (commandWord op 0 0)).isOk = true) := by
  decide +kernel

theorem witness_StepRunsDecodedCommand :
    State.reset.sched = [] ∧ State.reset.rst = false ∧
    { State.reset with sched := [.hostRead 0 .word] }.sched = .hostRead 0 .word :: [] ∧
    { State.reset with sched := [.hostWrite 4 .word 1] }.sched = .hostWrite 4 .word 1 :: [] ∧
    { State.reset with sched := [.hostWrite 0x018 .word 0x40] }.sched = .hostWrite 0x018 .word 0x40 :: [] ∧
    decode 0x40 = .ok .tick := by
  decide

/-- The assertion, and after it each of the two events the statement follows. -/
theorem witness_ResetForgetsTheState :
    { faulted with sched := [.rstAssert, .strobe] }.sched = .rstAssert :: [.strobe] ∧
    { faulted with sched := [.rstAssert, .rstRelease] }.sched = .rstAssert :: [.rstRelease] ∧
    Reg.cmd ∉ [Reg.blkId, Reg.ctrl, Reg.status] := by
  decide

theorem witness_RegisterMapOffsets :
    busReg 0x000 .word = some .blkId ∧ busReg 0x0BC .word = some .fcause ∧ busReg 0x100 .word = some (.curCell 0) ∧
    busReg 0x1EC .word = some (.lastCell 11) ∧ busReg 0x458 .word = some (.hist 4 22) := by
  decide +kernel

/-- An empty queue and one with a head. -/
theorem witness_MappedReadReturnsRegister : State.reset.txq = [] ∧ (queued 2).txq = someFrame :: [someFrame] := by
  decide +kernel

/-- A half access, a misaligned offset, an offset past the map, and a read-only register. -/
theorem witness_BadAddressOnlySetsItsBit :
    AccessSize.half ≠ .word ∧ (0x006 : Offset).toNat % 4 ≠ 0 ∧ (∀ r : Reg, r.offset ≠ (0x0C0 : Offset).toNat) ∧
    Reg.status.access = .ro := by
  refine ⟨by decide, by decide, fun r => ?_, rfl⟩
  cases r with
  | curAgg a => cases a <;> decide
  | packAgg a => cases a <;> decide
  | _ => simp only [Reg.offset, BitVec.reduceToNat]; omega

theorem witness_RwWriteStoresDefinedFields : Reg.ctrl.access = .rw ∧ Reg.cfgThr.access = .rw ∧ Reg.rxD1.access = .rw := by
  decide

/-- A queue at the count's bound; the block in and out of reset, with an enabled and a masked bit set. -/
theorem witness_StatusWordAndOutputs :
    (queued 15).txq.length ≤ 15 ∧ { State.reset with rst := true }.rst = true ∧ State.reset.rst = false ∧
    irq { withRegs (fun r => { r with irqEvt := 8 }) with evt := 8 } = true ∧
    irq { withRegs (fun r => { r with irqErr := 2 }) with err := 1 } = false := by
  decide +kernel

/-- The first and the last group, with a good PEC (V10) and with a bad one under ACCEPT (V11). -/
theorem witness_ParseCvStoresCells :
    (3 : Byte).toNat < 4 ∧ (0 : Byte).toNat < 4 ∧ rxbPecMatches (withFrame 0x891C88B8 0x84ED8854) = true ∧
    (rxbPecMatches (withFrame 0x88B888B8 0xF8978980) = false ∧
      (withFrame 0x88B888B8 0xF8978980).regs.ctrl.getLsbD 0 = false) := by
  decide +kernel

theorem witness_ParseAuxStoresTemps :
    (1 : Byte).toNat < 2 ∧ (0 : Byte).toNat < 2 ∧ rxbPecMatches (withFrame 0x4E203A98 0x46FB2710) = true := by
  decide +kernel

/-- A bad PEC under DISCARD (V12). -/
theorem witness_DiscardedFrameIsNotApplied :
    let s := withRegs fun r => { r with ctrl := 3, rxb0 := 0x75307530, rxb1 := 0x9E5F7530 }
    rxbPecMatches s = false ∧ s.regs.ctrl.getLsbD 0 = true ∧ (3 : Byte).toNat < 4 ∧ (1 : Byte).toNat < 2 := by
  decide +kernel

/-- A frame that is the mirror and one that is not (R233's example, P1). -/
theorem witness_ParseCfgChecksFrame :
    [0, 1, 2, 3, 4, 5].map (rxbByte (withFrame 0 0x12C20000)) = cfgBytes (withFrame 0 0x12C20000) ∧
    [0, 1, 2, 3, 4, 5].map (rxbByte (withFrame 2 0x12C20000)) ≠ cfgBytes (withFrame 2 0x12C20000) := by
  decide +kernel

/-- Each range check at its first value out of range. -/
theorem witness_BadArgHasNoEffect :
    (∀ i ∈ [Instr.parseCv 4, .parseAux 2, .setMode 2, .linTemp 4 0, .updCell 12 0, .updTemp 4 0, .txCell 4],
      i.isCommand = true ∧ i.wf = false) ∧
    decode 0x00000405 = .error (.illegalOp 0x05) := by
  decide

theorem witness_BalanceWritesBitmap : State.reset.status.mode = .normal ∧ balancing.status.mode = .balancing := by decide

/-- Both modes complete; a write elsewhere is no close, no tick and no excluded write; two states that differ in the time
alone. -/
theorem witness_BalanceIsIdempotent :
    exec .balance State.reset = .next (after [.balance] State.reset) ∧
    exec .balance balancing = .next (after [.balance] balancing) ∧
    exec (.wr 0x004 .word 0) State.reset = .next (after [.wr 0x004 .word 0] State.reset) ∧
    (0x004 : Offset) ≠ 0x018 ∧ (0x004 : Offset) ≠ 0x054 ∧
    (let t := { State.reset with msCount := 7 };
      t.hist = State.reset.hist ∧ t.cursor = State.reset.cursor ∧ t.regs.balEps = State.reset.regs.balEps) := by
  refine ⟨rfl, rfl, rfl, by decide, by decide, rfl, rfl, rfl⟩

theorem witness_SetModeCases : State.reset.status.mode = .normal ∧ balancing.status.mode = .balancing := by decide

/-- The last sensor, with code 0, a code in between, and a code at `LIN_VREF`. -/
theorem witness_LinTempStoresTemperature :
    (3 : Byte).toNat < 4 ∧ (0 : Half).toNat = 0 ∧
    ((30000 : Half).toNat ≠ 0 ∧ State.reset.regs.linVref.toNat ≤ (30000 : Half).toNat) := by
  decide

/-- The lowest and the highest code of the formula, and a code whose temperature is clamped, all decided by the
enclosure. -/
theorem witness_LinIsBetaEquation :
    0 < (1 : Half).toNat ∧ (1 : Half).toNat < (30000 : Half).toNat ∧ thermRef 1 30000 = some 25607 ∧
    (29999 : Half).toNat < (30000 : Half).toNat ∧ thermRef 29999 30000 = some (-1158) ∧
    thermRef 1 65535 = some 32767 := by
  decide +kernel

/-- The least divisor; a negative dividend. -/
theorem witness_RoundDivIsNearest : 1 ≤ (1 : Nat) ∧ roundDiv (-7) 2 = -3 := by decide

theorem witness_UpdatesStoreOneValue : (11 : Byte).toNat < 12 ∧ (3 : Byte).toNat < 4 := by decide

theorem witness_WarmUpAverages : (1 ≤ 1 ∧ 1 ≤ 5) ∧ (1 ≤ 5 ∧ 5 ≤ 5) := by decide

/-- The last free entry, and a full queue. -/
theorem witness_SummaryFramesAreQueued : (queued 7).txq.length < 8 ∧ 8 ≤ (queued 8).txq.length := by decide +kernel

theorem witness_CellFrameIsQueued :
    (3 : Byte).toNat < 4 ∧ (queued 7).txq.length < 8 ∧ 8 ≤ (queued 8).txq.length := by
  decide +kernel

theorem witness_TelemetryBurstQueuesWhatFits : (queued 8).txq.length ≤ 8 ∧ (queued 0).txq.length ≤ 8 := by decide +kernel

theorem witness_PopRemovesTheHead : (queued 1).txq = someFrame :: [] ∧ State.reset.txq = [] := by decide +kernel

/-- No payload; no identifier; each identifier alone, and both at once. -/
theorem witness_RxFrameSetsFlags :
    State.reset.regs.rxLen = 0 ∧
    (let r := (withRegs fun r => { r with rxId := 0x300, rxLen := 8 }).regs;
      r.rxId ≠ r.idBal ∧ r.rxId ≠ r.idDiag) ∧
    (let r := (withRegs fun r => { r with rxId := 0x120, rxLen := 1 }).regs;
      r.rxLen ≠ 0 ∧ r.rxId = r.idBal ∧ r.rxId ≠ r.idDiag) ∧
    (let r := (withRegs fun r => { r with rxId := 0x121, rxLen := 8 }).regs;
      r.rxLen ≠ 0 ∧ r.rxId ≠ r.idBal ∧ r.rxId = r.idDiag) ∧
    (let r := (withRegs fun r => { r with rxId := 0x120, idDiag := 0x120, rxLen := 15 }).regs;
      r.rxLen ≠ 0 ∧ r.rxId = r.idBal ∧ r.rxId = r.idDiag) := by
  decide

theorem tick_completes (s : State) : exec .tick s = .next (after [.tick] s) := rfl

theorem close_completes (s : State) : exec .close s = .next (after [.close] s) := rfl

/-- Every branch of the table: in limits; in FAULT with the repeated frame due, and without; outside FAULT one
millisecond before the debounce interval is over, and at its end. -/
theorem witness_TickSequencerTable :
    limits (after [.close] inLimits) = 0 ∧
    (limits (after [.close] faulted) ≠ 0 ∧ faulted.status.sup = .fault) ∧
    (let s := { faulted with regs := { HostRegs.reset with ctrl := 4 }, msCount := 450 };
      s.regs.ctrl.getLsbD 2 = true ∧ s.regs.debMs.toNat ≤ (s.msCount - s.seq.lastFtx).toNat) ∧
    faulted.regs.ctrl.getLsbD 2 = false ∧
    (let s := { State.reset with msCount := 449 };
      limits (after [.close] s) ≠ 0 ∧ s.status.sup ≠ .fault ∧
        ¬ s.regs.debMs.toNat ≤ (s.msCount - s.seq.lastGood).toNat) ∧
    (let s := { State.reset with msCount := 450 };
      limits (after [.close] s) ≠ 0 ∧ s.status.sup ≠ .fault ∧
        s.regs.debMs.toNat ≤ (s.msCount - s.seq.lastGood).toNat) := by
  decide +kernel

/-- A request in either mode, and none in either mode. -/
theorem witness_TickControlCheck :
    { State.reset with status := ⟨.idleSafe, .normal, true, false, true, 0⟩ }.status.balReq = true ∧
    State.reset.status.balReq = false ∧ State.reset.status.mode = .normal ∧
    balancing.status.balReq = false ∧ balancing.status.mode = .balancing := by
  decide

/-- The strobe to ms 449 and the strobe to ms 450. -/
theorem witness_StrobeRunsTheWatchdog :
    let s := { State.reset with msCount := 448, sched := [.strobe] }
    let u := { State.reset with msCount := 449, sched := [.strobe] }
    s.rst = false ∧ s.sched = .strobe :: [] ∧ u.sched = .strobe :: [] ∧
    ¬ s.regs.debMs.toNat ≤ (s.msCount + 1 - s.seq.lastGood).toNat ∧
    (u.regs.ctrl.getLsbD 1 = true ∧ u.status.sup ≠ .fault ∧
      u.regs.debMs.toNat ≤ (u.msCount + 1 - u.seq.lastGood).toNat) := by
  decide +kernel

theorem witness_WatchdogBoundsTheDebounce :
    let s := { State.reset with msCount := 448, sched := [.strobe] }
    strobeNext s ∧ step s = .next (timeStrobe { s with sched := [] }) ∧
    (timeStrobe { s with sched := [] }).regs.ctrl.getLsbD 1 = true ∧
    1 ≤ (timeStrobe { s with sched := [] }).regs.debMs.toNat := by
  refine ⟨⟨rfl, [], rfl⟩, rfl, by decide +kernel, by decide +kernel⟩

/-- An entry by the watchdog with an empty queue and one with a full queue, and an entry by a tick. -/
theorem witness_FaultEntryActions :
    let s := { State.reset with msCount := 449, sched := [.strobe] }
    let u := { queued 8 with msCount := 449, sched := [.strobe] }
    let v := { State.reset with msCount := 450, sched := [.hostWrite 0x018 .word 0x40] }
    (s.status.sup ≠ .fault ∧ step s = .next (timeStrobe { s with sched := [] }) ∧
      (timeStrobe { s with sched := [] }).status.sup = .fault ∧ s.txq.length < 8) ∧
    (step u = .next (timeStrobe { u with sched := [] }) ∧
      (timeStrobe { u with sched := [] }).status.sup = .fault ∧ 8 ≤ u.txq.length) ∧
    (step v = .next (after [.tick] { v with sched := [] }) ∧
      (after [.tick] { v with sched := [] }).status.sup = .fault) := by
  refine ⟨⟨by decide, rfl, by decide +kernel, by decide⟩, ⟨rfl, by decide +kernel, by decide +kernel⟩, rfl,
    by decide +kernel⟩

/-- A tick that leaves FAULT, and an idle step in it. -/
theorem witness_OnlyTickStrobeAndResetMoveSup :
    let s := { inLimits with status := faulted.status }
    exec .tick s = .next (after [.tick] s) ∧ (after [.tick] s).status.sup ≠ s.status.sup ∧
    s.status.sup = .fault ∧ step s = .next s := by
  refine ⟨rfl, by decide +kernel, rfl, rfl⟩

/-- A state that is not the reset state, with a strobe to come, keeps the premises of the invariant. -/
theorem witness_InvKeptByEveryStep :
    let s := { State.reset with msCount := 7, sched := [.strobe] }
    BlockInv s ∧ step s = .next (timeStrobe { s with sched := [] }) := by
  refine ⟨⟨?_, ?_, ?_, fun _ => rfl, by decide, fun f h => ?_, .inl ⟨rfl, rfl, rfl, rfl⟩, ⟨fun _ => rfl, fun _ => rfl⟩,
    fun h => ?_, fun h => ?_⟩, rfl⟩
  · show CellFrame.zero.agg = aggsOf CellFrame.zero.cell CellFrame.zero.temp
    decide +kernel
  · intro k
    show (Vector.replicate Config.rollN CellFrame.zero)[k].aggsHold
    rw [Fin.getElem_fin, Vector.getElem_replicate]
    show CellFrame.zero.agg = aggsOf CellFrame.zero.cell CellFrame.zero.temp
    decide +kernel
  · show Aggregates.zero = packAggs (Vector.replicate Config.rollN CellFrame.zero)
    decide +kernel
  · cases h
  · cases h
  · cases h

/-- An access while `rst` is asserted. -/
theorem witness_OnlyAccessInResetIsRefused :
    let s := { State.reset with rst := true, sched := [.hostRead 0 .word] }
    s.rst = true ∧ s.sched = .hostRead 0 .word :: [] := by
  exact ⟨rfl, rfl⟩

/-- A write of another register, with error bits set: neither reset nor a write of `ERR` or `EVT`. -/
theorem witness_StickyBitsStay :
    let s := { State.reset with err := 0x3FF, evt := 0xF, sched := [.hostWrite 0x004 .word 0] }
    step s = .next (after [.wr 0x004 .word 0] { s with sched := [] }) ∧
    ¬ resetNext s ∧ ¬ writeNext s 0x00C ∧ ¬ writeNext s 0x010 := by
  refine ⟨rfl, ?_, ?_, ?_⟩
  · rintro ⟨rest, h⟩
    cases h
  · rintro ⟨-, v, rest, h⟩
    exact absurd h (by simp)
  · rintro ⟨-, v, rest, h⟩
    exact absurd h (by simp)

theorem witness_ErrorsDoNotSteerCommands :
    Instr.txqPop.isCommand = true ∧
    exec .txqPop { State.reset with err := 0 } = .next (after [.txqPop] { State.reset with err := 0 }) := by
  exact ⟨rfl, rfl⟩

theorem witness_CommandsLeaveHostRegisters :
    Instr.close.isCommand = true ∧ exec .close State.reset = .next (after [.close] State.reset) ∧
    exec (.rd 0x0C0 .word) State.reset = .next (after [.rd 0x0C0 .word] State.reset) := by
  exact ⟨rfl, rfl, rfl⟩

theorem witness_CfgPendClearedOnlyByBuild :
    exec (.buildWrcfg 1) State.reset = .next (after [.buildWrcfg 1] State.reset) ∧
    State.reset.status.cfgPend = true ∧ (after [.buildWrcfg 1] State.reset).status.cfgPend = false := by
  refine ⟨rfl, rfl, by decide +kernel⟩

/-- A close changes the cursor; with a word written to `CMD` as well. -/
theorem witness_HistoryChangesOnlyByClose :
    exec .close State.reset = .next (after [.close] State.reset) ∧
    (after [.close] State.reset).cursor ≠ State.reset.cursor ∧
    exec (.wr 0x018 .word 0x22) State.reset = .next (after [.close] State.reset) := by
  refine ⟨rfl, by decide +kernel, rfl⟩

/-- A strobe with a frame queued, and a command that is not `TXQ_POP`. -/
theorem witness_QueueHeadIsStable :
    let s := { queued 1 with sched := [.strobe] }
    step s = .next (timeStrobe { s with sched := [] }) ∧ ¬ resetNext s ∧
    (∀ w, commandNext s w → decode w ≠ .ok .txqPop) := by
  refine ⟨rfl, ?_, ?_⟩
  · rintro ⟨rest, h⟩
    cases h
  · rintro w ⟨-, rest, h⟩
    cases h

end Sys2Proof.Tests
end

section
/-! The step and the event it takes (00_scope R15): outside reset a host access is its port transaction, and a write of
a command word to `CMD` is the command. -/

namespace Sys2Proof.Machine

/-- Outside reset a host read is the transaction `rd` (R15, R401). -/
theorem step_hostRead_of_rst_false {s : State} {off : Offset} {size : AccessSize} {rest : List Event}
    (hrst : s.rst = false) (h : s.sched = .hostRead off size :: rest) :
    step s = exec (.rd off size) { s with sched := rest } := by
  simp [step_hostRead h, hrst]

/-- Outside reset a host write is the transaction `wr` (R15, R402). -/
theorem step_hostWrite_of_rst_false {s : State} {off : Offset} {size : AccessSize} {v : Word} {rest : List Event}
    (hrst : s.rst = false) (h : s.sched = .hostWrite off size v :: rest) :
    step s = exec (.wr off size v) { s with sched := rest } := by
  simp [step_hostWrite h, hrst]

/-- A host write of a command word to `CMD` is the command: the decoder gives only commands, never a port
transaction (R36, R140). -/
theorem exec_wr_cmd_of_decode {w : Word} {i : Instr} (h : decode w = .ok i) (s : State) :
    exec (.wr 0x018 .word w) s = exec i s :=
  calc exec (.wr 0x018 .word w) s
    _ = writeCmd w s := exec_wr_cmd w s
    _ = runCommand i s := by simp [writeCmd, h]
    _ = exec i s := runCommand_eq_exec (decode_isCommand h) s

/-- Settles O5: the equation of each event outside reset, and for a write to `CMD` the command behind it. -/
theorem stepRunsDecodedCommand : Obligations.StepRunsDecodedCommand := by
  intro s rest
  refine ⟨step_idle s, fun hrst => ⟨?read, ?write, ?command⟩⟩
  case read => exact fun off size h => step_hostRead_of_rst_false hrst h
  case write => exact fun off size v h => step_hostWrite_of_rst_false hrst h
  case command =>
    intro w i h hdec
    rw [step_hostWrite_of_rst_false hrst h, exec_wr_cmd_of_decode hdec]

end Sys2Proof.Machine
end

section
/-! The register map (10_state R32): each register is at its offset and at no other (20_memory R107). -/

namespace Sys2Proof.Machine

/-! The areas of the map: the tables of the low registers and the aggregates, the runs of indexed registers, the
history. -/

/-- A table of registers at successive words from `base` gives each the offset of its word. -/
theorem offset_of_table {l : List Reg} {base : Nat} (hl : ∀ k : Fin l.length, l[k].offset = base + 4 * k.val)
    {n : Nat} {r : Reg} (h : l[n]? = some r) : r.offset = base + 4 * n := by
  obtain ⟨hn, rfl⟩ := List.getElem?_eq_some_iff.mp h
  exact hl ⟨n, hn⟩

/-- A run of registers at successive words from `base` gives each the offset of its word. -/
theorem offset_of_arrayReg {k : Nat} {f : Fin k → Reg} {base : Nat} (hf : ∀ i, (f i).offset = base + 4 * i.val)
    {n : Nat} {r : Reg} (h : arrayReg k f n = some r) : r.offset = base + 4 * n := by
  unfold arrayReg at h
  split at h
  · next hn =>
    cases h
    exact hf ⟨n, hn⟩
  · cases h

/-- The history area gives each slot word the offset of its word (R60). -/
theorem offset_of_histReg {n : Nat} {r : Reg} (h : histReg n = some r) : r.offset = 0x200 + 4 * n := by
  unfold histReg at h
  split at h
  · cases h
    simp only [Reg.offset]
    omega
  · cases h

/-- Word `w` of slot `k` is word `32 k + w` of the history area (R60). -/
theorem histReg_slot_word (k : Fin Config.rollN) (w : Fin 23) : histReg (32 * k.val + w.val) = some (.hist k w) := by
  have hslot : (32 * k.val + w.val) / 32 = k.val := by omega
  have hword : (32 * k.val + w.val) % 32 = w.val := by omega
  simp [histReg, hslot, hword]

/-- From word 0x80 on the map is the history area (R32). -/
theorem regAtWord_hist (n : Nat) : regAtWord (0x80 + n) = histReg n := by
  have past : ∀ b : Nat, b ≤ 0x80 → ¬ 0x80 + n < b := by omega
  rw [regAtWord, if_neg (past _ (by decide)), if_neg (past _ (by decide)), if_neg (past _ (by decide)),
    if_neg (past _ (by decide)), if_neg (past _ (by decide)), if_neg (past _ (by decide)), if_neg (past _ (by decide)),
    Nat.add_sub_cancel_left]

/-! The two directions -/

/-- The word of a register's offset names the register. -/
theorem regAtWord_offset (r : Reg) : regAtWord (r.offset / 4) = some r := by
  cases r with
  | curCell i => revert i; decide
  | curTemp j => revert j; decide
  | auxRaw j => revert j; decide
  | curAgg a => cases a <;> rfl
  | packAgg a => cases a <;> rfl
  | lastCell i => revert i; decide
  | hist k w =>
    have hword : (Reg.hist k w).offset / 4 = 0x80 + (32 * k.val + w.val) := by
      simp only [Reg.offset]
      omega
    rw [hword, regAtWord_hist, histReg_slot_word]
  | _ => rfl

/-- A word names only the register whose offset is that word's. -/
theorem offset_of_regAtWord {n : Nat} {r : Reg} (h : regAtWord n = some r) : r.offset = 4 * n := by
  unfold regAtWord at h
  split at h
  · have := offset_of_table (base := 0) (by decide) h
    omega
  split at h
  · have := offset_of_arrayReg (base := 0x100) (fun _ => rfl) h
    omega
  split at h
  · have := offset_of_arrayReg (base := 0x130) (fun _ => rfl) h
    omega
  split at h
  · have := offset_of_arrayReg (base := 0x140) (fun _ => rfl) h
    omega
  split at h
  · rw [← List.getElem?_map] at h
    have := offset_of_table (base := 0x150) (by decide) h
    omega
  split at h
  · rw [← List.getElem?_map] at h
    have := offset_of_table (base := 0x180) (by decide) h
    omega
  split at h
  · have := offset_of_arrayReg (base := 0x1C0) (fun _ => rfl) h
    omega
  · have := offset_of_histReg h
    omega

/-- Every offset of the map is a multiple of 4 (R32). -/
theorem offset_aligned (r : Reg) : r.offset % 4 = 0 := by
  have := offset_of_regAtWord (regAtWord_offset r)
  omega

/-- Every offset is within the window of 4096 bytes (20_memory R100). -/
theorem offset_lt (r : Reg) : r.offset < 4096 := by
  cases r with
  | curCell i => revert i; decide
  | curTemp j => revert j; decide
  | auxRaw j => revert j; decide
  | curAgg a => cases a <;> decide
  | packAgg a => cases a <;> decide
  | lastCell i => revert i; decide
  | hist k w =>
    have hk : k.val < 5 := k.isLt
    simp only [Reg.offset]
    omega
  | _ => decide

/-- A whole access at a register's offset selects the register (R32). -/
@[simp] theorem busReg_offset (r : Reg) : busReg (BitVec.ofNat 12 r.offset) .word = some r := by
  have hoff : (BitVec.ofNat 12 r.offset).toNat = r.offset := by
    simpa using offset_lt r
  simp [busReg, wholeWord, hoff, offset_aligned, regAtWord_offset]

/-- An access selects only the register at its own offset (R107). -/
theorem offset_of_busReg {off : Offset} {size : AccessSize} {r : Reg} (h : busReg off size = some r) :
    off.toNat = r.offset := by
  obtain ⟨-, haligned, hword⟩ := busReg_some h
  have := offset_of_regAtWord hword
  omega

/-- Settles O7: `busReg` and `Reg.offset` are inverse to each other on whole accesses. -/
theorem registerMapOffsets : Obligations.RegisterMapOffsets :=
  ⟨fun r => ⟨offset_lt r, busReg_offset r⟩, fun _ _ _ h => ⟨(busReg_some h).1, offset_of_busReg h⟩⟩

end Sys2Proof.Machine
end

section
/-! What a host write stores (10_state R33 to R57, 20_memory R105): the defined fields of an RW register and no other
register, the bits a 1 clears, the counters. -/

namespace Sys2Proof.Machine

/-! The answer of a write at a register's offset, by the register's access kind -/

theorem exec_wr_of_rw {r : Reg} (hr : r.access = .rw) (v : Word) (s : State) :
    exec (.wr (BitVec.ofNat 12 r.offset) .word v) s = .next (storeRw r v s) := by
  simp [exec, execWr, hr]

theorem exec_wr_of_w1c {r : Reg} (hr : r.access = .w1c) (v : Word) (s : State) :
    exec (.wr (BitVec.ofNat 12 r.offset) .word v) s = .next (clearSticky r v s) := by
  simp [exec, execWr, hr]

theorem exec_wr_of_wc {r : Reg} (hr : r.access = .wc) (v : Word) (s : State) :
    exec (.wr (BitVec.ofNat 12 r.offset) .word v) s = .next (clearCounter r s) := by
  simp [exec, execWr, hr]

/-! Stored fields as the register's word shows them: each equals the written word under the register's mask -/

/-- A field at bit 0, zero-extended. -/
theorem setWidth_extractLsb'_eq_and (v : Word) (n : Nat) :
    (v.extractLsb' 0 n).setWidth 32 = v &&& BitVec.ofNat 32 (2 ^ n - 1) := by
  refine BitVec.eq_of_getLsbD_eq fun i hi => ?_
  rw [BitVec.getLsbD_setWidth, BitVec.getLsbD_extractLsb', BitVec.getLsbD_and, BitVec.getLsbD_ofNat,
    Nat.testBit_two_pow_sub_one]
  simp [hi, Bool.and_comm]

theorem and_fullMask (v : Word) : v &&& 0xFFFFFFFF = v := BitVec.and_allOnes

/-- Two fields of a half word each (`VLIM`, `TLIM`). -/
theorem halves_append_eq_and (v : Word) : v.extractLsb' 16 16 ++ v.extractLsb' 0 16 = v &&& 0xFFFFFFFF := by
  rw [and_fullMask]
  refine BitVec.eq_of_getLsbD_eq fun i hi => ?_
  simp only [BitVec.getLsbD_append, BitVec.getLsbD_extractLsb']
  by_cases h : i < 16
  · simp [h]
  · simp [h, show i - 16 < 16 by omega, show 16 + (i - 16) = i by omega]

/-- The fields of `IRQ_EN` (R39). -/
theorem irqEn_fields_eq_and (v : Word) :
    0#12 ++ v.extractLsb' 16 4 ++ 0#6 ++ v.extractLsb' 0 10 = v &&& 0x000F03FF := by
  refine BitVec.eq_of_getLsbD_eq fun i hi => ?_
  simp only [BitVec.getLsbD_append, BitVec.getLsbD_extractLsb', BitVec.getLsbD_and]
  interval_cases i <;> simp

/-- The fields of `CFG_THR` (R45). -/
theorem cfgThr_fields_eq_and (v : Word) :
    0#4 ++ v.extractLsb' 16 12 ++ 0#4 ++ v.extractLsb' 0 12 = v &&& 0x0FFF0FFF := by
  refine BitVec.eq_of_getLsbD_eq fun i hi => ?_
  simp only [BitVec.getLsbD_append, BitVec.getLsbD_extractLsb', BitVec.getLsbD_and]
  interval_cases i <;> simp

/-! A store to an RW register -/

/-- Everything a write to an RW register changes: the host's registers, and `CFG_PEND` for `CFG_A` and `CFG_THR`
(R105, R240). -/
theorem storeRw_eq (r : Reg) (v : Word) (s : State) :
    storeRw r v s = { s with
      regs := s.regs.store r v
      status := { s.status with cfgPend := s.status.cfgPend || decide (r = .cfgA ∨ r = .cfgThr) } } := by
  unfold storeRw
  by_cases h : r = .cfgA ∨ r = .cfgThr
  · simp [h, pendCfg]
  · simp [h]

/-- An RW register reads from the host's registers alone. -/
theorem readReg_congr_regs {r : Reg} (hr : r.access = .rw) {s t : State} (h : t.regs = s.regs) :
    readReg r t = readReg r s := by
  cases r <;> first | cases hr; done | simp only [readReg, h]

/-- The register written reads as the word under its mask (R33). -/
theorem readReg_storeRw_same {r : Reg} (hr : r.access = .rw) (v : Word) (s : State) :
    readReg r (storeRw r v s) = v &&& r.rwMask := by
  have hregs : readReg r (storeRw r v s) = readReg r { s with regs := s.regs.store r v } :=
    readReg_congr_regs hr (by rw [storeRw_eq])
  rw [hregs]
  cases r with
  | ctrl => exact setWidth_extractLsb'_eq_and v 4
  | irqEn => exact irqEn_fields_eq_and v
  | cfgA => exact setWidth_extractLsb'_eq_and v 7
  | cfgThr => exact cfgThr_fields_eq_and v
  | balEps | linVref => exact setWidth_extractLsb'_eq_and v 16
  | vlim | tlim => exact halves_append_eq_and v
  | rxLen => exact setWidth_extractLsb'_eq_and v 4
  | rxb0 | rxb1 | debMs | current | idVsum | idTsum | idCell | idFault | idBal | idDiag | rxId | rxD0 | rxD1 =>
    exact (and_fullMask v).symm
  | _ => cases hr

/-- No two RW registers share a field: the others read as before (R105). -/
theorem readReg_storeRw_other {r r' : Reg} (hr' : r'.access = .rw) (hne : r' ≠ r) (v : Word) (s : State) :
    readReg r' (storeRw r v s) = readReg r' s := by
  have hregs : readReg r' (storeRw r v s) = readReg r' { s with regs := s.regs.store r v } :=
    readReg_congr_regs hr' (by rw [storeRw_eq])
  rw [hregs]
  cases r' with
  | ctrl | irqEn | rxb0 | rxb1 | cfgA | cfgThr | balEps | vlim | tlim | debMs | linVref | current | idVsum | idTsum
  | idCell | idFault | idBal | idDiag | rxId | rxLen | rxD0 | rxD1 =>
    cases r <;> first | exact absurd rfl hne | rfl
  | _ => cases hr'

/-- Settles O10: the store's equation, and what each RW register reads after it. -/
theorem rwWriteStoresDefinedFields : Obligations.RwWriteStoresDefinedFields := by
  intro s r v hr
  refine ⟨storeRw r v s, exec_wr_of_rw hr v s, readReg_storeRw_same hr v s,
    fun r' hr' hne => readReg_storeRw_other hr' hne v s, ?frame⟩
  case frame => rw [storeRw_eq]

/-- Settles O11: each of the five registers by the effect of its access kind. -/
theorem stickyAndCounterWrites : Obligations.StickyAndCounterWrites := by
  intro s v
  refine ⟨?err, ?evt, ?pecErr, ?fault, ?cycle⟩
  case err =>
    rw [BitVec.setWidth_eq_extractLsb' (by decide)]
    exact exec_wr_of_w1c (r := .err) rfl v s
  case evt =>
    rw [BitVec.setWidth_eq_extractLsb' (by decide)]
    exact exec_wr_of_w1c (r := .evt) rfl v s
  case pecErr => exact exec_wr_of_wc (r := .pecErrCnt) rfl v s
  case fault => exact exec_wr_of_wc (r := .faultCnt) rfl v s
  case cycle => exact exec_wr_of_wc (r := .cycleCnt) rfl v s

end Sys2Proof.Machine
end

section
/-! `STATUS` as a number (10_state R35) and the two outputs (45_supervisor R375, 60_exceptions R430). -/

namespace Sys2Proof.Machine

/-! `STATUS` -/

/-- Fields side by side: the upper ones weigh `2 ^ n`. -/
theorem toNat_append_eq_add {m n : Nat} (x : BitVec m) (y : BitVec n) :
    (x ++ y).toNat = 2 ^ n * x.toNat + y.toNat := by
  rw [BitVec.toNat_append, ← Nat.shiftLeft_add_eq_or_of_lt y.isLt, Nat.shiftLeft_eq, Nat.mul_comm]

theorem Sup.code_toNat (x : Sup) : x.code.toNat = if x = .debSafe then 1 else if x = .fault then 2 else 0 := by
  cases x <;> rfl

theorem OpMode.code_toNat (m : OpMode) : m.code.toNat = if m = .balancing then 1 else 0 := by
  cases m <;> rfl

/-- `STATUS` is the sum of its fields at their weights, while the queue is within its 4-bit count (R35). -/
theorem statusWord_toNat (s : State) (hq : s.txq.length ≤ 15) :
    (statusWord s).toNat =
      (if s.status.sup = .debSafe then 1 else if s.status.sup = .fault then 2 else 0) +
      4 * (if s.status.mode = .balancing then 1 else 0) + 8 * s.status.balReq.toNat + 16 * s.status.diag.toNat +
      32 * s.status.cfgPend.toNat + 64 * (if s.status.sup = .fault then 0 else 1) +
      128 * (if s.dcc = 0 then 0 else 1) + 256 * s.txq.length + 4096 * s.status.cause.toNat := by
  have hilk : (ilkOkBit s).toNat = if s.status.sup = .fault then 0 else 1 := by
    by_cases h : s.status.sup = .fault <;> simp [ilkOkBit, h]
  have hdis : (s.dcc != 0).toNat = if s.dcc = 0 then 0 else 1 := by
    split <;> simp_all
  have hcnt : s.txq.length % 2 ^ 4 = s.txq.length := Nat.mod_eq_of_lt (by omega)
  simp only [statusWord, toNat_append_eq_add, BitVec.toNat_ofBool, BitVec.toNat_ofNat, Sup.code_toNat,
    OpMode.code_toNat, hilk, hdis, hcnt, Nat.zero_mod]
  omega

/-! The outputs -/

/-- Two words have a common bit exactly when some bit is set in both. -/
theorem and_ne_zero_iff {n : Nat} (x y : BitVec n) :
    x &&& y ≠ 0 ↔ ∃ k : Fin n, x.getLsbD k.val = true ∧ y.getLsbD k.val = true := by
  have hzero : x &&& y = 0 ↔ ∀ k : Fin n, (x &&& y).getLsbD k.val = false :=
    ⟨fun h k => by simp [h], fun h => BitVec.eq_of_getLsbD_eq fun i hi => by simpa using h ⟨i, hi⟩⟩
  rw [ne_eq, hzero, not_forall]
  simp only [BitVec.getLsbD_and, Bool.not_eq_false, Bool.and_eq_true]

/-- Bits 9:0 of `IRQ_EN` enable the error bits (R39). -/
theorem readReg_irqEn_errBit (s : State) (k : Fin 10) :
    (readReg .irqEn s).getLsbD k.val = s.regs.irqErr.getLsbD k.val := by
  simp only [readReg, BitVec.getLsbD_append, if_pos k.isLt]

/-- Bits 19:16 of `IRQ_EN` enable the event bits (R39). -/
theorem readReg_irqEn_evtBit (s : State) (k : Fin 4) :
    (readReg .irqEn s).getLsbD (16 + k.val) = s.regs.irqEvt.getLsbD k.val := by
  have hpastErr : ¬ 16 + k.val < 10 := by omega
  have hpastGap : ¬ 16 + k.val - 10 < 6 := by omega
  have hk : 16 + k.val - 10 - 6 = k.val := by omega
  simp only [readReg, BitVec.getLsbD_append, if_neg hpastErr, if_neg hpastGap, hk, if_pos k.isLt]

/-- While `rst` is asserted both outputs are 0 (R461). -/
theorem outputs_of_rst {s : State} (h : s.rst = true) : ilkOk s = false ∧ irq s = false := by
  simp [ilkOk, irq, h]

/-- Outside reset `ilk_ok` is 1 exactly outside FAULT (R375). -/
theorem ilkOk_iff {s : State} (h : s.rst = false) : ilkOk s = true ↔ s.status.sup ≠ .fault := by
  simp [ilkOk, ilkOkBit, h]

/-- Outside reset `irq` is 1 exactly when an enabled sticky bit is set (R430). -/
theorem irq_iff {s : State} (h : s.rst = false) :
    irq s = true ↔
      (∃ k : Fin 10, s.err.getLsbD k.val = true ∧ (readReg .irqEn s).getLsbD k.val = true) ∨
      (∃ k : Fin 4, s.evt.getLsbD k.val = true ∧ (readReg .irqEn s).getLsbD (16 + k.val) = true) := by
  simp only [readReg_irqEn_errBit, readReg_irqEn_evtBit, ← and_ne_zero_iff]
  simp [irq, h]

/-- Settles O12: the sum of the fields of `STATUS`, and the outputs in and out of reset. -/
theorem statusWordAndOutputs : Obligations.StatusWordAndOutputs := fun s =>
  ⟨statusWord_toNat s, outputs_of_rst, fun h => ⟨ilkOk_iff h, irq_iff h⟩⟩

end Sys2Proof.Machine
end

section
/-! What no command changes: the host's registers, the time, the reset input and the model's host side (10_state R66,
20_memory R109), and that the sticky bits set stay set (10_state R37, R38). One relation between two states, kept by
every part of a command. -/

namespace Sys2Proof.Machine

@[simp] theorem and_or_self_left {n : Nat} (x y : BitVec n) : x &&& (x ||| y) = x :=
  BitVec.eq_of_getLsbD_eq fun i _ => by
    rw [BitVec.getLsbD_and, BitVec.getLsbD_or]
    cases x.getLsbD i <;> rfl

/-- Every error and event bit set in `s` is set in `t` (R37, R38). -/
structure StickyKept (s t : State) : Prop where
  err : s.err &&& t.err = s.err
  evt : s.evt &&& t.evt = s.evt

/-- `t` is `s` with the block's own state changed, as a command may change it. -/
structure CommandKeeps (s t : State) : Prop extends StickyKept s t where
  regs : t.regs = s.regs
  msCount : t.msCount = s.msCount
  rst : t.rst = s.rst
  reads : t.reads = s.reads
  sched : t.sched = s.sched

theorem stickyKept_of_eq {s t : State} (herr : t.err = s.err) (hevt : t.evt = s.evt) : StickyKept s t :=
  ⟨by rw [herr, BitVec.and_self], by rw [hevt, BitVec.and_self]⟩

theorem StickyKept.trans {s t u : State} (h1 : StickyKept s t) (h2 : StickyKept t u) : StickyKept s u where
  err := by rw [← h1.err, BitVec.and_assoc, h2.err]
  evt := by rw [← h1.evt, BitVec.and_assoc, h2.evt]

/-- A change of the fields a command may change, `ERR` and `EVT` left alone. -/
theorem commandKeeps_of_frame {s t : State} (h : t = { t with
    regs := s.regs, msCount := s.msCount, rst := s.rst, reads := s.reads, sched := s.sched
    err := s.err, evt := s.evt }) : CommandKeeps s t := by
  rw [h]
  exact ⟨stickyKept_of_eq rfl rfl, rfl, rfl, rfl, rfl, rfl⟩

theorem CommandKeeps.trans {s t u : State} (h1 : CommandKeeps s t) (h2 : CommandKeeps t u) : CommandKeeps s u where
  toStickyKept := h1.toStickyKept.trans h2.toStickyKept
  regs := h2.regs.trans h1.regs
  msCount := h2.msCount.trans h1.msCount
  rst := h2.rst.trans h1.rst
  reads := h2.reads.trans h1.reads
  sched := h2.sched.trans h1.sched

/-! The parts of a command -/

theorem commandKeeps_raiseErr (e : ErrBit) (s : State) : CommandKeeps s (raiseErr e s) :=
  ⟨⟨and_or_self_left _ _, BitVec.and_self⟩, rfl, rfl, rfl, rfl, rfl⟩

theorem commandKeeps_raiseEvt (e : EvtBit) (s : State) : CommandKeeps s (raiseEvt e s) :=
  ⟨⟨BitVec.and_self, and_or_self_left _ _⟩, rfl, rfl, rfl, rfl, rfl⟩

theorem commandKeeps_setCause (c : BitVec 5) (s : State) : CommandKeeps s (setCause c s) :=
  commandKeeps_of_frame rfl

theorem commandKeeps_setMode (m : OpMode) (s : State) : CommandKeeps s (setMode m s) :=
  commandKeeps_of_frame (by unfold setMode; split <;> rfl)

theorem commandKeeps_closeCycle (s : State) : CommandKeeps s (closeCycle s) :=
  .trans (commandKeeps_of_frame (by rfl)) (commandKeeps_raiseEvt .cycle _)

theorem Pushed.commandKeeps {s t : State} (h : Pushed s t) : CommandKeeps s t where
  err := by
    rcases h.err with e | e <;> rw [e]
    · exact BitVec.and_self
    · exact and_or_self_left _ _
  evt := by rw [h.frame, BitVec.and_self]
  regs := by rw [h.frame]
  msCount := by rw [h.frame]
  rst := by rw [h.frame]
  reads := by rw [h.frame]
  sched := by rw [h.frame]

theorem commandKeeps_parseCheck (e : ErrBit) (s : State) : CommandKeeps s (parseCheck e s) := by
  unfold parseCheck
  split
  · exact commandKeeps_of_frame rfl
  · exact .trans (commandKeeps_of_frame (by rfl)) (commandKeeps_raiseErr e _)

theorem commandKeeps_applyCv (g : Fin 4) (s : State) : CommandKeeps s (applyCv g s) := by
  rw [applyCv_frame g s]
  exact commandKeeps_of_frame rfl

theorem commandKeeps_applyAux (g : Fin 2) (s : State) : CommandKeeps s (applyAux g s) := by
  rw [applyAux_frame g s]
  exact commandKeeps_of_frame rfl

/-! The parts of a tick -/

theorem commandKeeps_enterFault (c : BitVec 5) (s : State) : CommandKeeps s (enterFault c s) where
  err := by
    by_cases hfull : Config.txqDepth ≤ s.txq.length <;> simp [hfull]
  evt := by simp
  regs := by simp
  msCount := by simp
  rst := by simp
  reads := by simp
  sched := by simp

theorem commandKeeps_tickPass (s : State) : CommandKeeps s (tickPass s) := by
  unfold tickPass
  split
  · exact .trans (commandKeeps_raiseEvt .faultExit s) (commandKeeps_of_frame rfl)
  · exact commandKeeps_of_frame rfl

theorem commandKeeps_tickSequence (c : BitVec 5) (s : State) : CommandKeeps s (tickSequence c s) := by
  rcases tickSequence_cases c s with ⟨-, e⟩ | ⟨-, -, -, -, e⟩ | ⟨-, -, -, e⟩ | ⟨-, -, -, e⟩ | ⟨-, -, -, e⟩ <;> rw [e]
  · exact commandKeeps_tickPass s
  · exact .trans (pushed_fault c s).commandKeeps (commandKeeps_of_frame (by simp))
  · exact commandKeeps_of_frame rfl
  · exact commandKeeps_enterFault c s
  · exact commandKeeps_of_frame rfl

theorem commandKeeps_tickControl (s : State) : CommandKeeps s (tickControl s) := by
  rw [tickControl_frame s]
  exact commandKeeps_of_frame rfl

/-! The commands -/

/-- Every effect of a command, from the parts it is made of. -/
theorem CommandEffect.commandKeeps {s t : State} {i : Instr} (h : CommandEffect s i t) : CommandKeeps s t := by
  cases h with
  | nop | pecInit | pecByte | buildCmd | buildWrcfg | balance | linTemp | updCell | updTemp | txqPop | rxFrameNone =>
    exact commandKeeps_of_frame rfl
  | badArg | balanceNormal | txqPopEmpty => exact commandKeeps_raiseErr _ s
  | parseCvDropped | parseAuxDropped | parseCfgSame => exact commandKeeps_parseCheck _ s
  | parseCvApplied => exact .trans (commandKeeps_parseCheck _ s) (commandKeeps_applyCv _ _)
  | parseAuxApplied => exact .trans (commandKeeps_parseCheck _ s) (commandKeeps_applyAux _ _)
  | parseCfgDiffers => exact .trans (commandKeeps_parseCheck _ s) (commandKeeps_raiseErr _ _)
  | setMode => exact commandKeeps_setMode _ s
  | close => exact commandKeeps_closeCycle s
  | txVsum => exact (pushed_vsum s).commandKeeps
  | txTsum => exact (pushed_tsum s).commandKeeps
  | txCell => exact (pushed_cell _ s).commandKeeps
  | txTelem => exact (pushed_summaries s).commandKeeps
  | txTelemDiag => exact (pushed_burst s).commandKeeps
  | rxFrame =>
    exact .trans (commandKeeps_of_frame (by rfl)) (commandKeeps_raiseEvt .rxMatch { s with status := rxFlags s })
  | tick =>
    exact .trans (commandKeeps_closeCycle s) (.trans (commandKeeps_setCause _ _)
      (.trans (commandKeeps_tickSequence _ _) (commandKeeps_tickControl _)))

theorem commandKeeps_of_exec {i : Instr} (hc : i.isCommand = true) {s t : State} (h : exec i s = .next t) :
    CommandKeeps s t :=
  (command_effect hc h).commandKeeps

/-- Settles O57: a command by what its effects keep, a read by its two outcomes. -/
theorem commandsLeaveHostRegisters : Obligations.CommandsLeaveHostRegisters := by
  refine ⟨fun i s t hc h => ?command, fun off size s t h => ?read⟩
  case command =>
    have hk := commandKeeps_of_exec hc h
    exact ⟨hk.regs, hk.msCount, hk.rst, hk.reads, hk.sched⟩
  case read =>
    rcases exec_rd_inv h with ⟨-, rfl⟩ | ⟨r, -, rfl⟩
    · exact ⟨rfl, .inr rfl⟩
    · exact ⟨rfl, .inl rfl⟩

end Sys2Proof.Machine
end

section
/-! The sticky bits over a step (10_state R37, R38, 60_exceptions R423): only the host's write to `ERR` or `EVT`, or
reset, clears them. -/

namespace Sys2Proof.Machine

/-- The form in which the claims except a write to either register. -/
theorem StickyKept.imp {s t : State} (h : StickyKept s t) (p q : Prop) :
    (p → s.err &&& t.err = s.err) ∧ (q → s.evt &&& t.evt = s.evt) :=
  ⟨fun _ => h.err, fun _ => h.evt⟩

/-- A strobe clears no sticky bit; the watchdog may set some (R370, R371). -/
theorem stickyKept_timeStrobe (s : State) : StickyKept s (timeStrobe s) := by
  rcases timeStrobe_cases s with ⟨-, e⟩ | ⟨-, e⟩ <;> rw [e]
  · exact stickyKept_of_eq rfl rfl
  · exact .trans (stickyKept_of_eq (by rfl) (by rfl))
      (commandKeeps_enterFault _ (setCause (wdogCause s) { s with msCount := s.msCount + 1 })).toStickyKept

theorem stickyKept_of_exec_rd {off : Offset} {size : AccessSize} {s t : State} (h : exec (.rd off size) s = .next t) :
    StickyKept s t := by
  rcases exec_rd_inv h with ⟨-, rfl⟩ | ⟨r, -, rfl⟩
  · exact .trans (commandKeeps_raiseErr .badAddr s).toStickyKept (stickyKept_of_eq rfl rfl)
  · exact stickyKept_of_eq rfl rfl

/-- A write to one of the two sticky registers leaves the other (R37, R38). -/
theorem clearSticky_keeps (r : Reg) (v : Word) (s : State) :
    (r ≠ .err → s.err &&& (clearSticky r v s).err = s.err) ∧
    (r ≠ .evt → s.evt &&& (clearSticky r v s).evt = s.evt) := by
  unfold clearSticky
  split <;> simp

/-- A host write that does not address `ERR` keeps the error bits, one that does not address `EVT` the event bits. -/
theorem sticky_of_exec_wr {off : Offset} {size : AccessSize} {v : Word} {s t : State}
    (h : exec (.wr off size v) s = .next t) :
    (busReg off size ≠ some .err → s.err &&& t.err = s.err) ∧
    (busReg off size ≠ some .evt → s.evt &&& t.evt = s.evt) := by
  rcases exec_wr_inv h with rfl | ⟨r, -, -, rfl⟩ | ⟨r, hr, -, rfl⟩ | ⟨r, -, -, rfl⟩ | ⟨r, i, -, -, -, hc, he⟩ | rfl
  case inr.inr.inl =>
    obtain ⟨herr, hevt⟩ := clearSticky_keeps r v s
    rw [hr]
    exact ⟨fun hne => herr (by simpa using hne), fun hne => hevt (by simpa using hne)⟩
  · exact (commandKeeps_raiseErr .badAddr s).toStickyKept.imp _ _
  · exact (stickyKept_of_eq (by rw [storeRw_frame]) (by rw [storeRw_frame])).imp _ _
  · exact (stickyKept_of_eq (by rw [clearCounter_frame]) (by rw [clearCounter_frame])).imp _ _
  · exact (commandKeeps_of_exec hc he).toStickyKept.imp _ _
  · exact (commandKeeps_raiseErr .illegalCmd s).toStickyKept.imp _ _

/-- A write that addresses a register is the write the claims name by its offset (R32, R107). -/
theorem writeNext_of_busReg {s : State} {off : Offset} {size : AccessSize} {v : Word} {rest : List Event} {r : Reg}
    (hs : s.sched = .hostWrite off size v :: rest) (hrst : s.rst = false) (h : busReg off size = some r) :
    writeNext s (BitVec.ofNat 12 r.offset) := by
  obtain ⟨rfl, -, -⟩ := busReg_some h
  have hoff : BitVec.ofNat 12 r.offset = off := by rw [← offset_of_busReg h, BitVec.ofNat_toNat, BitVec.setWidth_eq]
  rw [hoff]
  exact ⟨hrst, v, rest, hs⟩

/-- Settles O55: every event but the reset keeps both registers' bits, but for a host write to the register itself. -/
theorem stickyBitsStay : Obligations.StickyBitsStay := by
  intro s t h hreset
  have htake (rest : List Event) : StickyKept s { s with sched := rest } := stickyKept_of_eq rfl rfl
  rcases step_cases h with ⟨-, rfl⟩ | ⟨rest, hs, -⟩ | ⟨rest, -, rfl⟩ | ⟨rest, -, -, rfl⟩ | ⟨rest, -, -, rfl⟩ |
    ⟨off, size, rest, -, -, he⟩ | ⟨off, size, v, rest, hs, hrst, he⟩
  · exact (stickyKept_of_eq rfl rfl).imp _ _
  · exact absurd ⟨rest, hs⟩ hreset
  · exact (stickyKept_of_eq rfl rfl).imp _ _
  · exact (htake rest).imp _ _
  · exact ((htake rest).trans (stickyKept_timeStrobe _)).imp _ _
  · exact ((htake rest).trans (stickyKept_of_exec_rd he)).imp _ _
  · obtain ⟨herr, hevt⟩ := sticky_of_exec_wr he
    exact ⟨fun hw => herr fun hb => hw (writeNext_of_busReg (r := .err) hs hrst hb),
      fun hw => hevt fun hb => hw (writeNext_of_busReg (r := .evt) hs hrst hb)⟩

end Sys2Proof.Machine
end

section
/-! A bad access (20_memory R106, R107): an offset or width that selects no register, or a write to a read-only one. -/

namespace Sys2Proof.Machine

/-- An access that is no whole aligned word at a register's offset selects no register (R106, R107). -/
theorem busReg_none_of_bad {off : Offset} {size : AccessSize}
    (h : size ≠ .word ∨ off.toNat % 4 ≠ 0 ∨ ∀ r : Reg, r.offset ≠ off.toNat) : busReg off size = none := by
  cases hreg : busReg off size with
  | none => rfl
  | some r =>
    obtain ⟨hsize, haligned, -⟩ := busReg_some hreg
    rcases h with hnarrow | hmisaligned | hunmapped
    · exact absurd hsize hnarrow
    · exact absurd haligned hmisaligned
    · exact absurd (offset_of_busReg hreg).symm (hunmapped r)

/-- A write that selects no register (R106). -/
theorem exec_wr_unmapped {off : Offset} {size : AccessSize} (h : busReg off size = none) (v : Word) (s : State) :
    exec (.wr off size v) s = .next (raiseErr .badAddr s) := by
  simp [exec, execWr, h]

/-- A write to a read-only register (R106). -/
theorem exec_wr_of_ro {r : Reg} (hr : r.access = .ro) (v : Word) (s : State) :
    exec (.wr (BitVec.ofNat 12 r.offset) .word v) s = .next (raiseErr .badAddr s) := by
  simp [exec, execWr, hr]

/-- Settles O9: no register is selected, or a read-only one is; either way the answer is `raise BAD_ADDR`, bit 9 of
`ERR` (R37). -/
theorem badAddressOnlySetsItsBit : Obligations.BadAddressOnlySetsItsBit := by
  intro s off size v
  refine ⟨fun hbad => ⟨?read, ?write⟩, fun r hro => ?readOnly⟩
  case read => exact exec_rd_unmapped (busReg_none_of_bad hbad) s
  case write => exact exec_wr_unmapped (busReg_none_of_bad hbad) v s
  case readOnly => exact exec_wr_of_ro hro v s

end Sys2Proof.Machine
end

section
/-! What a read of each register shows (10_state R31 to R64, 20_memory R104): its fields as a number, the head of the
transmit queue, the words of a frame. -/

namespace Sys2Proof.Machine

/-! Registers of several fields, and computed ones, as numbers -/

/-- `IRQ_EN` (R39). -/
theorem readReg_irqEn_toNat (s : State) :
    (readReg .irqEn s).toNat = s.regs.irqErr.toNat + 2 ^ 16 * s.regs.irqEvt.toNat := by
  simp only [readReg, toNat_append_eq_add, BitVec.toNat_zero]
  omega

/-- `CFG_THR` (R45). -/
theorem readReg_cfgThr_toNat (s : State) :
    (readReg .cfgThr s).toNat = s.regs.vuv.toNat + 2 ^ 16 * s.regs.vov.toNat := by
  simp only [readReg, toNat_append_eq_add, BitVec.toNat_zero]
  omega

/-- `VLIM` (R49). -/
theorem readReg_vlim_toNat (s : State) :
    (readReg .vlim s).toNat = s.regs.vminLim.toNat + 2 ^ 16 * s.regs.vmaxLim.toNat := by
  simp only [readReg, toNat_append_eq_add]
  omega

/-- `TLIM`, its two patterns (R50). -/
theorem readReg_tlim_toNat (s : State) :
    (readReg .tlim s).toNat = s.regs.tminLim.toNat + 2 ^ 16 * s.regs.tmaxLim.toNat := by
  simp only [readReg, toNat_append_eq_add]
  omega

/-- `PEC_OUT`: the remainder shifted into 16 bits loses none of its 15 (R41). -/
theorem readReg_pecOut_toNat (s : State) : (readReg .pecOut s).toNat = 2 * s.pecRem.toNat := by
  have hrem := s.pecRem.isLt
  simp only [readReg, zext32_toNat, pecWire, BitVec.toNat_shiftLeft, BitVec.toNat_setWidth, Nat.shiftLeft_eq]
  omega

/-- `CURSOR` (R59). -/
theorem readReg_cursor_toNat (s : State) : (readReg .cursor s).toNat = s.cursor.val := by
  have hslot : s.cursor.val < 5 := s.cursor.isLt
  exact Nat.mod_eq_of_lt (by omega)

/-! The head of the transmit queue (R56) -/

/-- With the queue empty its four registers read 0. -/
theorem readReg_txq_of_nil {s : State} (h : s.txq = []) :
    ∀ r ∈ [Reg.txqId, .txqLen, .txqD0, .txqD1], readReg r s = 0 := by
  simp [readReg, txqHead, h]

/-- The word of four bytes, as a number (R102). -/
theorem wordOf_toNat (b0 b1 b2 b3 : Byte) :
    (wordOf b0 b1 b2 b3).toNat = b0.toNat + 0x100 * b1.toNat + 0x10000 * b2.toNat + 0x1000000 * b3.toNat := by
  simp only [wordOf, toNat_append_eq_add]
  omega

/-- The bytes of a word are those it is made of (R102). -/
theorem byteOf_wordOf (b0 b1 b2 b3 : Byte) : [0, 1, 2, 3].map (byteOf (wordOf b0 b1 b2 b3)) = [b0, b1, b2, b3] := by
  have h0 := b0.isLt
  have h1 := b1.isLt
  have h2 := b2.isLt
  have h3 := b3.isLt
  simp only [List.map_cons, List.map_nil, List.cons.injEq, ← BitVec.toNat_inj, byteOf_toNat, wordOf_toNat,
    Nat.reduceMul, Nat.reducePow, and_true]
  omega

/-- The data of a queue entry, byte by byte (R65). -/
theorem toList_vector_eight (d : Vector Byte 8) : d.toList = [d[0], d[1], d[2], d[3], d[4], d[5], d[6], d[7]] := by
  refine List.ext_getElem (by simp) fun k hk _ => ?_
  have hlt : k < 8 := by simpa using hk
  rw [Vector.getElem_toList]
  interval_cases k <;> rfl

/-- The head as its four registers show it: the data bytes in two words, byte 0 lowest. -/
theorem txqHead_of_cons {s : State} {f : BusFrame} {rest : List BusFrame} (h : s.txq = f :: rest) :
    txqHead s = (f.id, BitVec.ofNat 32 f.len.val, wordOf f.data[0] f.data[1] f.data[2] f.data[3],
      wordOf f.data[4] f.data[5] f.data[6] f.data[7]) := by
  simp [txqHead, h]

/-- The head's identifier, length and eight data bytes. -/
theorem readReg_txq_of_cons {s : State} {f : BusFrame} {rest : List BusFrame} (h : s.txq = f :: rest) :
    readReg .txqId s = f.id ∧ (readReg .txqLen s).toNat = f.len.val ∧
      [0, 1, 2, 3].map (byteOf (readReg .txqD0 s)) ++ [0, 1, 2, 3].map (byteOf (readReg .txqD1 s)) = f.data.toList := by
  simp only [readReg, txqHead_of_cons h, byteOf_wordOf, toList_vector_eight, List.cons_append, List.nil_append,
    true_and, and_true]
  exact Nat.mod_eq_of_lt (by omega)

/-! A history slot's words (R60) -/

/-- Words 0 to 11: the cells, unsigned. -/
theorem readReg_hist_cell (s : State) (k : Fin 5) (i : Fin 12) :
    (readReg (.hist k ⟨i.val, by omega⟩) s).toNat = (s.hist[k].cell[i]).toNat := by
  simp [readReg, frameWord]

/-- Words 12 to 15: the temperatures, signed. -/
theorem readReg_hist_temp (s : State) (k : Fin 5) (j : Fin 4) :
    (readReg (.hist k ⟨12 + j.val, by omega⟩) s).toInt = (s.hist[k].temp[j]).toInt := by
  have htemp : 12 + j.val < 16 := by omega
  simp [readReg, frameWord, htemp]

/-- Words 16 to 22: the aggregates. -/
theorem readReg_hist_agg (s : State) (k : Fin 5) (a : AggField) :
    readReg (.hist k a.slotWord) s = aggWord s.hist[k].agg a := by
  cases a <;> rfl

/-- Settles O8: the answer of a read at a register's offset, then the word of each register: its fields as a number,
the queue's head, and the values of a frame and of the aggregates. -/
theorem mappedReadReturnsRegister : Obligations.MappedReadReturnsRegister := by
  intro s
  refine ⟨fun r => exec_rd_mapped (busReg_offset r) s, ?numbers, readReg_txq_of_nil, fun _ _ => readReg_txq_of_cons,
    fun i => zext32_toNat _, fun j => sext32_toInt _, fun j => zext32_toNat _, fun i => zext32_toNat _,
    aggWord_shows s.cur.agg, aggWord_shows s.pack,
    fun k => ⟨readReg_hist_cell s k, readReg_hist_temp s k, ?slotAggs⟩⟩
  case numbers =>
    -- the registers with a lemma of their own first; every other one holds one field, whole or zero-extended
    simp only [List.cons_append, List.nil_append, List.forall_mem_cons, readReg_irqEn_toNat, readReg_cfgThr_toNat,
      readReg_vlim_toNat, readReg_tlim_toNat, readReg_pecOut_toNat, readReg_cursor_toNat]
    simp [readReg, BitVec.toNat_setWidth_of_le, -BitVec.toNat_setWidth]
  case slotAggs =>
    simpa only [readReg_hist_agg] using aggWord_shows s.hist[k].agg

end Sys2Proof.Machine
end

section
/-! The command word (30_encoding R141 to R144, R160): what decode reads from a word built of fields, and which OP
values it rejects. -/

namespace Sys2Proof

/-- A built word decodes to what its row of the opcode map makes of its two operand fields (R141, R143): `hrow` is the
decoder's lemma for that row. -/
theorem decode_commandWord {op : Byte} {row : Byte → Half → Instr}
    (hrow : ∀ {w : Word}, (opOf w).toNat = op.toNat → decode w = .ok (row (aOf w) (bOf w))) (a : Byte) (b : Half) :
    decode (commandWord op a b) = .ok (row a b) := by
  simpa using hrow (w := commandWord op a b) (by simp)

/-! The rows by the fields they use (R142) -/

theorem decode_ignores_operands {op : Byte} {i : Instr}
    (hrow : ∀ {w : Word}, (opOf w).toNat = op.toNat → decode w = .ok i) (a : Byte) (b : Half) :
    decode (commandWord op a b) = decode (commandWord op 0 0) := by
  have h := decode_commandWord (row := fun _ _ => i) hrow
  rw [h a b, h 0 0]

theorem decode_ignores_b {op : Byte} {row : Byte → Instr}
    (hrow : ∀ {w : Word}, (opOf w).toNat = op.toNat → decode w = .ok (row (aOf w))) (a : Byte) (b : Half) :
    decode (commandWord op a b) = decode (commandWord op a 0) := by
  have h := decode_commandWord (row := fun a _ => row a) hrow
  rw [h a b, h a 0]

theorem decode_ignores_a {op : Byte} {row : Half → Instr}
    (hrow : ∀ {w : Word}, (opOf w).toNat = op.toNat → decode w = .ok (row (bOf w))) (a : Byte) (b : Half) :
    decode (commandWord op a b) = decode (commandWord op 0 b) := by
  have h := decode_commandWord (row := fun _ b => row b) hrow
  rw [h a b, h 0 b]

/-! The OP values the map leaves out (R144) -/

/-- The OP values outside the opcode map, as R144 lists them. -/
def IllegalOp (op : Nat) : Prop :=
  (0x05 ≤ op ∧ op ≤ 0x0F) ∨ (0x15 ≤ op ∧ op ≤ 0x17) ∨ (0x19 ≤ op ∧ op ≤ 0x1F) ∨
    (0x23 ≤ op ∧ op ≤ 0x2F) ∨ (0x35 ≤ op ∧ op ≤ 0x37) ∨ (0x39 ≤ op ∧ op ≤ 0x3F) ∨ (0x41 ≤ op ∧ op ≤ 0xFF)

/-- A word's OP is illegal and the word is rejected by it, or is legal and the word is a command (R140, R144). -/
theorem decode_cases (w : Word) :
    (IllegalOp (opOf w).toNat ∧ decode w = .error (.illegalOp (opOf w))) ∨
    (¬ IllegalOp (opOf w).toNat ∧ ∃ i, decode w = .ok i) := by
  have hop : (opOf w).toNat < 256 := (opOf w).isLt
  unfold decode IllegalOp
  split
  case h_22 => -- the default arm
    refine .inl ⟨?_, rfl⟩
    simp only [imp_false] at *
    omega
  all_goals exact .inr ⟨by omega, _, rfl⟩

/-! The statements about the decoder alone -/

/-- Settles O1: `encode` fills in the fields of the command's row, and that row reads them back. -/
theorem decodeOfEncode : Obligations.DecodeOfEncode := by
  intro i hcommand
  cases i with
  | nop => exact ⟨_, rfl, decode_nop (by simp)⟩
  | pecInit => exact ⟨_, rfl, decode_pecInit (by simp)⟩
  | pecByte b => exact ⟨_, rfl, decode_commandWord (row := fun a _ => .pecByte a) decode_pecByte b 0⟩
  | buildCmd c => exact ⟨_, rfl, decode_commandWord (row := fun _ b => .buildCmd b) decode_buildCmd 0 c⟩
  | buildWrcfg c => exact ⟨_, rfl, decode_commandWord (row := fun _ b => .buildWrcfg b) decode_buildWrcfg 0 c⟩
  | parseCv g => exact ⟨_, rfl, decode_commandWord (row := fun a _ => .parseCv a) decode_parseCv g 0⟩
  | parseAux g => exact ⟨_, rfl, decode_commandWord (row := fun a _ => .parseAux a) decode_parseAux g 0⟩
  | parseCfg => exact ⟨_, rfl, decode_parseCfg (by simp)⟩
  | balance => exact ⟨_, rfl, decode_balance (by simp)⟩
  | setMode m => exact ⟨_, rfl, decode_commandWord (row := fun a _ => .setMode a) decode_setMode m 0⟩
  | linTemp j code => exact ⟨_, rfl, decode_commandWord (row := .linTemp) decode_linTemp j code⟩
  | updCell k v => exact ⟨_, rfl, decode_commandWord (row := .updCell) decode_updCell k v⟩
  | updTemp j t => exact ⟨_, rfl, decode_commandWord (row := .updTemp) decode_updTemp j t⟩
  | close => exact ⟨_, rfl, decode_close (by simp)⟩
  | txVsum => exact ⟨_, rfl, decode_txVsum (by simp)⟩
  | txTsum => exact ⟨_, rfl, decode_txTsum (by simp)⟩
  | txCell k => exact ⟨_, rfl, decode_commandWord (row := fun a _ => .txCell a) decode_txCell k 0⟩
  | txTelem => exact ⟨_, rfl, decode_txTelem (by simp)⟩
  | txqPop => exact ⟨_, rfl, decode_txqPop (by simp)⟩
  | rxFrame => exact ⟨_, rfl, decode_rxFrame (by simp)⟩
  | tick => exact ⟨_, rfl, decode_tick (by simp)⟩
  | rd | wr => cases hcommand

/-- Settles O3: row by row, in the order of the three lists. -/
theorem unusedFieldsAreIgnored : Obligations.UnusedFieldsAreIgnored := by
  simp only [Obligations.UnusedFieldsAreIgnored, List.forall_mem_cons, List.not_mem_nil, false_imp_iff, forall_const,
    and_true]
  refine ⟨⟨?nop, ?pecInit, ?parseCfg, ?balance, ?close, ?txVsum, ?txTsum, ?txTelem, ?txqPop, ?rxFrame, ?tick⟩,
    ⟨?pecByte, ?parseCv, ?parseAux, ?setMode, ?txCell⟩, ?buildCmd, ?buildWrcfg⟩
  case nop => exact decode_ignores_operands decode_nop
  case pecInit => exact decode_ignores_operands decode_pecInit
  case parseCfg => exact decode_ignores_operands decode_parseCfg
  case balance => exact decode_ignores_operands decode_balance
  case close => exact decode_ignores_operands decode_close
  case txVsum => exact decode_ignores_operands decode_txVsum
  case txTsum => exact decode_ignores_operands decode_txTsum
  case txTelem => exact decode_ignores_operands decode_txTelem
  case txqPop => exact decode_ignores_operands decode_txqPop
  case rxFrame => exact decode_ignores_operands decode_rxFrame
  case tick => exact decode_ignores_operands decode_tick
  case pecByte => exact decode_ignores_b decode_pecByte
  case parseCv => exact decode_ignores_b decode_parseCv
  case parseAux => exact decode_ignores_b decode_parseAux
  case setMode => exact decode_ignores_b decode_setMode
  case txCell => exact decode_ignores_b decode_txCell
  case buildCmd => exact decode_ignores_a decode_buildCmd
  case buildWrcfg => exact decode_ignores_a decode_buildWrcfg

end Sys2Proof
end

section
/-! What the two command errors leave (30_encoding R144, R145, 60_exceptions R420): a word that is no command and an
operand out of range each set their bit of `ERR` and nothing else. -/

namespace Sys2Proof.Machine

/-- A word that is no command raises ILLEGAL_CMD when the host writes it to `CMD` (R36, R144). -/
theorem exec_wr_cmd_of_decode_error {w : Word} {e : DecodeError} (h : decode w = .error e) (s : State) :
    exec (.wr 0x018 .word w) s = .next (raiseErr .illegalCmd s) := by
  rw [exec_wr_cmd]
  rcases writeCmd_cases w s with ⟨i, hok, -⟩ | ⟨-, -, hwrite⟩
  · cases h.symm.trans hok
  · exact hwrite

/-- A command with an operand out of range raises BAD_ARG (R145). -/
theorem exec_badArg_of_not_wf {i : Instr} (hc : i.isCommand = true) (hwf : i.wf = false) (s : State) :
    exec i s = .next (raiseErr .badArg s) := by
  cases i with
  | parseCv g => exact exec_parseCv_bad g s (of_decide_eq_false hwf)
  | parseAux g => exact exec_parseAux_bad g s (of_decide_eq_false hwf)
  | setMode m => exact exec_setMode_bad m s (of_decide_eq_false hwf)
  | linTemp j code => exact exec_linTemp_bad j code s (of_decide_eq_false hwf)
  | updCell k v => exact exec_updCell_bad k v s (of_decide_eq_false hwf)
  | updTemp j t => exact exec_updTemp_bad j t s (of_decide_eq_false hwf)
  | txCell k => exact exec_txCell_bad k s (of_decide_eq_false hwf)
  | rd | wr => cases hc
  | _ => cases hwf

/-- Settles O2: the two cases of the decoder exclude each other by the OP value. -/
theorem illegalOpRaisesIllegalCmd : Obligations.IllegalOpRaisesIllegalCmd := by
  intro w s
  rcases decode_cases w with ⟨hillegal, herr⟩ | ⟨hlegal, i, hok⟩
  · exact ⟨fun _ => ⟨herr, exec_wr_cmd_of_decode_error herr s⟩, fun hlegal => absurd hillegal hlegal⟩
  · exact ⟨fun hillegal => absurd hillegal hlegal, fun _ => ⟨i, hok, decode_isCommand hok⟩⟩

/-- Settles O25: BAD_ARG is bit 1 of `ERR`, ILLEGAL_CMD bit 0 (R37). -/
theorem badArgHasNoEffect : Obligations.BadArgHasNoEffect :=
  ⟨fun _ s hc hwf => exec_badArg_of_not_wf hc hwf s, fun _ s _ h => exec_wr_cmd_of_decode_error h s⟩

end Sys2Proof.Machine
end

section
/-! The PEC engine (40_pec R200 to R208): one fold in the naturals, the PEC as a number and of a longer sequence, the
streaming engine over a sequence, and the frames the builder leaves in `TXB`. -/

namespace Sys2Proof.Machine

/-! The fold and the PEC (R201, R202) -/

/-- The table index of a fold: bits 14:7 of the remainder, with the byte (R202). -/
theorem pecIndex_eq (rem : BitVec 15) (b : Byte) :
    (rem >>> 7).setWidth 8 ^^^ b = BitVec.ofNat 8 (((rem.toNat >>> 7) ^^^ b.toNat) &&& 0xFF) := by
  apply BitVec.eq_of_toNat_eq
  have hmask : ∀ n, n &&& 0xFF = n % 2 ^ 8 := fun n => Nat.and_two_pow_sub_one_eq_mod n 8
  simp only [BitVec.toNat_xor, BitVec.toNat_setWidth, BitVec.toNat_ushiftRight, BitVec.toNat_ofNat, hmask, Nat.mod_mod,
    Nat.xor_mod_two_pow, Nat.mod_eq_of_lt b.isLt]

/-- Settles O15: truncation to 15 bits commutes with the exclusive or. -/
theorem foldOnNaturals : Obligations.FoldOnNaturals := by
  intro rem b
  rw [← pecIndex_eq, pecFold, BitVec.toNat_xor, BitVec.toNat_shiftLeft, BitVec.toNat_setWidth, Nat.xor_mod_two_pow]

/-- The PEC on the wire is twice the remainder, as `PEC_OUT` shows it of any `PEC_REM` (R41, R201). -/
theorem pecWire_toNat (rem : BitVec 15) : (pecWire rem).toNat = 2 * rem.toNat :=
  (zext32_toNat _).symm.trans (readReg_pecOut_toNat { State.reset with pecRem := rem })

/-- Bit 0 of a PEC is the one the shift brings in (R207). -/
theorem pecWire_getLsbD_zero (rem : BitVec 15) : (pecWire rem).getLsbD 0 = false := by
  simp [pecWire]

/-- The PEC shifted right is the remainder it was made of (R207). -/
theorem ofNat_pec_shiftRight (bytes : List Byte) :
    BitVec.ofNat 15 ((pec bytes).toNat >>> 1) = pecRemainder bytes := by
  apply BitVec.eq_of_toNat_eq
  have hrem := (pecRemainder bytes).isLt
  rw [pec, pecWire_toNat, BitVec.toNat_ofNat, Nat.shiftRight_eq_div_pow]
  omega

theorem pecRemainder_append_singleton (bytes : List Byte) (b : Byte) :
    pecRemainder (bytes ++ [b]) = pecFold (pecRemainder bytes) b := by
  simp [pecRemainder]

/-- Appending a byte folds it into the shifted PEC (R207). -/
theorem pec_append_singleton (bytes : List Byte) (b : Byte) :
    (pec (bytes ++ [b])).toNat =
      ((pecFold (BitVec.ofNat 15 ((pec bytes).toNat >>> 1)) b).toNat <<< 1) % 2 ^ 16 := by
  have hfold := (pecFold (pecRemainder bytes) b).isLt
  rw [ofNat_pec_shiftRight, pec, pecRemainder_append_singleton, pecWire_toNat, Nat.shiftLeft_eq]
  omega

/-- Settles O17: the three properties of R207, then the published constants by running the model (R208). -/
theorem pecProperties : Obligations.PecProperties :=
  ⟨rfl, fun _ => pecWire_getLsbD_zero _, pec_append_singleton, rfl, rfl⟩

/-! The streaming engine (R203, R204) -/

/-- Settles O14: the two commands' equations, and the seed as `PEC_OUT` shows it. -/
theorem pecInitAndPecByte : Obligations.PecInitAndPecByte :=
  fun s b => ⟨exec_pecInit s, rfl, exec_pecByte b s⟩

/-- A sequence runs on from the state its first instruction answers. -/
theorem execAll_cons_of_next {i : Instr} {s t : State} (h : exec i s = .next t) (is : List Instr) :
    execAll (i :: is) s = execAll is t := by
  rw [execAll, h]

/-- One PEC_BYTE for each byte folds the bytes in order into the remainder (R204). -/
theorem execAll_pecBytes (bytes : List Byte) (s : State) :
    execAll (bytes.map .pecByte) s = .next { s with pecRem := bytes.foldl pecFold s.pecRem } := by
  induction bytes generalizing s with
  | nil => rfl
  | cons b bs ih => exact (execAll_cons_of_next (exec_pecByte b s) _).trans (ih _)

/-- Settles O16: from the seed the streamed remainder is the remainder of `Pec`. -/
theorem streamedBytesGivePec : Obligations.StreamedBytesGivePec := fun s bytes =>
  ⟨{ s with pecRem := pecRemainder bytes },
    (execAll_cons_of_next (exec_pecInit s) _).trans (execAll_pecBytes bytes _), rfl, rfl⟩

/-! The frame builder (R205, R206) -/

/-- A big-endian half word is its high byte and its low byte (R13). -/
theorem be16_eq (v : Half) : be16 v = [hiByte v, loByte v] := by
  have hhi : v.extractLsb' 8 8 = hiByte v := BitVec.eq_of_toNat_eq (by
    simp [hiByte, BitVec.extractLsb'_toNat, Nat.shiftRight_eq_div_pow])
  have hlo : v.extractLsb' 0 8 = loByte v := BitVec.eq_of_toNat_eq (by simp [loByte, BitVec.extractLsb'_toNat])
  rw [be16, hhi, hlo]

/-- `TXB` holds the bytes it was built of, with zeros after them (R43). -/
theorem txbBytes_of_txBuffer {s : State} {b : List Byte} {len : BitVec 4} (h : s.txb = txBuffer b len) :
    txbBytes s = (List.range 12).map fun k => b.getD k 0 := by
  have hwords : txbBytes s = [0, 1, 2, 3].map (byteOf s.txb.w0) ++ [0, 1, 2, 3].map (byteOf s.txb.w1) ++
    [0, 1, 2, 3].map (byteOf s.txb.w2) := rfl
  rw [hwords, h]
  simp only [txBuffer, byteOf_wordOf]
  rfl

/-- The four bytes of a command frame (R150). -/
theorem commandFrame_eq (c : Half) :
    commandFrame c = [hiByte c, loByte c, hiByte (pec [hiByte c, loByte c]), loByte (pec [hiByte c, loByte c])] := by
  simp only [commandFrame, be16_eq, List.cons_append, List.nil_append]

/-- The twelve bytes of a write-configuration frame: a command frame, the configuration and its PEC (R151). -/
theorem wrcfgFrame_eq (c : Half) (cfg : List Byte) :
    wrcfgFrame c cfg =
      [hiByte c, loByte c, hiByte (pec [hiByte c, loByte c]), loByte (pec [hiByte c, loByte c])] ++ cfg ++
        [hiByte (pec cfg), loByte (pec cfg)] := by
  rw [wrcfgFrame, commandFrame_eq, be16_eq]

/-- Settles O18: the buffer's bytes are the frame's, padded. -/
theorem buildCmdFrame : Obligations.BuildCmdFrame := by
  intro s c p
  refine ⟨_, exec_buildCmd c s, ?bytes, rfl, rfl⟩
  case bytes =>
    rw [txbBytes_of_txBuffer rfl, commandFrame_eq]
    rfl

/-- Settles O19: the frame fills the buffer, so no padding follows it. -/
theorem buildWrcfgFrame : Obligations.BuildWrcfgFrame := by
  intro s c p q
  refine ⟨_, exec_buildWrcfg c s, ?bytes, rfl, rfl⟩
  case bytes =>
    rw [txbBytes_of_txBuffer rfl, wrcfgFrame_eq]
    rfl

/-! The command words the spec writes out -/

/-- Settles O4: each word by its row of the opcode map (R143) and the fields it holds. -/
theorem specWordsDecode : Obligations.SpecWordsDecode :=
  ⟨decode_buildCmd rfl, decode_parseCv rfl, decode_linTemp rfl, decode_updCell rfl, decode_updTemp rfl,
    decode_txCell rfl, decode_tick rfl⟩

end Sys2Proof.Machine
end

section
/-! The configuration mirror (41_protocol R241): the six bytes as numbers, and the two registers that show them. -/

namespace Sys2Proof.Machine

/-- A field of a word, as a number. -/
theorem extractLsb'_toNat_eq_div {n : Nat} (x : BitVec n) (start len : Nat) :
    (x.extractLsb' start len).toNat = x.toNat / 2 ^ start % 2 ^ len := by
  rw [BitVec.extractLsb'_toNat, Nat.shiftRight_eq_div_pow]

/-- `CFG[0]`: bit 1 is the reserved 0 between `ADCOPT` and `REFON`. -/
theorem cfg0_toNat (s : State) : (cfg0 s).toNat =
    s.regs.cfgA.toNat % 2 + 4 * (s.regs.cfgA.toNat / 2 % 2) + 8 * (s.regs.cfgA.toNat / 4) := by
  have ha := s.regs.cfgA.isLt
  simp only [cfg0, toNat_append_eq_add, extractLsb'_toNat_eq_div, BitVec.toNat_zero]
  omega

theorem cfg1_toNat (s : State) : (cfg1 s).toNat = s.regs.vuv.toNat % 256 := by
  rw [cfg1, extractLsb'_toNat_eq_div]
  omega

theorem cfg2_toNat (s : State) : (cfg2 s).toNat = s.regs.vuv.toNat / 256 + 16 * (s.regs.vov.toNat % 16) := by
  have huv := s.regs.vuv.isLt
  simp only [cfg2, toNat_append_eq_add, extractLsb'_toNat_eq_div]
  omega

theorem cfg3_toNat (s : State) : (cfg3 s).toNat = s.regs.vov.toNat / 16 := by
  have hov := s.regs.vov.isLt
  rw [cfg3, extractLsb'_toNat_eq_div]
  omega

theorem cfg4_toNat (s : State) : (cfg4 s).toNat = s.dcc.toNat % 256 := by
  rw [cfg4, extractLsb'_toNat_eq_div]
  omega

theorem cfg5_toNat (s : State) : (cfg5 s).toNat = s.dcc.toNat / 256 := by
  have hd := s.dcc.isLt
  simp only [cfg5, toNat_append_eq_add, extractLsb'_toNat_eq_div, BitVec.toNat_zero]
  omega

/-- Settles O20: byte by byte, then the bytes of the two words `CFGB0` and `CFGB1`. -/
theorem cfgBytesLayout : Obligations.CfgBytesLayout := by
  intro s a uv ov d
  refine ⟨?bytes, ?registers⟩
  case bytes =>
    simp only [cfgBytes, List.map_cons, List.map_nil, cfg0_toNat, cfg1_toNat, cfg2_toNat, cfg3_toNat, cfg4_toNat,
      cfg5_toNat, a, uv, ov, d]
  case registers =>
    rw [readReg, readReg, byteOf_wordOf, byteOf_wordOf]
    rfl

end Sys2Proof.Machine
end

section
/-! The frame parser (41_protocol R230 to R233): what the PEC check leaves and counts, when a frame is applied, and
what applying a group stores. -/

namespace Sys2Proof.Machine

/-! The PEC check (R230) -/

/-- The PEC check leaves what the parser reads of the frame and of the state it stores into. -/
@[simp] theorem parseCheck_kept (e : ErrBit) (s : State) :
    (parseCheck e s).regs = s.regs ∧ (parseCheck e s).status = s.status ∧ (parseCheck e s).cur = s.cur ∧
    (parseCheck e s).auxRaw = s.auxRaw ∧ (parseCheck e s).hist = s.hist ∧ (parseCheck e s).cursor = s.cursor := by
  rw [parseCheck_frame]
  exact ⟨rfl, rfl, rfl, rfl, rfl, rfl⟩

/-- The count of mismatches after the check, saturating (R57, R230). -/
theorem parseCheck_pecErr_toNat (e : ErrBit) (s : State) :
    (parseCheck e s).cnt.pecErr.toNat =
      if rxbPecMatches s then s.cnt.pecErr.toNat else min (s.cnt.pecErr.toNat + 1) 0xFFFF := by
  rw [parseCheck, pecOk_eq]
  split
  · rfl
  · simp only [pecMismatch_fields, satIncr_toNat]

/-- The error bits after the check, by the PEC as the claims state it. -/
theorem parseCheck_err_of_rxb (e : ErrBit) (s : State) :
    (parseCheck e s).err = if rxbPecMatches s then s.err else s.err ||| (1#10 <<< e.code) := by
  rw [parseCheck_err, pecOk_eq]

/-- The whole state after a mismatch. -/
theorem parseCheck_of_mismatch {s : State} (h : rxbPecMatches s = false) (e : ErrBit) :
    parseCheck e s = { s with
      err := s.err ||| (1#10 <<< e.code)
      cnt := { s.cnt with pecErr := BitVec.ofNat 16 (min (s.cnt.pecErr.toNat + 1) 0xFFFF) } } := by
  rw [parseCheck, pecOk_eq, h]
  rfl

/-- A frame is applied when its PEC matches or `PECPOL` is ACCEPT (R230). -/
theorem parseApply_iff (s : State) :
    parseApply s = true ↔ rxbPecMatches s = true ∨ s.regs.ctrl.getLsbD 0 = false := by
  simp [parseApply, pecOk_eq, pecpol]

/-- Under DISCARD a frame with a wrong PEC is not (R230). -/
theorem parseApply_eq_false {s : State} (hpec : rxbPecMatches s = false) (hpol : s.regs.ctrl.getLsbD 0 = true) :
    parseApply s = false := by
  simp [parseApply, pecOk_eq, pecpol, hpec, hpol]

/-! A group stored (R153, R154) -/

/-- Three consecutive elements from a multiple of 3 on, stored one after the other: element `i` is in group `i / 3` and
is its word `i % 3`. -/
theorem getElem_set_group {α : Type} {n : Nat} (v : Vector α n) (w : Nat → α) (g : Nat) (hg : 3 * g + 2 < n) (i : Nat)
    (hi : i < n) :
    (((v.set (3 * g) (w 0)).set (3 * g + 1) (w 1)).set (3 * g + 2) (w 2))[i] =
      if i / 3 = g then w (i % 3) else v[i] := by
  simp only [Vector.getElem_set]
  by_cases hgroup : i / 3 = g
  · have hword : i % 3 = 0 ∨ i % 3 = 1 ∨ i % 3 = 2 := by omega
    rw [if_pos hgroup]
    rcases hword with h | h | h <;> rw [h]
    · rw [if_neg (by omega), if_neg (by omega), if_pos (by omega)]
    · rw [if_neg (by omega), if_pos (by omega)]
    · rw [if_pos (by omega)]
  · rw [if_neg hgroup, if_neg (by omega), if_neg (by omega), if_neg (by omega)]

/-- The words of the frame are the same before and after the PEC check. -/
@[simp] theorem rxWord_parseCheck (e : ErrBit) (s : State) (j : Nat) : rxWord (parseCheck e s) j = rxWord s j := by
  simp only [rxWord, rxData, parseCheck_kept]

/-- The cells after a voltage group is applied (R153, R231). -/
theorem applyCv_cell (g : Fin 4) (s : State) (i : Fin 12) :
    (applyCv g s).cur.cell[i] = if i.val / 3 = g.val then rxWord s (i.val % 3) else s.cur.cell[i] :=
  getElem_set_group s.cur.cell (rxWord s) g.val (by simp only [Config.ncell]; omega) i.val i.isLt

/-- The raw codes after an auxiliary group is applied (R154, R232). -/
theorem applyAux_code (g : Fin 2) (s : State) (j : Fin 4) :
    (applyAux g s).auxRaw[j] = if j.val / 3 = g.val then rxWord s (j.val % 3) else s.auxRaw[j] := by
  match g with
  | 0 => exact getElem_set_group s.auxRaw (rxWord s) 0 (by decide) j.val j.isLt
  | 1 => fin_cases j <;> simp [applyAux]

/-- The temperatures after an auxiliary group is applied (R154, R232). -/
theorem applyAux_temp (g : Fin 2) (s : State) (j : Fin 4) :
    (applyAux g s).cur.temp[j] =
      if j.val / 3 = g.val then lin s.regs.linVref (rxWord s (j.val % 3)) else s.cur.temp[j] := by
  match g with
  | 0 => exact getElem_set_group s.cur.temp (fun k => lin s.regs.linVref (rxWord s k)) 0 (by decide) j.val j.isLt
  | 1 => fin_cases j <;> simp [applyAux]

/-! What applying a group leaves -/

@[simp] theorem applyCv_kept (g : Fin 4) (s : State) :
    (applyCv g s).status = s.status ∧ (applyCv g s).err = s.err ∧ (applyCv g s).cnt = s.cnt ∧
    (applyCv g s).hist = s.hist ∧ (applyCv g s).cursor = s.cursor ∧ (applyCv g s).cur.temp = s.cur.temp :=
  ⟨rfl, rfl, rfl, rfl, rfl, rfl⟩

@[simp] theorem applyAux_kept (g : Fin 2) (s : State) :
    (applyAux g s).status = s.status ∧ (applyAux g s).err = s.err ∧ (applyAux g s).cnt = s.cnt ∧
    (applyAux g s).hist = s.hist ∧ (applyAux g s).cursor = s.cursor ∧ (applyAux g s).cur.cell = s.cur.cell := by
  match g with
  | 0 => simp [applyAux]
  | 1 => simp [applyAux]

/-- Everything a voltage frame can change when it is applied (R230, R231). -/
theorem applyCv_parseCheck_frame (g : Fin 4) (e : ErrBit) (s : State) :
    applyCv g (parseCheck e s) = { s with
      cur := (applyCv g (parseCheck e s)).cur
      err := (parseCheck e s).err
      cnt := { s.cnt with pecErr := (parseCheck e s).cnt.pecErr } } := by
  have happly := applyCv_frame g (parseCheck e s)
  have hcheck := parseCheck_frame e s
  generalize applyCv g (parseCheck e s) = t, parseCheck e s = u at happly hcheck ⊢
  rw [happly, hcheck]

/-- Everything an auxiliary frame can change when it is applied (R230, R232). -/
theorem applyAux_parseCheck_frame (g : Fin 2) (e : ErrBit) (s : State) :
    applyAux g (parseCheck e s) = { s with
      cur := (applyAux g (parseCheck e s)).cur
      auxRaw := (applyAux g (parseCheck e s)).auxRaw
      err := (parseCheck e s).err
      cnt := { s.cnt with pecErr := (parseCheck e s).cnt.pecErr } } := by
  have happly := applyAux_frame g (parseCheck e s)
  have hcheck := parseCheck_frame e s
  generalize applyAux g (parseCheck e s) = t, parseCheck e s = u at happly hcheck ⊢
  rw [happly, hcheck]

/-! The three commands -/

/-- Settles O21: the frame is applied after the PEC check, which the stored group does not see. -/
theorem parseCvStoresCells : Obligations.ParseCvStoresCells := by
  intro s g hg happly
  refine ⟨applyCv ⟨g.toNat, hg⟩ (parseCheck .pecCv s), ?exec, fun i => ?cells, ?temps, applyCv_aggsHold _ _, ?err,
    ?count, ?frame⟩
  case exec => rw [exec_parseCv g s hg, if_pos ((parseApply_iff s).mpr happly)]
  case cells =>
    rw [applyCv_cell, rxWord_parseCheck]
    split
    · exact rxWord_toNat s _ (Nat.mod_lt _ (by decide))
    · simp
  case temps => simp
  case err =>
    simp only [applyCv_kept, parseCheck_err_of_rxb]
    rfl
  case count => simp only [applyCv_kept, parseCheck_pecErr_toNat]
  case frame => simpa using applyCv_parseCheck_frame ⟨g.toNat, hg⟩ .pecCv s

/-- Settles O22: as for a voltage group, with each code's temperature linearized at the host's reference voltage. -/
theorem parseAuxStoresTemps : Obligations.ParseAuxStoresTemps := by
  intro s g hg happly
  refine ⟨applyAux ⟨g.toNat, hg⟩ (parseCheck .pecAux s), ?exec, fun j hj => ?group, fun j hj => ?others, ?cells,
    applyAux_aggsHold _ _, ?err, ?count, ?frame⟩
  case exec => rw [exec_parseAux g s hg, if_pos ((parseApply_iff s).mpr happly)]
  case group =>
    rw [applyAux_temp, applyAux_code, if_pos hj, if_pos hj, rxWord_parseCheck]
    exact ⟨rxWord_toNat s _ (Nat.mod_lt _ (by decide)), by simp⟩
  case others =>
    rw [applyAux_temp, applyAux_code, if_neg hj, if_neg hj]
    simp
  case cells => simp
  case err =>
    simp only [applyAux_kept, parseCheck_err_of_rxb]
    rfl
  case count => simp only [applyAux_kept, parseCheck_pecErr_toNat]
  case frame => simpa using applyAux_parseCheck_frame ⟨g.toNat, hg⟩ .pecAux s

/-- Settles O23: a frame that is not applied leaves the outcome of its PEC check. -/
theorem discardedFrameIsNotApplied : Obligations.DiscardedFrameIsNotApplied := by
  intro s g hpec hpol counted
  have happly : ¬ parseApply s = true := by simp [parseApply_eq_false hpec hpol]
  refine ⟨fun hg => ?cv, fun hg => ?aux⟩
  case cv =>
    rw [exec_parseCv g s hg, if_neg happly, parseCheck_of_mismatch hpec]
    rfl
  case aux =>
    rw [exec_parseAux g s hg, if_neg happly, parseCheck_of_mismatch hpec]
    rfl

/-- Settles O24: the comparison with the mirror raises its bit over whatever the PEC check left. -/
theorem parseCfgChecksFrame : Obligations.ParseCfgChecksFrame := by
  intro s ok same
  have hsame : rxData s = cfgBytes s ↔ same := Iff.rfl
  refine ⟨_, exec_parseCfg s, fun h => ?equal, fun h => ?differs, ?count, ?frame⟩
  case equal =>
    rw [if_pos (hsame.mpr h), parseCheck_err_of_rxb]
    rfl
  case differs =>
    rw [if_neg (hsame.not.mpr h), raiseErr, parseCheck_err_of_rxb]
    split
    · rfl
    · exact BitVec.or_assoc _ _ _
  case count =>
    rw [← parseCheck_pecErr_toNat .pecCfg]
    split <;> rfl
  case frame =>
    have hcheck := parseCheck_frame .pecCfg s
    generalize parseCheck .pecCfg s = u at hcheck ⊢
    rw [hcheck]
    split <;> rfl

end Sys2Proof.Machine
end

section
/-! Balancing and the operating mode (41_protocol R250 to R256): the bitmap, what it is computed from, and the mode
change. -/

namespace Sys2Proof.Machine

/-! The mode (R255, R256) -/

theorem setMode_of_eq {m : OpMode} {s : State} (h : m = s.status.mode) : setMode m s = s := if_pos h

theorem setMode_of_ne {m : OpMode} {s : State} (h : m ≠ s.status.mode) :
    setMode m s = { s with
      status := { s.status with mode := m, cfgPend := true }
      dcc := if m = .normal then 0 else s.dcc } := if_neg h

/-- Settles O28: the two operands in each mode. -/
theorem setModeCases : Obligations.SetModeCases := by
  intro s
  have hnormal : exec (.setMode 0) s = .next (setMode .normal s) := exec_setMode 0 s (by decide)
  have hbalancing : exec (.setMode 1) s = .next (setMode .balancing s) := exec_setMode 1 s (by decide)
  rw [hnormal, hbalancing]
  refine ⟨fun hmode => ⟨?stay, ?enter⟩, fun hmode => ⟨?remain, ?leave⟩⟩
  case stay => rw [setMode_of_eq hmode.symm]
  case remain => rw [setMode_of_eq hmode.symm]
  case enter =>
    rw [setMode_of_ne (by simp [hmode])]
    rfl
  case leave =>
    rw [setMode_of_ne (by simp [hmode])]
    rfl

/-! The bitmap (R250, R251) -/

/-- The comparison in natural numbers: strict, and with the frame's own minimum. -/
theorem needsDischarge_iff (f : CellFrame) (eps : Half) (i : Fin Config.ncell) :
    needsDischarge f eps i = true ↔ f.agg.vmin.toNat + eps.toNat < (f.cell[i]).toNat := by
  rw [needsDischarge, decide_eq_true_iff]
  omega

/-- Settles O26: the command's equation in each mode, and the bits of the bitmap it writes. -/
theorem balanceWritesBitmap : Obligations.BalanceWritesBitmap := by
  intro s
  refine ⟨exec_balance_normal s, fun hmode => ⟨_, exec_balance_balancing s hmode, fun i => ?bit, rfl⟩⟩
  case bit =>
    have hbit := balanceBitmap_bit s i
    rw [← needsDischarge_iff, ← hbit]
    rfl

/-! What the bitmap is computed from, and what keeps it (R252) -/

/-- Raising an error twice is raising it once. -/
theorem raiseErr_raiseErr_same (e : ErrBit) (s : State) : raiseErr e (raiseErr e s) = raiseErr e s := by
  simp only [raiseErr, BitVec.or_assoc, BitVec.or_self]

/-- BALANCE writes no field its bitmap is computed from, and leaves the mode, so it answers the same again (R252). -/
theorem exec_balance_of_exec_balance {s t : State} (h : exec .balance s = .next t) : exec .balance t = .next t := by
  cases hmode : s.status.mode with
  | normal =>
    obtain rfl : raiseErr .mode s = t := Host.Outcome.next.inj ((exec_balance_normal s hmode).symm.trans h)
    rw [exec_balance_normal (raiseErr .mode s) hmode, raiseErr_raiseErr_same]
  | balancing =>
    obtain rfl : pendCfg { s with dcc := balanceBitmap s } = t :=
      Host.Outcome.next.inj ((exec_balance_balancing s hmode).symm.trans h)
    exact exec_balance_balancing (pendCfg { s with dcc := balanceBitmap s }) hmode

/-- A command that closes no cycle leaves the history and the cursor (R293, R296). -/
theorem CommandEffect.history {s t : State} {i : Instr} (h : CommandEffect s i t) (hclose : i ≠ .close)
    (htick : i ≠ .tick) : t.hist = s.hist ∧ t.cursor = s.cursor := by
  cases h with
  | close => exact absurd rfl hclose
  | tick => exact absurd rfl htick
  | txTelemDiag => simp [pushCells]
  | _ => simp

/-- A write to an RW register other than `BAL_EPS` leaves `BAL_EPS` (R105). -/
theorem store_balEps {r : Reg} (hr : r ≠ .balEps) (v : Word) (h : HostRegs) : (h.store r v).balEps = h.balEps := by
  cases r with
  | balEps => exact absurd rfl hr
  | _ => rfl

theorem balanceBitmap_of_command {i : Instr} (hc : i.isCommand = true) {s t : State} (h : exec i s = .next t)
    (hclose : i ≠ .close) (htick : i ≠ .tick) : balanceBitmap t = balanceBitmap s := by
  obtain ⟨hhist, hcursor⟩ := (command_effect hc h).history hclose htick
  exact balanceBitmap_congr hhist hcursor (by rw [(commandKeeps_of_exec hc h).regs])

theorem balanceBitmap_of_rd {off : Offset} {size : AccessSize} {s t : State} (h : exec (.rd off size) s = .next t) :
    balanceBitmap t = balanceBitmap s := by
  rcases exec_rd_inv h with ⟨-, rfl⟩ | ⟨r, -, rfl⟩ <;> rfl

/-- A host write to neither `CMD` nor `BAL_EPS` keeps the bitmap. -/
theorem balanceBitmap_of_wr {off : Offset} {size : AccessSize} {v : Word} {s t : State}
    (h : exec (.wr off size v) s = .next t) (hcmd : off ≠ 0x018) (heps : off ≠ 0x054) :
    balanceBitmap t = balanceBitmap s := by
  rcases exec_wr_inv h with rfl | ⟨r, hr, -, rfl⟩ | ⟨r, -, -, rfl⟩ | ⟨r, -, -, rfl⟩ | ⟨r, i, hr, hwo, -⟩ | rfl
  · rfl
  · have hne : r ≠ .balEps := by
      rintro rfl
      exact heps (BitVec.eq_of_toNat_eq (offset_of_busReg hr))
    rw [storeRw_frame]
    exact balanceBitmap_congr rfl rfl (store_balEps hne v s.regs)
  · rw [clearSticky_frame]
    rfl
  · rw [clearCounter_frame]
    rfl
  · rw [access_wo hwo] at hr
    exact absurd (BitVec.eq_of_toNat_eq (offset_of_busReg hr)) hcmd
  · rfl

/-- Settles O27: the re-run, the instructions by their kind, and the fields the bitmap reads. -/
theorem balanceIsIdempotent : Obligations.BalanceIsIdempotent := by
  refine ⟨fun s t => exec_balance_of_exec_balance, fun i s t h hclose htick hwr => ?kept,
    fun s t => balanceBitmap_congr⟩
  case kept =>
    cases i with
    | rd off size => exact balanceBitmap_of_rd h
    | wr off size v =>
      obtain ⟨hcmd, heps⟩ := hwr off size v rfl
      exact balanceBitmap_of_wr h hcmd heps
    | _ => exact balanceBitmap_of_command rfl h hclose htick

end Sys2Proof.Machine
end

section
/-! `CFG_PEND` (41_protocol R240): every instruction but BUILD_WRCFG leaves it set. -/

namespace Sys2Proof.Machine

/-! The parts of a tick -/

theorem cfgPend_tickSequence (c : BitVec 5) (s : State) : (tickSequence c s).status.cfgPend = s.status.cfgPend := by
  rw [tickSequence_frame]

theorem cfgPend_tickControl {s : State} (h : s.status.cfgPend = true) : (tickControl s).status.cfgPend = true := by
  cases hreq : s.status.balReq with
  | false => simp [tickControl_normal s hreq, h]
  | true => rw [tickControl_balancing s hreq]

/-! The instructions -/

/-- A command that finds `CFG_PEND` set leaves it set, or is BUILD_WRCFG. -/
theorem CommandEffect.cfgPend {s t : State} {i : Instr} (h : CommandEffect s i t) (hp : s.status.cfgPend = true) :
    t.status.cfgPend = true ∨ ∃ c, i = .buildWrcfg c := by
  cases h with
  | buildWrcfg c => exact .inr ⟨c, rfl⟩
  | setMode =>
    left
    rw [(setMode_fields _ _).2.1]
    split
    · exact hp
    · rfl
  | tick =>
    refine .inl (cfgPend_tickControl ?_)
    rw [cfgPend_tickSequence]
    exact hp
  | txTelemDiag => exact .inl (by simp [pushCells, hp])
  | rxFrame => exact .inl hp
  | _ => exact .inl (by simp [hp])

/-- A host write that finds `CFG_PEND` set leaves it set, or runs BUILD_WRCFG. -/
theorem cfgPend_of_exec_wr {off : Offset} {size : AccessSize} {v : Word} {s t : State}
    (h : exec (.wr off size v) s = .next t) (hp : s.status.cfgPend = true) :
    t.status.cfgPend = true ∨ ∃ c, runs (.wr off size v) (.buildWrcfg c) := by
  rcases exec_wr_inv h with rfl | ⟨r, -, -, rfl⟩ | ⟨r, -, -, rfl⟩ | ⟨r, -, -, rfl⟩ | ⟨r, i, hr, hwo, hd, hc, he⟩ | rfl
  · exact .inl hp
  · rcases storeRw_cfgPend r v s with e | e
    · exact .inl (e.trans hp)
    · exact .inl e
  · rw [clearSticky_frame]
    exact .inl hp
  · rw [clearCounter_frame]
    exact .inl hp
  · rcases (command_effect hc he).cfgPend hp with hset | ⟨c, rfl⟩
    · exact .inl hset
    · rw [access_wo hwo] at hr
      obtain ⟨rfl, -, -⟩ := busReg_some hr
      obtain rfl : off = cmdOffset := BitVec.eq_of_toNat_eq (offset_of_busReg hr)
      exact .inr ⟨c, .inr ⟨v, rfl, hd⟩⟩
  · exact .inl hp

/-- Settles O58: a read leaves the bit, a write and a command by their outcomes. -/
theorem cfgPendClearedOnlyByBuild : Obligations.CfgPendClearedOnlyByBuild := by
  intro i s t h hp hcleared
  have hnot : ¬ t.status.cfgPend = true := by simp [hcleared]
  cases i with
  | rd off size => rcases exec_rd_inv h with ⟨-, rfl⟩ | ⟨r, -, rfl⟩ <;> exact absurd hp hnot
  | wr off size v => exact (cfgPend_of_exec_wr h hp).resolve_left hnot
  | _ =>
    obtain ⟨c, hi⟩ := ((command_effect rfl h).cfgPend hp).resolve_left hnot
    exact ⟨c, .inl hi⟩

end Sys2Proof.Machine
end

section
/-! The linearizer (42_linearizer R270 to R277): the sentinels, `ln x` of R273 in the form the enclosures bound,
and what LIN_TEMP stores. -/

namespace Sys2Proof.Machine

/-! The sentinels (R271) -/

theorem lin_zero (vref : Half) : lin vref 0 = tempMaxSentinel := rfl

/-- A code at or above the reference voltage is an open sensor. -/
theorem lin_of_le {vref code : Half} (h0 : code.toNat ≠ 0) (h : vref.toNat ≤ code.toNat) :
    lin vref code = tempMinSentinel := by
  have hcode : code ≠ 0 := fun hz => h0 (congrArg BitVec.toNat hz)
  rw [lin, if_neg hcode, if_pos (BitVec.le_def.mpr h)]

/-! The decided values fit the `i16` they are stored in (R273) -/

theorem clamp16_bounds (y : Int) : -32768 ≤ clamp16 y ∧ clamp16 y ≤ 32767 := by
  unfold clamp16
  omega

theorem toInt_ofInt_of_bounds {y : Int} (h : -32768 ≤ y ∧ y ≤ 32767) : (BitVec.ofInt 16 y).toInt = y := by
  rw [BitVec.toInt_ofInt_eq_self] <;> omega

/-- What the enclosure decides is in the range of an `i16`. -/
theorem thermRef_bounds {code vref : Nat} {y : Int} (h0 : 0 < code) (h1 : code < vref)
    (h : thermRef code vref = some y) : -32768 ≤ y ∧ y ≤ 32767 := by
  rcases thermRef_sound code vref y h0 h1 h with ⟨-, rfl⟩ | ⟨-, rfl⟩
  · decide
  · exact clamp16_bounds _

/-- Between the sentinels a decided value is `Lin` of the code (R270, R272). -/
theorem lin_toInt_of_thermRef {code vref : Half} {y : Int} (h0 : 0 < code.toNat) (h1 : code.toNat < vref.toNat)
    (h : thermRef code.toNat vref.toNat = some y) : (lin vref code).toInt = y := by
  rw [lin_of_lt h0 h1, thermCore_of_some h, toInt_ofInt_of_bounds (thermRef_bounds h0 h1 h)]

/-! `ln x` of R273 -/

/-- `x` of R273, with `R_FIXED` and `R0` both 10000 ohms, is `code / (vref - code) * exp (B / T0)`, so `lnX` is its
logarithm. -/
theorem log_ratio_eq_lnX {code vref : Nat} (h0 : 0 < code) (h1 : code < vref) :
    Real.log (10000 * (code : ℝ) / ((vref : ℝ) - code) / (10000 * Real.exp (-(3435 / 298.15)))) = lnX code vref := by
  have hcode : (code : ℝ) ≠ 0 := by positivity
  have hrest : (vref : ℝ) - code ≠ 0 := sub_ne_zero.mpr (by exact_mod_cast h1.ne')
  have hratio : 10000 * (code : ℝ) / ((vref : ℝ) - code) / (10000 * Real.exp (-(3435 / 298.15)))
      = code / ((vref : ℝ) - code) / Real.exp (-(3435 / 298.15)) := by field_simp
  rw [hratio, Real.log_div (div_ne_zero hcode hrest) (Real.exp_ne_zero _), Real.log_div hcode hrest, Real.log_exp, lnX,
    Nat.cast_sub h1.le]
  norm_num [Config.betaOverT0Num, Config.betaOverT0Den]

/-- `B / T0` exceeds the logarithm of every 16-bit number, so `ln x` is positive for every code and reference. -/
theorem lnX_pos {code vref : Nat} (h0 : 0 < code) (h1 : code < vref) (hv : vref < 2 ^ 16) : 0 < lnX code vref := by
  have hcode : 0 ≤ Real.log code := Real.log_natCast_nonneg code
  have hrest : Real.log ((vref - code : Nat) : ℝ) ≤ 16 * Real.log 2 :=
    calc Real.log ((vref - code : Nat) : ℝ)
      _ ≤ Real.log ((2 : ℝ) ^ 16) :=
        Real.log_le_log (by exact_mod_cast Nat.sub_pos_of_lt h1) (by exact_mod_cast (by omega : vref - code ≤ 2 ^ 16))
      _ = 16 * Real.log 2 := by simp [Real.log_pow]
  have hbeta : (16 : ℝ) * 0.6931471808 < Config.betaOverT0Num / Config.betaOverT0Den := by
    norm_num [Config.betaOverT0Num, Config.betaOverT0Den]
  rw [lnX]
  linarith [Real.log_two_lt_d9]

/-! The obligations -/

/-- Settles O31: `ln x` is positive, so a decided value is the clamped floor of `10 B / ln x - 2731`, and
`10 * 273.15 - 1/2` is 2731. -/
theorem linIsBetaEquation : Obligations.LinIsBetaEquation := by
  intro code vref h0 h1 hdecided R x
  obtain ⟨y, hy⟩ := Option.ne_none_iff_exists'.mp hdecided
  have hlog : Real.log x = lnX code.toNat vref.toNat := log_ratio_eq_lnX h0 h1
  have hpos : 0 < lnX code.toNat vref.toNat := lnX_pos h0 h1 vref.isLt
  have hx : 0 ≤ x := by
    have hrest : (0 : ℝ) ≤ (vref.toNat : ℝ) - code.toNat := sub_nonneg.mpr (by exact_mod_cast h1.le)
    positivity
  refine ⟨(Real.log_pos_iff hx).mp (hlog ▸ hpos), ?_⟩
  obtain ⟨-, hvalue⟩ := (thermRef_sound _ _ _ h0 h1 hy).resolve_left fun h => absurd hpos h.1.not_gt
  have hformula : 10 * (3435 / Real.log x - 273.15) + 1 / 2
      = (Config.tenBeta : ℝ) / lnX code.toNat vref.toNat - 2731 := by
    rw [hlog, show (Config.tenBeta : ℝ) = 10 * 3435 by norm_num [Config.tenBeta]]
    ring
  rw [lin_toInt_of_thermRef h0 h1 hy, hvalue, hformula]
  rfl

/-- Settles O29: the command's equation, with the sensor's element of the two arrays set. -/
theorem linTempStoresTemperature : Obligations.LinTempStoresTemperature := by
  intro s j code hj
  refine ⟨_, exec_linTemp j code s hj, fun k => ?raw, fun k => ?temp, rfl, rfl, rfl, fun h0 => ?short,
    fun h0 hle => ?opened⟩
  case raw => simp [Vector.getElem_set, eq_comm]
  case temp => simp [Vector.getElem_set, eq_comm]
  case short =>
    obtain rfl : code = 0 := BitVec.eq_of_toNat_eq h0
    rw [lin_zero]
    rfl
  case opened =>
    rw [lin_of_le h0 hle]
    rfl

/-- Settles O30: the enclosure decides the eleven codes between the sentinels. -/
theorem linReferenceTable : Obligations.LinReferenceTable := by
  have between {code : Half} {y : Int} : (0 < code.toNat ∧ code.toNat < (30000 : Half).toNat ∧
      thermRef code.toNat (30000 : Half).toNat = some y) → (lin 30000 code).toInt = y :=
    fun ⟨h0, h1, h⟩ => lin_toInt_of_thermRef h0 h1 h
  simp only [Obligations.LinReferenceTable, List.forall_mem_cons]
  refine ⟨?short, between ?_, between ?_, between ?_, between ?_, between ?_, between ?_, between ?_, between ?_,
    between ?_, between ?_, between ?_, ?opened, List.forall_mem_nil _⟩
  case short => rw [lin_zero]; rfl
  case opened => rw [lin_of_le (by decide) (by decide)]; rfl
  all_goals decide +kernel

end Sys2Proof.Machine
end

section
/-! The aggregator (43_state_model R290 to R299): the rounded average of fields, the aggregates of a frame and of the
history, a value stored in the working frame, one close and several closes of one frame. -/

namespace Sys2Proof.Machine

/-! Averages that fit their field (R291, R292, R296) -/

/-- Settles O32: the floor's two inequalities, and the examples of the rule by evaluation. -/
theorem roundDivIsNearest : Obligations.RoundDivIsNearest :=
  ⟨roundDiv_bounds, rfl, rfl, rfl, rfl, rfl⟩

/-- A sum over the elements of a vector, by index. -/
theorem sumOf_map_toList {α : Type} {n : Nat} (v : Vector α n) (f : α → Int) :
    sumOf (v.toList.map f) = ∑ k : Fin n, f v[k] := by
  have hlist : v.toList.map f = List.ofFn fun k : Fin n => f v[k] :=
    List.ext_getElem (by simp) (by simp)
  rw [sumOf_eq, hlist, List.sum_ofFn]

/-- The rounded average of values between two bounds is between them. -/
theorem roundDiv_sum_mem {n : Nat} (hn : 1 ≤ n) {F : Fin n → Int} {lo hi : Int} (h : ∀ k, lo ≤ F k ∧ F k ≤ hi) :
    lo ≤ roundDiv (∑ k, F k) n ∧ roundDiv (∑ k, F k) n ≤ hi := by
  have hlo := Finset.card_nsmul_le_sum Finset.univ F lo fun k _ => (h k).1
  have hhi := Finset.sum_le_card_nsmul Finset.univ F hi fun k _ => (h k).2
  rw [Finset.card_univ, Fintype.card_fin, nsmul_eq_mul] at hlo hhi
  exact roundDiv_mem _ lo hi n hn hlo hhi

/-- A number that fits a field reads back from it, unsigned. -/
theorem toNat_ofInt_of_bounds {w : Nat} {y : Int} (h0 : 0 ≤ y) (h1 : y < 2 ^ w) :
    ((BitVec.ofInt w y).toNat : Int) = y := by
  rw [BitVec.toNat_ofInt, Int.emod_eq_of_lt h0 (by exact_mod_cast h1), Int.toNat_of_nonneg h0]

/-- The rounded average of unsigned fields fits a field of their width. -/
theorem roundDiv_toNat_exact {n w : Nat} (hn : 1 ≤ n) (F : Fin n → BitVec w) :
    ((BitVec.ofInt w (roundDiv (∑ k, ((F k).toNat : Int)) n)).toNat : Int) = roundDiv (∑ k, ((F k).toNat : Int)) n := by
  obtain ⟨h0, h1⟩ := roundDiv_sum_mem hn (F := fun k => ((F k).toNat : Int)) (lo := 0) (hi := 2 ^ w - 1) fun k => by
    have hlt : ((F k).toNat : Int) < 2 ^ w := by exact_mod_cast (F k).isLt
    omega
  exact toNat_ofInt_of_bounds h0 (by omega)

/-- The rounded average of `i16` fields fits an `i16` field. -/
theorem roundDiv_toInt_exact {n : Nat} (hn : 1 ≤ n) (F : Fin n → Half) :
    (BitVec.ofInt 16 (roundDiv (∑ k, (F k).toInt) n)).toInt = roundDiv (∑ k, (F k).toInt) n :=
  toInt_ofInt_of_bounds (roundDiv_sum_mem hn fun k => by
    have hlo := BitVec.le_toInt (F k)
    have hhi := BitVec.toInt_lt (x := F k)
    omega)

/-! The aggregates of a frame (R292) -/

theorem mem_cellInts {cell : Vector Half Config.ncell} {y : Int} :
    y ∈ cellInts cell ↔ ∃ i : Fin 12, ((cell[i]).toNat : Int) = y := by
  simp [cellInts, Vector.mem_iff_getElem, Fin.exists_iff]

theorem mem_tempInts {temp : Vector Half Config.ntemp} {y : Int} :
    y ∈ tempInts temp ↔ ∃ j : Fin 4, (temp[j]).toInt = y := by
  simp [tempInts, Vector.mem_iff_getElem, Fin.exists_iff]

theorem cellInts_ne_nil (cell : Vector Half Config.ncell) : cellInts cell ≠ [] :=
  List.ne_nil_of_mem (mem_cellInts.mpr ⟨0, rfl⟩)

theorem tempInts_ne_nil (temp : Vector Half Config.ntemp) : tempInts temp ≠ [] :=
  List.ne_nil_of_mem (mem_tempInts.mpr ⟨0, rfl⟩)

/-- The field of an attained cell value is the cell. -/
theorem eq_cell_of_mem {cell : Vector Half Config.ncell} {y : Int} (h : y ∈ cellInts cell) :
    (((BitVec.ofInt 16 y).toNat : Int) = y) ∧ ∃ i : Fin 12, BitVec.ofInt 16 y = cell[i] := by
  obtain ⟨i, rfl⟩ := mem_cellInts.mp h
  have hcell : BitVec.ofInt 16 ((cell[i]).toNat : Int) = cell[i] := by simp [BitVec.ofInt_natCast]
  exact ⟨by rw [hcell], i, hcell⟩

/-- The field of an attained temperature is the temperature. -/
theorem eq_temp_of_mem {temp : Vector Half Config.ntemp} {y : Int} (h : y ∈ tempInts temp) :
    (BitVec.ofInt 16 y).toInt = y ∧ ∃ j : Fin 4, BitVec.ofInt 16 y = temp[j] := by
  obtain ⟨j, rfl⟩ := mem_tempInts.mp h
  exact ⟨by rw [BitVec.ofInt_toInt], j, BitVec.ofInt_toInt⟩

/-- Twelve 16-bit cells sum to less than 2^20. -/
theorem sum_cells_lt (cell : Vector Half Config.ncell) : ∑ i : Fin 12, (cell[i]).toNat < 2 ^ 20 := by
  have hle := Finset.sum_le_card_nsmul Finset.univ (fun i : Fin 12 => (cell[i]).toNat) (2 ^ 16 - 1)
    fun i _ => Nat.le_pred_of_lt (cell[i]).isLt
  rw [Finset.card_univ, Fintype.card_fin, smul_eq_mul] at hle
  omega

/-- The total voltage is the exact sum of the cells (R292). -/
theorem aggsOf_vtot (cell : Vector Half Config.ncell) (temp : Vector Half Config.ntemp) :
    (aggsOf cell temp).vtot.toNat = ∑ i : Fin 12, (cell[i]).toNat := by
  have hsum : sumOf (cellInts cell) = ((∑ i : Fin 12, (cell[i]).toNat : Nat) : Int) := by
    rw [cellInts, sumOf_map_toList, Nat.cast_sum]
  have hlt := sum_cells_lt cell
  have hvtot : (aggsOf cell temp).vtot = BitVec.ofInt 32 (sumOf (cellInts cell)) := rfl
  rw [hvtot, hsum, BitVec.ofInt_natCast, BitVec.toNat_ofNat, Nat.mod_eq_of_lt (by omega)]

/-- Settles O33: the extremes are elements of the lists, the sum fits, the averages are those of fields. -/
theorem aggsAreExact : Obligations.AggsAreExact := by
  intro cell temp a
  obtain ⟨hvmin, hvminLe⟩ := minOf_spec _ (cellInts_ne_nil cell)
  obtain ⟨hvmax, hvmaxLe⟩ := maxOf_spec _ (cellInts_ne_nil cell)
  obtain ⟨htmin, htminLe⟩ := minOf_spec _ (tempInts_ne_nil temp)
  obtain ⟨htmax, htmaxLe⟩ := maxOf_spec _ (tempInts_ne_nil temp)
  refine ⟨⟨fun i => ?vmin, (eq_cell_of_mem hvmin).2⟩, ⟨fun i => ?vmax, (eq_cell_of_mem hvmax).2⟩, aggsOf_vtot cell temp,
    (aggsOf_vtot cell temp).trans_lt (sum_cells_lt cell), ?vavg, ⟨fun j => ?tmin, (eq_temp_of_mem htmin).2⟩,
    ⟨fun j => ?tmax, (eq_temp_of_mem htmax).2⟩, ?tavg⟩
  case vmin => exact Int.ofNat_le.mp ((eq_cell_of_mem hvmin).1.trans_le (hvminLe _ (mem_cellInts.mpr ⟨i, rfl⟩)))
  case vmax => exact Int.ofNat_le.mp ((hvmaxLe _ (mem_cellInts.mpr ⟨i, rfl⟩)).trans_eq (eq_cell_of_mem hvmax).1.symm)
  case tmin => exact (eq_temp_of_mem htmin).1.trans_le (htminLe _ (mem_tempInts.mpr ⟨j, rfl⟩))
  case tmax => exact (htmaxLe _ (mem_tempInts.mpr ⟨j, rfl⟩)).trans_eq (eq_temp_of_mem htmax).1.symm
  case vavg =>
    have hvavg : a.vavg = BitVec.ofInt 16 (roundDiv (sumOf (cellInts cell)) 12) := rfl
    rw [hvavg, cellInts, sumOf_map_toList]
    exact roundDiv_toNat_exact (by decide) fun i : Fin 12 => cell[i]
  case tavg =>
    have htavg : a.tavg = BitVec.ofInt 16 (roundDiv (sumOf (tempInts temp)) 4) := rfl
    rw [htavg, tempInts, sumOf_map_toList]
    exact roundDiv_toInt_exact (by decide) fun j : Fin 4 => temp[j]

/-! One value of the working frame (R293, R294) -/

/-- Settles O34: the commands' equations in range, with the element of the cells or the temperatures set. -/
theorem updatesStoreOneValue : Obligations.UpdatesStoreOneValue := by
  intro s n v
  refine ⟨fun hn => ⟨_, exec_updCell n v s hn, fun i => ?cell, rfl, rfl, rfl⟩,
    fun hn => ⟨_, exec_updTemp n v s hn, fun j => ?temp, rfl, rfl, rfl⟩⟩
  case cell => simp [Vector.getElem_set, eq_comm]
  case temp => simp [Vector.getElem_set, eq_comm]

/-! The pack aggregates (R296) -/

theorem packAvg_eq (hist : Vector CellFrame Config.rollN) (F : Aggregates → Int) :
    packAvg hist F = roundDiv (∑ k : Fin 5, F (hist[k]).agg) 5 := by
  rw [packAvg, sumOf_map_toList]

/-- The pack's average of an unsigned aggregate is exact. -/
theorem packAvg_toNat_exact {w : Nat} (hist : Vector CellFrame Config.rollN) (F : Aggregates → BitVec w) :
    ((BitVec.ofInt w (packAvg hist fun a => (F a).toNat)).toNat : Int) =
      roundDiv (∑ k : Fin 5, ((F (hist[k]).agg).toNat : Int)) 5 := by
  rw [packAvg_eq]
  exact roundDiv_toNat_exact (by decide) fun k : Fin 5 => F (hist[k]).agg

/-- The pack's average of a temperature is exact. -/
theorem packAvg_toInt_exact (hist : Vector CellFrame Config.rollN) (F : Aggregates → Half) :
    (BitVec.ofInt 16 (packAvg hist fun a => (F a).toInt)).toInt =
      roundDiv (∑ k : Fin 5, (F (hist[k]).agg).toInt) 5 := by
  rw [packAvg_eq]
  exact roundDiv_toInt_exact (by decide) fun k : Fin 5 => F (hist[k]).agg

/-- Settles O36: the voltages are averages of unsigned fields, the temperatures of `i16` fields. -/
theorem packAveragesAreExact : Obligations.PackAveragesAreExact := fun hist =>
  ⟨packAvg_toNat_exact hist (·.vmin), packAvg_toNat_exact hist (·.vmax), packAvg_toNat_exact hist (·.vavg),
    packAvg_toNat_exact hist (·.vtot), packAvg_toInt_exact hist (·.tmin), packAvg_toInt_exact hist (·.tmax),
    packAvg_toInt_exact hist (·.tavg)⟩

/-- The average over five equal slots is the slots' own value (R298). -/
theorem packAvg_of_forall_eq {hist : Vector CellFrame Config.rollN} {f : CellFrame} (h : ∀ k : Fin 5, hist[k] = f)
    (F : Aggregates → Int) : packAvg hist F = F f.agg := by
  have hsum : ∑ k : Fin 5, F (hist[k]).agg = (5 : Nat) * F f.agg := by simp [h]
  rw [packAvg_eq, hsum, roundDiv_mul_self _ _ (by decide)]

/-- The pack aggregates of five equal slots are the slots' own (R298). -/
theorem packAggs_of_forall_eq {hist : Vector CellFrame Config.rollN} {f : CellFrame} (h : ∀ k : Fin 5, hist[k] = f) :
    packAggs hist = f.agg := by
  simp [packAggs, packAvg_of_forall_eq h, BitVec.ofInt_natCast, BitVec.ofInt_toInt]

/-! One close (R295) -/

/-- Settles O35: the fields of a closed cycle. -/
theorem closeClosesTheCycle : Obligations.CloseClosesTheCycle := by
  intro s
  refine ⟨closeCycle s, exec_close s, closedHist_get s, rfl, rfl, ?count, rfl, newest_closeCycle s, rfl⟩
  case count => simp [BitVec.toNat_add]

/-! Several closes of one frame (R298, R299) -/

/-- A sequence of CLOSE commands closes as many cycles. -/
theorem execAll_replicate_close (k : Nat) (s : State) :
    execAll (List.replicate k .close) s = .next (closeCycle^[k] s) := by
  induction k generalizing s with
  | zero => rfl
  | succ k ih => exact (execAll_cons_of_next (exec_close s) _).trans (ih _)

theorem iterate_closeCycle_cur (k : Nat) (s : State) : (closeCycle^[k] s).cur = s.cur := by
  induction k with
  | zero => rfl
  | succ k ih => simp [Function.iterate_succ_apply', ih]

/-- Each close moves the cursor by one slot (R295). -/
theorem iterate_closeCycle_cursor (k : Nat) (s : State) :
    (closeCycle^[k] s).cursor.val = (s.cursor.val + k) % 5 := by
  induction k with
  | zero => exact (Nat.mod_eq_of_lt s.cursor.isLt).symm
  | succ k ih =>
    simp only [Function.iterate_succ_apply', closeCycle_fields, nextSlot, ih, Config.rollN]
    omega

/-- Up to five closes fill one slot each with the working frame, from the cursor on (R295). -/
theorem iterate_closeCycle_hist {k : Nat} (hk : k ≤ 5) (s : State) (j : Fin 5) :
    (closeCycle^[k] s).hist[j] = if (j.val + 5 - s.cursor.val) % 5 < k then s.cur else s.hist[j] := by
  induction k with
  | zero => simp
  | succ k ih =>
    have hcursor := iterate_closeCycle_cursor k s
    have hc : s.cursor.val < 5 := s.cursor.isLt
    have hslot : j = (closeCycle^[k] s).cursor ↔ (j.val + 5 - s.cursor.val) % 5 = k := by
      rw [Fin.ext_iff, hcursor]
      omega
    have hclose : (closeCycle^[k + 1] s).hist[j] = (closedHist (closeCycle^[k] s))[j] := by
      simp [Function.iterate_succ_apply']
    rw [hclose, closedHist_get, ih (by omega), iterate_closeCycle_cur]
    simp only [hslot]
    split_ifs <;> first | rfl | omega

/-- After a close the pack aggregates are those of the history (R295). -/
theorem iterate_closeCycle_pack {k : Nat} (hk : 1 ≤ k) (s : State) :
    (closeCycle^[k] s).pack = packAggs (closeCycle^[k] s).hist := by
  obtain ⟨k, rfl⟩ := Nat.exists_eq_add_of_le' hk
  simp [Function.iterate_succ_apply']

/-- Settles O37: five closes reach every slot. -/
theorem identicalFramesAverageToThemselves : Obligations.IdenticalFramesAverageToThemselves := by
  intro s
  have hhist (k : Fin 5) : (closeCycle^[5] s).hist[k] = s.cur := by
    rw [iterate_closeCycle_hist le_rfl, if_pos (Nat.mod_lt _ (by decide))]
  refine ⟨_, execAll_replicate_close 5 s, ?pack, hhist⟩
  case pack => rw [iterate_closeCycle_pack (by decide), packAggs_of_forall_eq hhist]

/-- From the reset history, the sum of an aggregate that is 0 in the zero frame over the slots after `k` closes. -/
theorem sum_warmUp {k : Nat} (hk : k ≤ 5) (f : CellFrame) {F : Aggregates → Int} (hF : F Aggregates.zero = 0) :
    ∑ j : Fin 5, F ((closeCycle^[k] { State.reset with cur := f }).hist[j]).agg = k * F f.agg := by
  have hslot (j : Fin 5) :
      F ((closeCycle^[k] { State.reset with cur := f }).hist[j]).agg = if j.val < k then F f.agg else 0 := by
    have hreset : (j.val + 5 - State.reset.cursor.val) % 5 = j.val := by
      have hcursor : State.reset.cursor.val = 0 := rfl
      omega
    have hzero : State.reset.hist[j] = CellFrame.zero := by simp [State.reset]
    rw [iterate_closeCycle_hist hk, hreset, hzero, apply_ite CellFrame.agg, apply_ite F]
    exact if_congr Iff.rfl rfl hF
  rw [Finset.sum_congr rfl fun j _ => hslot j, Finset.sum_ite, Finset.sum_const, Finset.sum_const_zero,
    Fin.card_filter_val_lt, min_eq_right hk, nsmul_eq_mul, add_zero]

/-- Settles O38: the exact averages of the history, each over a sum with `k` slots that are not zero. -/
theorem warmUpAverages : Obligations.WarmUpAverages := by
  intro f k h1 h5
  obtain ⟨hvmin, hvmax, hvavg, hvtot, htmin, htmax, htavg⟩ :=
    packAveragesAreExact (closeCycle^[k] { State.reset with cur := f }).hist
  have havg (F : Aggregates → Int) (hF : F Aggregates.zero = 0) :
      roundDiv (∑ j : Fin 5, F ((closeCycle^[k] { State.reset with cur := f }).hist[j]).agg) 5 =
        roundDiv (k * F f.agg) 5 := by
    rw [sum_warmUp h5 f hF]
  refine ⟨_, execAll_replicate_close k _, ?_⟩
  rw [iterate_closeCycle_pack h1]
  exact ⟨hvmin.trans (havg (·.vmin.toNat) rfl), hvmax.trans (havg (·.vmax.toNat) rfl),
    hvavg.trans (havg (·.vavg.toNat) rfl), hvtot.trans (havg (·.vtot.toNat) rfl),
    htmin.trans (havg (·.tmin.toInt) rfl), htmax.trans (havg (·.tmax.toInt) rfl),
    htavg.trans (havg (·.tavg.toInt) rfl)⟩

end Sys2Proof.Machine
end

section
/-! When a cycle closes (43_state_model R293, R296): an instruction that changes the history, the cursor, the pack
aggregates or the cycle count, but for clearing it, is CLOSE or TICK. -/

namespace Sys2Proof.Machine

/-- What a closed cycle changes is the same in `t`: the history, the cursor, the pack aggregates and the cycle count,
which the host may also clear. -/
structure CycleKept (s t : State) : Prop where
  hist : t.hist = s.hist
  cursor : t.cursor = s.cursor
  pack : t.pack = s.pack
  cycle : t.cnt.cycle = s.cnt.cycle ∨ t.cnt.cycle = 0

/-! What the parser leaves of the state it does not store into (R230 to R232) -/

@[simp] theorem parseCheck_kept_block (e : ErrBit) (s : State) :
    (parseCheck e s).txb = s.txb ∧ (parseCheck e s).dcc = s.dcc ∧ (parseCheck e s).txq = s.txq ∧
    (parseCheck e s).pack = s.pack ∧ (parseCheck e s).cnt.cycle = s.cnt.cycle := by
  rw [parseCheck_frame]
  exact ⟨rfl, rfl, rfl, rfl, rfl⟩

@[simp] theorem applyCv_kept_block (g : Fin 4) (s : State) :
    (applyCv g s).txb = s.txb ∧ (applyCv g s).dcc = s.dcc ∧ (applyCv g s).txq = s.txq ∧
    (applyCv g s).pack = s.pack := by
  rw [applyCv_frame]
  exact ⟨rfl, rfl, rfl, rfl⟩

@[simp] theorem applyAux_kept_block (g : Fin 2) (s : State) :
    (applyAux g s).txb = s.txb ∧ (applyAux g s).dcc = s.dcc ∧ (applyAux g s).txq = s.txq ∧
    (applyAux g s).pack = s.pack := by
  rw [applyAux_frame]
  exact ⟨rfl, rfl, rfl, rfl⟩

/-! The instructions -/

/-- A command that closes no cycle leaves the pack aggregates and the cycle count (R295, R296). -/
theorem CommandEffect.pack_cycle {s t : State} {i : Instr} (h : CommandEffect s i t) (hclose : i ≠ .close)
    (htick : i ≠ .tick) : t.pack = s.pack ∧ t.cnt.cycle = s.cnt.cycle := by
  cases h with
  | close => exact absurd rfl hclose
  | tick => exact absurd rfl htick
  | txTelemDiag => simp [pushCells]
  | _ => simp

/-- A command closes a cycle only as CLOSE or TICK. -/
theorem CommandEffect.cycleKept {s t : State} {i : Instr} (h : CommandEffect s i t) :
    CycleKept s t ∨ i = .close ∨ i = .tick := by
  by_cases hclose : i = .close
  · exact .inr (.inl hclose)
  by_cases htick : i = .tick
  · exact .inr (.inr htick)
  obtain ⟨hhist, hcursor⟩ := h.history hclose htick
  obtain ⟨hpack, hcycle⟩ := h.pack_cycle hclose htick
  exact .inl ⟨hhist, hcursor, hpack, .inl hcycle⟩

theorem cycleKept_of_exec_rd {off : Offset} {size : AccessSize} {s t : State} (h : exec (.rd off size) s = .next t) :
    CycleKept s t := by
  rcases exec_rd_inv h with ⟨-, rfl⟩ | ⟨r, -, rfl⟩ <;> exact ⟨rfl, rfl, rfl, .inl rfl⟩

/-- A write to a counter clears it or leaves it (R57). -/
theorem clearCounter_cycle (r : Reg) (s : State) :
    (clearCounter r s).cnt.cycle = s.cnt.cycle ∨ (clearCounter r s).cnt.cycle = 0 := by
  unfold clearCounter
  split <;> simp

/-- The word the host writes to `CMD` is the command the write runs (R36, R140). -/
theorem runs_of_busReg_wo {off : Offset} {size : AccessSize} {v : Word} {r : Reg} {i : Instr}
    (hr : busReg off size = some r) (hwo : r.access = .wo) (hd : decode v = .ok i) : runs (.wr off size v) i := by
  rw [access_wo hwo] at hr
  obtain ⟨rfl, -, -⟩ := busReg_some hr
  obtain rfl : off = cmdOffset := BitVec.eq_of_toNat_eq (offset_of_busReg hr)
  exact .inr ⟨v, rfl, hd⟩

/-- A host write closes a cycle only by the command it runs. -/
theorem cycleKept_of_exec_wr {off : Offset} {size : AccessSize} {v : Word} {s t : State}
    (h : exec (.wr off size v) s = .next t) :
    CycleKept s t ∨ runs (.wr off size v) .close ∨ runs (.wr off size v) .tick := by
  rcases exec_wr_inv h with rfl | ⟨r, -, -, rfl⟩ | ⟨r, -, -, rfl⟩ | ⟨r, -, -, rfl⟩ | ⟨r, i, hr, hwo, hd, hc, he⟩ | rfl
  · exact .inl ⟨rfl, rfl, rfl, .inl rfl⟩
  · rw [storeRw_frame]
    exact .inl ⟨rfl, rfl, rfl, .inl rfl⟩
  · rw [clearSticky_frame]
    exact .inl ⟨rfl, rfl, rfl, .inl rfl⟩
  · have hcycle := clearCounter_cycle r s
    rw [clearCounter_frame]
    exact .inl ⟨rfl, rfl, rfl, hcycle⟩
  · rcases (command_effect hc he).cycleKept with hkept | rfl | rfl
    · exact .inl hkept
    · exact .inr (.inl (runs_of_busReg_wo hr hwo hd))
    · exact .inr (.inr (runs_of_busReg_wo hr hwo hd))
  · exact .inl ⟨rfl, rfl, rfl, .inl rfl⟩

/-- The negation of the change the claim is about. -/
theorem CycleKept.not_changed {s t : State} (h : CycleKept s t) :
    ¬ (t.hist ≠ s.hist ∨ t.cursor ≠ s.cursor ∨ t.pack ≠ s.pack ∨ (t.cnt.cycle ≠ s.cnt.cycle ∧ t.cnt.cycle ≠ 0)) := by
  rintro (hhist | hcursor | hpack | ⟨hne, hpos⟩)
  · exact hhist h.hist
  · exact hcursor h.cursor
  · exact hpack h.pack
  · exact h.cycle.elim hne hpos

/-- Settles O59: a read closes no cycle, a write and a command only as CLOSE or TICK. -/
theorem historyChangesOnlyByClose : Obligations.HistoryChangesOnlyByClose := by
  intro i s t h hchanged
  have hnot : ¬ CycleKept s t := fun hkept => hkept.not_changed hchanged
  cases i with
  | rd off size => exact absurd (cycleKept_of_exec_rd h) hnot
  | wr off size v => exact (cycleKept_of_exec_wr h).resolve_left hnot
  | _ => exact ((command_effect rfl h).cycleKept.resolve_left hnot).imp .inl .inl

end Sys2Proof.Machine
end

section
/-! The invariant of the block (10_state R43, R46, R64, R65, 43_state_model R290, R296, 45_supervisor R374,
70_reset R461): it holds at reset, and every step keeps it, each of its fields by what the commands and the strobe do
to the part of the state it speaks of. -/

namespace Sys2Proof.Machine

/-! Its fields, as conditions on a part of the state -/

/-- The queue is within its depth and padded (R65). -/
def QueueHolds (q : List BusFrame) : Prop := q.length ≤ Config.txqDepth ∧ ∀ f ∈ q, f.padded

/-- The sequencer state and the cause bits agree (R374). -/
def CauseAgrees (st : Status) : Prop :=
  (st.sup = .idleSafe ↔ st.cause = 0) ∧ (st.sup = .debSafe → st.cause &&& causeWd = 0)

theorem BlockInv.queueHolds {s : State} (h : BlockInv s) : QueueHolds s.txq := ⟨h.queueDepth, h.queuePadded⟩

theorem BlockInv.causeAgrees {s : State} (h : BlockInv s) : CauseAgrees s.status := ⟨h.idleNoCause, h.debounceCause⟩

/-- Outside reset nothing is held at its reset value. -/
theorem heldInReset_of_running {s : State} (h : s.rst = false) : s.rst = true → s = assertReset s :=
  fun hr => absurd (h.symm.trans hr) Bool.false_ne_true

/-- The invariant does not speak of the registers, the sticky bits, the time, the counters, the PEC engine, the
cursor, the raw codes and the model's host side. -/
theorem BlockInv.of_frame {s t : State} (hs : BlockInv s) (hrst : t.rst = false) (h : t = { t with
    cur := s.cur, hist := s.hist, pack := s.pack, dcc := s.dcc, txq := s.txq, txb := s.txb
    status := { t.status with sup := s.status.sup, mode := s.status.mode, cause := s.status.cause } }) :
    BlockInv t := by
  have hheld := heldInReset_of_running hrst
  rw [h] at hheld ⊢
  exact { hs with heldInReset := hheld }

/-! Reset (R460, R461) -/

theorem zero_aggsHold : CellFrame.zero.aggsHold := by
  unfold CellFrame.aggsHold
  decide

theorem reset_hist (k : Fin Config.rollN) : State.reset.hist[k] = CellFrame.zero := by simp [State.reset]

/-- Settles O52: the zero frame's aggregates are 0, and so are their averages. -/
theorem invAtReset : Obligations.InvAtReset where
  curAggs := zero_aggsHold
  histAggs k := by
    rw [reset_hist k]
    exact zero_aggsHold
  packAvgs := (packAggs_of_forall_eq reset_hist).symm
  normalNoDischarge _ := rfl
  queueDepth := Nat.zero_le _
  queuePadded f hf := absurd hf List.not_mem_nil
  txbPadded := .inl ⟨rfl, rfl, rfl, rfl⟩
  idleNoCause := ⟨fun _ => rfl, fun _ => rfl⟩
  debounceCause hdeb := by cases hdeb
  heldInReset := heldInReset_of_running rfl

theorem blockInv_assertReset (s : State) : BlockInv (assertReset s) :=
  { invAtReset with heldInReset := fun _ => rfl }

/-- A strobe is ignored in reset: the block holds its reset values, whatever is still to come (R461). -/
theorem BlockInv.of_held {s : State} (h : BlockInv s) (hrst : s.rst = true) (rest : List Event) :
    BlockInv { s with sched := rest } := by
  rw [h.heldInReset hrst]
  exact blockInv_assertReset { s with sched := rest }

/-! The frames and their aggregates (R290, R296) -/

theorem CommandEffect.curAggs {s t : State} {i : Instr} (h : CommandEffect s i t) (hcur : s.cur.aggsHold) :
    t.cur.aggsHold := by
  cases h with
  | parseCvApplied => exact applyCv_aggsHold _ _
  | parseAuxApplied => exact applyAux_aggsHold _ _
  | linTemp | updCell | updTemp => exact CellFrame.refresh_aggsHold _
  | tick =>
    rw [tick_frame s _ rfl]
    exact hcur
  | txTelemDiag => simpa [pushCells] using hcur
  | _ => simpa using hcur

/-- The history and the pack aggregates after a command: left, or those of a closed cycle (R295). -/
theorem CommandEffect.hist_pack {s t : State} {i : Instr} (h : CommandEffect s i t) :
    (t.hist = s.hist ∧ t.pack = s.pack) ∨ (t.hist = closedHist s ∧ t.pack = packAggs (closedHist s)) := by
  rcases h.cycleKept with hkept | rfl | rfl
  · exact .inl ⟨hkept.hist, hkept.pack⟩
  · cases h with
    | badArg _ _ hwf => cases hwf
    | close => exact .inr ⟨rfl, rfl⟩
  · cases h with
    | badArg _ _ hwf => cases hwf
    | tick =>
      rw [tick_frame s _ rfl]
      exact .inr ⟨rfl, rfl⟩

/-- The working frame closed into the history brings its own aggregates. -/
theorem closedHist_aggsHold {s : State} (hcur : s.cur.aggsHold) (hhist : ∀ k : Fin Config.rollN, s.hist[k].aggsHold)
    (k : Fin Config.rollN) : (closedHist s)[k].aggsHold := by
  rw [closedHist_get]
  split
  · exact hcur
  · exact hhist k

/-! Discharge in Normal mode (R46) -/

theorem setMode_normalNoDischarge {m : OpMode} {s : State} (h : s.status.mode = .normal → s.dcc = 0) :
    (setMode m s).status.mode = .normal → (setMode m s).dcc = 0 := by
  by_cases hm : m = s.status.mode
  · rwa [setMode_of_eq hm]
  · rw [setMode_of_ne hm]
    exact fun hnormal => if_pos hnormal

theorem CommandEffect.normalNoDischarge {s t : State} {i : Instr} (h : CommandEffect s i t)
    (hs : s.status.mode = .normal → s.dcc = 0) : t.status.mode = .normal → t.dcc = 0 := by
  cases h with
  | balance hmode => exact fun hnormal => absurd (hmode.symm.trans hnormal) (by decide)
  | setMode => exact setMode_normalNoDischarge hs
  | tick =>
    refine tickControl_normalNoDischarge _ ?_
    rw [tickSequence_frame]
    exact hs
  | txTelemDiag => simpa [pushCells] using hs
  | _ => simpa [rxFlags] using hs

/-! The transmit queue (R65) -/

theorem Pushed.queueHolds {s t : State} (h : Pushed s t) (hs : QueueHolds s.txq) : QueueHolds t.txq :=
  ⟨h.depth hs.1, h.padded hs.2⟩

theorem queueHolds_of_cons {f : BusFrame} {rest : List BusFrame} (h : QueueHolds (f :: rest)) : QueueHolds rest :=
  ⟨(Nat.le_succ _).trans h.1, fun g hg => h.2 g (List.mem_cons_of_mem f hg)⟩

/-- An entry into FAULT pushes its fault frame (R364). -/
theorem enterFault_queueHolds (c : BitVec 5) {s : State} (hs : QueueHolds s.txq) :
    QueueHolds (enterFault c s).txq := by
  have hpush : (enterFault c s).txq = (pushFault c s).txq := by simp
  rw [hpush]
  exact (pushed_fault c s).queueHolds hs

theorem tickSequence_queueHolds (c : BitVec 5) {s : State} (hs : QueueHolds s.txq) :
    QueueHolds (tickSequence c s).txq := by
  rcases tickSequence_cases c s with ⟨-, e⟩ | ⟨-, -, -, -, e⟩ | ⟨-, -, -, e⟩ | ⟨-, -, -, e⟩ | ⟨-, -, -, e⟩ <;> rw [e]
  · simpa using hs
  · exact (pushed_fault c s).queueHolds hs
  · exact hs
  · exact enterFault_queueHolds c hs
  · exact hs

theorem CommandEffect.queueHolds {s t : State} {i : Instr} (h : CommandEffect s i t) (hs : QueueHolds s.txq) :
    QueueHolds t.txq := by
  cases h with
  | txVsum => exact (pushed_vsum s).queueHolds hs
  | txTsum => exact (pushed_tsum s).queueHolds hs
  | txCell => exact (pushed_cell _ s).queueHolds hs
  | txTelem => exact (pushed_summaries s).queueHolds hs
  | txTelemDiag => exact (pushed_burst s).queueHolds hs
  | txqPop f rest hq => exact queueHolds_of_cons (hq ▸ hs)
  | tick =>
    rw [tickControl_frame]
    exact tickSequence_queueHolds _ hs
  | _ => simpa using hs

/-! The command-frame buffer (R43) -/

/-- A frame of four bytes at most leaves the second and third word of the buffer 0. -/
theorem txBuffer_padded_of_length_le {b : List Byte} (h : b.length ≤ 4) : (txBuffer b 4).padded := by
  have hpad (k : Nat) (hk : 4 ≤ k) : b.getD k 0 = 0 := List.getD_eq_default _ _ (h.trans hk)
  refine .inr (.inl ⟨rfl, ?_, ?_⟩)
  · simp only [txBuffer, hpad 4, hpad 5, hpad 6, hpad 7, Nat.reduceLeDiff]
    rfl
  · simp only [txBuffer, hpad 8, hpad 9, hpad 10, hpad 11, Nat.reduceLeDiff]
    rfl

theorem CommandEffect.txbPadded {s t : State} {i : Instr} (h : CommandEffect s i t) (hs : s.txb.padded) :
    t.txb.padded := by
  cases h with
  | buildCmd => exact txBuffer_padded_of_length_le le_rfl
  | buildWrcfg => exact .inr (.inr rfl)
  | tick =>
    rw [tick_frame s _ rfl]
    exact hs
  | txTelemDiag => simpa [pushCells] using hs
  | _ => simpa using hs

/-! The sequencer state and the cause bits (R374) -/

/-- A limit check finds no watchdog bit (R361). -/
theorem limits_and_causeWd (s : State) : limits s &&& causeWd = 0 := by
  have hbits (a b c d : Bool) :
      (0#1 ++ BitVec.ofBool a ++ BitVec.ofBool b ++ BitVec.ofBool c ++ BitVec.ofBool d) &&& causeWd = 0 := by
    revert a b c d
    decide
  exact hbits _ _ _ _

/-- The watchdog always records its own bit (R371). -/
theorem wdogCause_ne_zero (s : State) : wdogCause s ≠ 0 := by
  have hbits (c : BitVec 5) : (c &&& 0x0F) ||| causeWd ≠ 0 := by
    revert c
    decide
  exact hbits _

/-- In FAULT the two agree as soon as there is a cause. -/
theorem causeAgrees_of_fault {st : Status} (hsup : st.sup = .fault) (hcause : st.cause ≠ 0) : CauseAgrees st :=
  ⟨iff_of_false (by simp [hsup]) hcause, fun hdeb => absurd (hsup.symm.trans hdeb) (by decide)⟩

/-- Whatever the sequencer state before, its part of a tick brings it into agreement with the cause bits of the limit
check (R362, R363, R366). -/
theorem tickSequence_causeAgrees {c : BitVec 5} {s : State} (hcause : s.status.cause = c)
    (hwd : c &&& causeWd = 0) : CauseAgrees (tickSequence c s).status := by
  rcases tickSequence_cases c s with ⟨hc, e⟩ | ⟨hc, hsup, -, -, e⟩ | ⟨hc, hsup, -, e⟩ | ⟨hc, -, -, e⟩ | ⟨hc, -, -, e⟩ <;>
    rw [e]
  · simp [CauseAgrees, hcause, hc]
  · exact causeAgrees_of_fault (by simpa using hsup) (by simpa [hcause] using hc)
  · exact causeAgrees_of_fault hsup (by simpa [hcause] using hc)
  · exact causeAgrees_of_fault (by simp) (by simpa [hcause] using hc)
  · exact ⟨iff_of_false (by simp) (by simpa [hcause] using hc), fun _ => by simpa [hcause] using hwd⟩

theorem tick_causeAgrees (s : State) :
    CauseAgrees (tickControl (tickSequence (tickCause s) (setCause (tickCause s) (closeCycle s)))).status := by
  obtain ⟨hsup, -, hcause⟩ := tickControl_status
    (tickSequence (tickCause s) (setCause (tickCause s) (closeCycle s)))
  rw [CauseAgrees, hsup, hcause]
  exact tickSequence_causeAgrees rfl (limits_and_causeWd _)

theorem setMode_causeAgrees {m : OpMode} {s : State} (hs : CauseAgrees s.status) :
    CauseAgrees (setMode m s).status := by
  by_cases hm : m = s.status.mode
  · rwa [setMode_of_eq hm]
  · rw [setMode_of_ne hm]
    exact hs

theorem CommandEffect.causeAgrees {s t : State} {i : Instr} (h : CommandEffect s i t) (hs : CauseAgrees s.status) :
    CauseAgrees t.status := by
  cases h with
  | tick => exact tick_causeAgrees s
  | setMode => exact setMode_causeAgrees hs
  | buildWrcfg | balance | rxFrame => exact hs
  | txTelemDiag => simpa [pushCells] using hs
  | _ => simpa using hs

/-! The instructions and the strobe -/

/-- A command outside reset keeps every field of the invariant. -/
theorem CommandEffect.blockInv {s t : State} {i : Instr} (h : CommandEffect s i t) (hs : BlockInv s)
    (hrst : s.rst = false) : BlockInv t where
  curAggs := h.curAggs hs.curAggs
  histAggs k := by
    rcases h.hist_pack with ⟨hhist, -⟩ | ⟨hhist, -⟩ <;> rw [hhist]
    · exact hs.histAggs k
    · exact closedHist_aggsHold hs.curAggs hs.histAggs k
  packAvgs := by
    rcases h.hist_pack with ⟨hhist, hpack⟩ | ⟨hhist, hpack⟩ <;> rw [hhist, hpack]
    exact hs.packAvgs
  normalNoDischarge := h.normalNoDischarge hs.normalNoDischarge
  queueDepth := (h.queueHolds hs.queueHolds).1
  queuePadded := (h.queueHolds hs.queueHolds).2
  txbPadded := h.txbPadded hs.txbPadded
  idleNoCause := (h.causeAgrees hs.causeAgrees).1
  debounceCause := (h.causeAgrees hs.causeAgrees).2
  heldInReset := heldInReset_of_running (h.commandKeeps.rst.trans hrst)

theorem BlockInv.of_exec_rd {s t : State} (hs : BlockInv s) (hrst : s.rst = false) {off : Offset} {size : AccessSize}
    (h : exec (.rd off size) s = .next t) : BlockInv t := by
  rcases exec_rd_inv h with ⟨-, rfl⟩ | ⟨r, -, rfl⟩ <;> exact hs.of_frame hrst rfl

theorem BlockInv.of_exec_wr {s t : State} (hs : BlockInv s) (hrst : s.rst = false) {off : Offset} {size : AccessSize}
    {v : Word} (h : exec (.wr off size v) s = .next t) : BlockInv t := by
  rcases exec_wr_inv h with rfl | ⟨r, -, -, rfl⟩ | ⟨r, -, -, rfl⟩ | ⟨r, -, -, rfl⟩ | ⟨r, i, -, -, -, hc, he⟩ | rfl
  · exact hs.of_frame hrst rfl
  · rw [storeRw_frame]
    exact hs.of_frame hrst rfl
  · rw [clearSticky_frame]
    exact hs.of_frame hrst rfl
  · rw [clearCounter_frame]
    exact hs.of_frame hrst rfl
  · exact (command_effect hc he).blockInv hs hrst
  · exact hs.of_frame hrst rfl

/-- An entry into FAULT with a cause recorded (R364, R371). -/
theorem BlockInv.enterFault_setCause {s : State} (hs : BlockInv s) (hrst : s.rst = false) {c : BitVec 5}
    (hc : c ≠ 0) : BlockInv (enterFault c (setCause c s)) := by
  have hqueue : QueueHolds (enterFault c (setCause c s)).txq := enterFault_queueHolds c hs.queueHolds
  have hcause : CauseAgrees (enterFault c (setCause c s)).status := causeAgrees_of_fault (by simp) (by simpa using hc)
  exact {
    curAggs := by simpa using hs.curAggs
    histAggs := by simpa using hs.histAggs
    packAvgs := by simpa using hs.packAvgs
    normalNoDischarge := by simpa using hs.normalNoDischarge
    queueDepth := hqueue.1
    queuePadded := hqueue.2
    txbPadded := by simpa using hs.txbPadded
    idleNoCause := hcause.1
    debounceCause := hcause.2
    heldInReset := heldInReset_of_running (by simpa using hrst) }

theorem BlockInv.timeStrobe {s : State} (hs : BlockInv s) (hrst : s.rst = false) : BlockInv (timeStrobe s) := by
  have hadvanced : BlockInv { s with msCount := s.msCount + 1 } := hs.of_frame hrst rfl
  rcases timeStrobe_cases s with ⟨-, e⟩ | ⟨-, e⟩ <;> rw [e]
  · exact hadvanced
  · exact hadvanced.enterFault_setCause hrst (wdogCause_ne_zero s)

/-- Settles O53: an edge of `rst` or a strobe in reset by the reset values, every other event by what it runs. -/
theorem invKeptByEveryStep : Obligations.InvKeptByEveryStep := by
  intro s t hs h
  have htake (hrst : s.rst = false) (rest : List Event) : BlockInv { s with sched := rest } := hs.of_frame hrst rfl
  rcases step_cases h with ⟨-, rfl⟩ | ⟨rest, -, rfl⟩ | ⟨rest, -, rfl⟩ | ⟨rest, -, hrst, rfl⟩ | ⟨rest, -, hrst, rfl⟩ |
    ⟨off, size, rest, -, hrst, he⟩ | ⟨off, size, v, rest, -, hrst, he⟩
  · exact hs
  · exact blockInv_assertReset _
  · exact hs.of_frame rfl rfl
  · exact hs.of_held hrst rest
  · exact (htake hrst rest).timeStrobe hrst
  · exact (htake hrst rest).of_exec_rd hrst he
  · exact (htake hrst rest).of_exec_wr hrst he

end Sys2Proof.Machine
end

section
/-! The vehicle bus (44_bus R320 to R340): a push by the room in the queue, the frame each command pushes byte by byte,
several pushes one after the other, the queue's head removed, and the inbound frame. -/

namespace Sys2Proof.Machine

/-! One push (R320) -/

theorem push_of_room {s : State} (h : s.txq.length < 8) (id : Word) (b : List Byte) :
    push id b s = { s with txq := s.txq ++ [busFrame id b] } := if_neg h.not_ge

theorem push_of_full {s : State} (h : 8 ≤ s.txq.length) (id : Word) (b : List Byte) :
    push id b s = { s with err := s.err ||| 0x040 } := if_pos h

/-! The frames (R321 to R323) -/

/-- A little-endian half word is its low byte and its high byte (R13). -/
theorem le16_eq (v : Half) : le16 v = [loByte v, hiByte v] :=
  calc le16 v
    _ = (be16 v).reverse := rfl
    _ = [loByte v, hiByte v] := by rw [be16_eq]; rfl

/-- The eight bytes of the voltage summary, the total in millivolts (R321). -/
theorem busFrame_vsumData (id : Word) (s : State) :
    (busFrame id (vsumData s)).len.val = 8 ∧
    (busFrame id (vsumData s)).data.toList = [loByte s.pack.vmin, hiByte s.pack.vmin, loByte s.pack.vmax,
      hiByte s.pack.vmax, loByte s.pack.vavg, hiByte s.pack.vavg, loByte (sat16 (s.pack.vtot.toNat / 10)),
      hiByte (sat16 (s.pack.vtot.toNat / 10))] := by
  rw [busFrame_data]
  simp only [vsumData, le16_eq]
  exact ⟨rfl, rfl⟩

/-- The eight bytes of the temperature and current summary (R322). -/
theorem busFrame_tsumData (id : Word) (s : State) :
    (busFrame id (tsumData s)).len.val = 8 ∧
    (busFrame id (tsumData s)).data.toList = [loByte s.pack.tmax, hiByte s.pack.tmax, loByte s.pack.tmin,
      hiByte s.pack.tmin, byteOf s.regs.current 0, byteOf s.regs.current 1, byteOf s.regs.current 2,
      byteOf s.regs.current 3] := by
  rw [busFrame_data]
  simp only [tsumData, le16_eq, le32]
  exact ⟨rfl, rfl⟩

/-- The six bytes of a diagnostic frame, with the padding after them (R323). -/
theorem busFrame_cellData (id : Word) (s : State) (k : Fin 4) :
    (busFrame id (cellData s k)).len.val = 6 ∧
    (busFrame id (cellData s k)).data.toList = [loByte (lastCell s k 0), hiByte (lastCell s k 0),
      loByte (lastCell s k 1), hiByte (lastCell s k 1), loByte (lastCell s k 2), hiByte (lastCell s k 2), 0, 0] := by
  rw [busFrame_data]
  simp only [cellData, le16_eq]
  exact ⟨rfl, rfl⟩

/-- Settles O39: each command is its push, with room or without. -/
theorem summaryFramesAreQueued : Obligations.SummaryFramesAreQueued := by
  intro s p total cur
  refine ⟨fun hroom => ⟨⟨_, ?vsum, rfl, busFrame_vsumData _ s⟩, ⟨_, ?tsum, rfl, busFrame_tsumData _ s⟩⟩,
    fun hfull => ⟨?vsumFull, ?tsumFull⟩⟩
  case vsum => rw [exec_txVsum, pushVsum, push_of_room hroom]
  case tsum => rw [exec_txTsum, pushTsum, push_of_room hroom]
  case vsumFull => rw [exec_txVsum, pushVsum, push_of_full hfull]
  case tsumFull => rw [exec_txTsum, pushTsum, push_of_full hfull]

/-- Settles O40: the command in range is the push of its frame. -/
theorem cellFrameIsQueued : Obligations.CellFrameIsQueued := by
  intro s k hk c
  refine ⟨fun hroom => ⟨busFrame (s.regs.idCell + BitVec.ofNat 32 k.toNat) (cellData s ⟨k.toNat, hk⟩), ?room, ?id,
    busFrame_cellData _ s ⟨k.toNat, hk⟩⟩, fun hfull => ?full⟩
  case room => rw [exec_txCell k s hk, pushCell, push_of_room hroom]
  case id => simp [busFrame, BitVec.toNat_add]
  case full => rw [exec_txCell k s hk, pushCell, push_of_full hfull]

/-! Several pushes: each frame is queued while there is room, and dropped with TXQ_OVF after that (R334) -/

/-- The state after the frames have been pushed one after the other, as far as they fit. -/
def enqueue (s : State) (frames : List BusFrame) : State :=
  { s with
    txq := (s.txq ++ frames).take 8
    err := if s.txq.length + frames.length ≤ 8 then s.err else s.err ||| 0x040 }

theorem enqueue_of_fits {s : State} {frames : List BusFrame} (h : s.txq.length + frames.length ≤ 8) :
    enqueue s frames = { s with txq := s.txq ++ frames } := by
  rw [enqueue, if_pos h, List.take_of_length_le (by simpa using h)]

theorem enqueue_nil {s : State} (h : s.txq.length ≤ 8) : enqueue s [] = s := by
  rw [enqueue_of_fits (by simpa using h), List.append_nil]

/-- One more push after some: queued when there is still room, dropped otherwise. -/
theorem push_enqueue {s : State} (h : s.txq.length ≤ 8) (frames : List BusFrame) (id : Word) (b : List Byte) :
    push id b (enqueue s frames) = enqueue s (frames ++ [busFrame id b]) := by
  have hlen : (enqueue s frames).txq.length = min 8 (s.txq.length + frames.length) := by simp [enqueue]
  have hone : (frames ++ [busFrame id b]).length = frames.length + 1 := List.length_append
  by_cases hroom : s.txq.length + frames.length < 8
  · rw [push_of_room (by omega), enqueue_of_fits hroom.le, enqueue_of_fits (by omega), List.append_assoc]
  · have hover : ¬ s.txq.length + (frames ++ [busFrame id b]).length ≤ 8 := by omega
    have htake : (s.txq ++ (frames ++ [busFrame id b])).take 8 = (s.txq ++ frames).take 8 := by
      rw [← List.append_assoc, List.take_append_of_le_length (by simpa using hroom)]
    rw [push_of_full (by omega), enqueue, enqueue, if_neg hover, htake]
    split
    · rfl
    · rw [BitVec.or_assoc, BitVec.or_self]

theorem pushVsum_enqueue {s : State} (h : s.txq.length ≤ 8) (frames : List BusFrame) :
    pushVsum (enqueue s frames) = enqueue s (frames ++ [busFrame s.regs.idVsum (vsumData s)]) :=
  push_enqueue h frames s.regs.idVsum (vsumData s)

theorem pushTsum_enqueue {s : State} (h : s.txq.length ≤ 8) (frames : List BusFrame) :
    pushTsum (enqueue s frames) = enqueue s (frames ++ [busFrame s.regs.idTsum (tsumData s)]) :=
  push_enqueue h frames s.regs.idTsum (tsumData s)

theorem pushCell_enqueue {s : State} (h : s.txq.length ≤ 8) (frames : List BusFrame) (k : Fin 4) :
    pushCell k (enqueue s frames) =
      enqueue s (frames ++ [busFrame (s.regs.idCell + BitVec.ofNat 32 k.val) (cellData s k)]) :=
  push_enqueue h frames (s.regs.idCell + BitVec.ofNat 32 k.val) (cellData s k)

/-- Settles O41: the burst is a sequence of pushes, none of which changes what the next one's frame is made of. -/
theorem telemetryBurstQueuesWhatFits : Obligations.TelemetryBurstQueuesWhatFits := by
  intro s hdepth cells burst
  have hsummaries : pushTsum (pushVsum s) =
      enqueue s [busFrame s.regs.idVsum (vsumData s), busFrame s.regs.idTsum (tsumData s)] :=
    calc pushTsum (pushVsum s)
      _ = pushTsum (pushVsum (enqueue s [])) := by rw [enqueue_nil hdepth]
      _ = _ := by rw [pushVsum_enqueue hdepth, pushTsum_enqueue hdepth]; rfl
  have hburst : exec .txTelem s = .next (enqueue s burst) := by
    rw [exec_txTelem, hsummaries]
    cases hdiag : s.status.diag with
    | false => simp [burst, hdiag]
    | true => simp [burst, cells, hdiag, pushCells, pushCell_enqueue hdepth]
  exact hburst

/-! The head (R335) -/

/-- Settles O42: the command's equation on each form of the queue. -/
theorem popRemovesTheHead : Obligations.PopRemovesTheHead := fun s f rest =>
  ⟨exec_txqPop_cons s f rest, exec_txqPop_nil s⟩

/-! The inbound frame (R340) -/

theorem rxHits_iff {s : State} {id : Word} : rxHits s id = true ↔ s.regs.rxLen ≠ 0 ∧ s.regs.rxId = id := by
  simp [rxHits]

/-- Byte 0 of the inbound frame, as claims state it. -/
theorem rxByte0_ne_zero_iff (s : State) : (rxByte0 s != 0) = true ↔ s.regs.rxD0.toNat % 256 ≠ 0 := by
  have hbyte : (rxByte0 s).toNat = s.regs.rxD0.toNat % 256 := by simp [rxByte0, byteOf_toNat]
  rw [← hbyte, bne_iff_ne, ne_eq, ← BitVec.toNat_inj]
  rfl

/-- A balancing request takes whether byte 0 is non-zero. -/
theorem rxFlags_balReq_iff {s : State} (hlen : s.regs.rxLen ≠ 0) (hid : s.regs.rxId = s.regs.idBal) :
    (rxFlags s).balReq = true ↔ s.regs.rxD0.toNat % 256 ≠ 0 := by
  rw [← rxByte0_ne_zero_iff, rxFlags, if_pos (rxHits_iff.mpr ⟨hlen, hid⟩)]

/-- A diagnostic request takes whether byte 0 is non-zero. -/
theorem rxFlags_diag_iff {s : State} (hlen : s.regs.rxLen ≠ 0) (hid : s.regs.rxId = s.regs.idDiag) :
    (rxFlags s).diag = true ↔ s.regs.rxD0.toNat % 256 ≠ 0 := by
  rw [← rxByte0_ne_zero_iff, rxFlags, if_pos (rxHits_iff.mpr ⟨hlen, hid⟩)]

/-- Settles O43: a frame that hits no identifier by its two reasons, and the flags by the identifiers hit. -/
theorem rxFrameSetsFlags : Obligations.RxFrameSetsFlags := by
  intro s on bal dia
  have hmatch : (rxHits s s.regs.idBal || rxHits s s.regs.idDiag) = true ↔ s.regs.rxLen ≠ 0 ∧ (bal ∨ dia) := by
    rw [Bool.or_eq_true, rxHits_iff, rxHits_iff, and_or_left]
  refine ⟨fun hnone => ?none, fun hlen hid => ⟨raiseEvt .rxMatch { s with status := rxFlags s }, ?exec,
    rxFlags_balReq_iff hlen, fun hbal => ?balKept, rxFlags_diag_iff hlen, fun hdia => ?diagKept, rfl⟩⟩
  case none =>
    rw [exec_rxFrame, if_neg (hmatch.not.mpr (by tauto))]
  case exec => rw [exec_rxFrame, if_pos (hmatch.mpr ⟨hlen, hid⟩)]
  case balKept => exact if_neg fun hhit => hbal (rxHits_iff.mp hhit).2
  case diagKept => exact if_neg fun hhit => hdia (rxHits_iff.mp hhit).2

end Sys2Proof.Machine
end

section
/-! The sequencer's part of a tick (45_supervisor R360 to R366, R373): one equation per branch of the table, and what
the end of the tick leaves of it. -/

namespace Sys2Proof.Machine

/-! A fault frame pushed and an entry into FAULT, as claims state them (R324, R364) -/

theorem pushFault_queued (c : BitVec 5) (s : State) :
    (pushFault c s).txq = (if 8 ≤ s.txq.length then s.txq else s.txq ++ [faultFrame s.regs.idFault c]) ∧
    (pushFault c s).err = (if 8 ≤ s.txq.length then s.err ||| 0x040 else s.err) := by
  by_cases hfull : 8 ≤ s.txq.length
  · rw [pushFault, push_of_full hfull, if_pos hfull, if_pos hfull]
    exact ⟨rfl, rfl⟩
  · rw [pushFault, push_of_room (not_le.mp hfull), if_neg hfull, if_neg hfull]
    exact ⟨rfl, rfl⟩

/-- An entry into FAULT pushes one fault frame, counts itself, saturating, and raises FAULT_ENTER. -/
theorem enterFault_actions (c : BitVec 5) (s : State) :
    (enterFault c s).txq = (if 8 ≤ s.txq.length then s.txq else s.txq ++ [faultFrame s.regs.idFault c]) ∧
    (enterFault c s).err = (if 8 ≤ s.txq.length then s.err ||| 0x040 else s.err) ∧
    (enterFault c s).cnt.fault.toNat = min (s.cnt.fault.toNat + 1) 0xFFFF ∧
    (enterFault c s).evt = s.evt ||| 0x1 := by
  have htxq : (enterFault c s).txq = (pushFault c s).txq := by simp
  have herr : (enterFault c s).err = (pushFault c s).err := by simp
  obtain ⟨hqueued, hovf⟩ := pushFault_queued c s
  exact ⟨htxq.trans hqueued, herr.trans hovf, by simp [satIncr_toNat], by simp [EvtBit.code]⟩

/-! The branches (R362, R363, R366) -/

theorem tickSequence_of_inLimits {c : BitVec 5} (hc : c = 0) (s : State) : tickSequence c s = tickPass s := if_pos hc

/-- Out of limits in FAULT (R366). -/
theorem tickSequence_of_fault {c : BitVec 5} {s : State} (hc : c ≠ 0) (hsup : s.status.sup = .fault) :
    tickSequence c s = tickRepeat c s := by
  rw [tickSequence, if_neg hc, if_pos hsup]

/-- Out of limits outside FAULT (R363). -/
theorem tickSequence_of_ne_fault {c : BitVec 5} {s : State} (hc : c ≠ 0) (hsup : s.status.sup ≠ .fault) :
    tickSequence c s = tickDebounce c s := by
  rw [tickSequence, if_neg hc, if_neg hsup]

/-- The repeat's condition, as claims state it: FREP set and the interval since the last fault frame over. -/
theorem tickRepeat_due_iff (s : State) :
    (frep s && elapsed s s.seq.lastFtx) = true ↔
      s.regs.ctrl.getLsbD 2 = true ∧ s.regs.debMs.toNat ≤ (s.msCount - s.seq.lastFtx).toNat := by
  rw [Bool.and_eq_true, elapsed_iff, frep]

theorem tickRepeat_of_due {s : State} (h : s.regs.ctrl.getLsbD 2 = true ∧
    s.regs.debMs.toNat ≤ (s.msCount - s.seq.lastFtx).toNat) (c : BitVec 5) :
    tickRepeat c s = { pushFault c s with seq := { s.seq with lastFtx := s.msCount } } := by
  rw [tickRepeat, if_pos ((tickRepeat_due_iff s).mpr h)]
  simp

theorem tickRepeat_of_not_due {s : State} (h : ¬ (s.regs.ctrl.getLsbD 2 = true ∧
    s.regs.debMs.toNat ≤ (s.msCount - s.seq.lastFtx).toNat)) (c : BitVec 5) : tickRepeat c s = s :=
  if_neg ((tickRepeat_due_iff s).not.mpr h)

/-- A repeated fault frame changes neither the sequencer state nor the count of entries, and raises no event (R366). -/
@[simp] theorem tickRepeat_kept (c : BitVec 5) (s : State) :
    (tickRepeat c s).status = s.status ∧ (tickRepeat c s).cnt = s.cnt ∧ (tickRepeat c s).evt = s.evt := by
  unfold tickRepeat
  split <;> simp

theorem tickDebounce_of_due {s : State} (h : s.regs.debMs.toNat ≤ (s.msCount - s.seq.lastGood).toNat)
    (c : BitVec 5) : tickDebounce c s = enterFault c s := if_pos ((elapsed_iff s _).mpr h)

theorem tickDebounce_of_not_due {s : State} (h : ¬ s.regs.debMs.toNat ≤ (s.msCount - s.seq.lastGood).toNat)
    (c : BitVec 5) : tickDebounce c s = setSup .debSafe s := if_neg ((elapsed_iff s _).not.mpr h)

/-! The end of the tick -/

/-- The control check leaves what the sequencer's part of a tick sets (R367, R368). -/
@[simp] theorem tickControl_kept (s : State) :
    (tickControl s).status.sup = s.status.sup ∧ (tickControl s).status.cause = s.status.cause ∧
    (tickControl s).seq = s.seq ∧ (tickControl s).txq = s.txq ∧ (tickControl s).err = s.err ∧
    (tickControl s).evt = s.evt ∧ (tickControl s).cnt = s.cnt ∧ (tickControl s).msCount = s.msCount := by
  obtain ⟨hsup, -, hcause⟩ := tickControl_status s
  refine ⟨hsup, hcause, ?_⟩
  rw [tickControl_frame]
  exact ⟨rfl, rfl, rfl, rfl, rfl, rfl⟩

/-- The state the sequencer's part of a tick starts from: the cycle closed and the cause bits recorded (R360). -/
def tickClosed (s : State) : State := setCause (tickCause s) (closeCycle s)

/-- What of that state the sequencer reads and sets is as before the tick, but for the cause bits and the event of
the closed cycle. -/
@[simp] theorem tickClosed_fields (s : State) :
    (tickClosed s).regs = s.regs ∧ (tickClosed s).status.sup = s.status.sup ∧
    (tickClosed s).status.cause = tickCause s ∧ (tickClosed s).msCount = s.msCount ∧ (tickClosed s).seq = s.seq ∧
    (tickClosed s).txq = s.txq ∧ (tickClosed s).err = s.err ∧ (tickClosed s).evt = s.evt ||| 0x4 ∧
    (tickClosed s).cnt.fault = s.cnt.fault :=
  ⟨rfl, rfl, rfl, rfl, rfl, rfl, rfl, rfl, rfl⟩

theorem exec_tick_eq (s : State) :
    exec .tick s = .next (tickControl (tickSequence (tickCause s) (tickClosed s))) := exec_tick s

/-- Settles O46: each row of the table by the equation of its branch. -/
theorem tickSequencerTable : Obligations.TickSequencerTable := by
  intro s t u hclose htick c frame pushed ovf due
  obtain rfl : closeCycle s = u := Host.Outcome.next.inj ((exec_close s).symm.trans hclose)
  obtain rfl : tickControl (tickSequence c (tickClosed s)) = t := Host.Outcome.next.inj ((exec_tick_eq s).symm.trans htick)
  have hstays (hc : c ≠ 0) (hsup : s.status.sup = .fault) :
      tickSequence c (tickClosed s) = tickRepeat c (tickClosed s) := tickSequence_of_fault hc hsup
  have hleaves (hc : c ≠ 0) (hsup : s.status.sup ≠ .fault) :
      tickSequence c (tickClosed s) = tickDebounce c (tickClosed s) := tickSequence_of_ne_fault hc hsup
  refine ⟨fun hc => ?inLimits, fun hc hsup => ⟨?fault, ?uncounted, ?silent, fun hdue => ?repeats, fun hdue => ?quiet⟩,
    fun hc hsup hdue => ?debounces, fun hc hsup hdue => ?enters⟩
  case inLimits =>
    rw [tickSequence_of_inLimits hc]
    refine ⟨by simp, by simp, by simp, by simp, by simp, ?evt⟩
    by_cases hsup : s.status.sup = .fault <;> simp [hsup, EvtBit.code, BitVec.or_assoc]
  case fault =>
    rw [hstays hc hsup]
    simpa using hsup
  case uncounted | silent => simp [hstays hc hsup]
  case repeats =>
    rw [hstays hc hsup, tickRepeat_of_due (s := tickClosed s) hdue]
    obtain ⟨hqueued, hovf⟩ := pushFault_queued c (tickClosed s)
    simp only [tickControl_kept]
    exact ⟨hqueued, hovf, rfl⟩
  case quiet =>
    rw [hstays hc hsup, tickRepeat_of_not_due (s := tickClosed s) hdue]
    simp
  case debounces =>
    rw [hleaves hc hsup, tickDebounce_of_not_due (s := tickClosed s) hdue]
    simp
  case enters =>
    rw [hleaves hc hsup, tickDebounce_of_due (s := tickClosed s) hdue]
    obtain ⟨hqueued, hovf, hcount, hevt⟩ := enterFault_actions c (tickClosed s)
    simp only [tickControl_kept]
    exact ⟨by simp, by simp, hqueued, hovf, hcount, hevt.trans (BitVec.or_assoc _ _ _)⟩

end Sys2Proof.Machine
end

section
/-! Entries into FAULT (45_supervisor R363, R364, R371, R375): only a tick and a strobe enter it, and both do so by the
same actions. -/

namespace Sys2Proof.Machine

/-- The bits a disjunction sets are set in it. -/
theorem or_and_self_right {n : Nat} (x y : BitVec n) : (x ||| y) &&& y = y := by
  rw [BitVec.and_comm, BitVec.or_comm, and_or_self_left]

/-- `t` is `s` after an entry into FAULT with all its actions, each done once. -/
structure FaultEntered (s t : State) : Prop where
  sup : t.status.sup = .fault
  deadline : s.regs.debMs.toNat ≤ (t.msCount - s.seq.lastGood).toNat
  lastGood : t.seq.lastGood = s.seq.lastGood
  event : t.evt &&& 0x1 = 0x1
  counted : t.cnt.fault.toNat = min (s.cnt.fault.toNat + 1) 0xFFFF
  latched : t.seq.fcause = t.status.cause
  cause : t.status.cause ≠ 0
  lastFtx : t.seq.lastFtx = t.msCount
  queued : t.txq = if 8 ≤ s.txq.length then s.txq else s.txq ++ [faultFrame s.regs.idFault t.status.cause]
  dropped : 8 ≤ s.txq.length → t.err &&& 0x040 = 0x040

/-- The actions of R364, when the debounce interval is over and a cause is recorded. -/
theorem faultEntered_enterFault {s : State} (hdue : s.regs.debMs.toNat ≤ (s.msCount - s.seq.lastGood).toNat)
    (hcause : s.status.cause ≠ 0) : FaultEntered s (enterFault s.status.cause s) := by
  obtain ⟨hqueued, hovf, hcount, hevt⟩ := enterFault_actions s.status.cause s
  exact {
    sup := by simp
    deadline := by simpa using hdue
    lastGood := by simp
    event := by rw [hevt, or_and_self_right]
    counted := hcount
    latched := by simp
    cause := by simpa using hcause
    lastFtx := by simp
    queued := by simpa using hqueued
    dropped := fun hfull => by rw [hovf, if_pos hfull, or_and_self_right] }

/-- Of the state before, the claim speaks of the host's registers, `LAST_GOOD`, the count of entries and the queue. -/
theorem FaultEntered.of_before {s u t : State} (h : FaultEntered u t) (hregs : u.regs = s.regs)
    (hgood : u.seq.lastGood = s.seq.lastGood) (hcount : u.cnt.fault = s.cnt.fault) (htxq : u.txq = s.txq) :
    FaultEntered s t :=
  { h with
    deadline := hregs ▸ hgood ▸ h.deadline
    lastGood := hgood ▸ h.lastGood
    counted := hcount ▸ h.counted
    queued := hregs ▸ htxq ▸ h.queued
    dropped := htxq ▸ h.dropped }

/-- The control check that ends a tick leaves the entry as it is (R367, R368). -/
theorem FaultEntered.control {s t : State} (h : FaultEntered s t) : FaultEntered s (tickControl t) := by
  obtain ⟨hsup, hcause, hseq, htxq, herr, hevt, hcnt, hms⟩ := tickControl_kept t
  constructor <;> simp only [hsup, hcause, hseq, htxq, herr, hevt, hcnt, hms]
  exacts [h.sup, h.deadline, h.lastGood, h.event, h.counted, h.latched, h.cause, h.lastFtx, h.queued, h.dropped]

/-! The steps that can enter FAULT -/

/-- A tick enters FAULT only out of limits with the debounce interval over (R363). -/
theorem faultEntered_of_tick {s : State} (hs : s.status.sup ≠ .fault)
    (ht : (tickControl (tickSequence (tickCause s) (tickClosed s))).status.sup = .fault) :
    FaultEntered s (tickControl (tickSequence (tickCause s) (tickClosed s))) := by
  by_cases hc : tickCause s = 0
  · simp [tickSequence_of_inLimits hc] at ht
  have hleaves : tickSequence (tickCause s) (tickClosed s) = tickDebounce (tickCause s) (tickClosed s) :=
    tickSequence_of_ne_fault hc hs
  by_cases hdue : s.regs.debMs.toNat ≤ (s.msCount - s.seq.lastGood).toNat
  · rw [hleaves, tickDebounce_of_due (s := tickClosed s) hdue]
    have hentered : FaultEntered (tickClosed s) (enterFault (tickCause s) (tickClosed s)) :=
      faultEntered_enterFault hdue hc
    exact (hentered.of_before (s := s) rfl rfl rfl rfl).control
  · rw [hleaves, tickDebounce_of_not_due (s := tickClosed s) hdue] at ht
    simp at ht

/-- A strobe enters FAULT only by the watchdog (R371). -/
theorem faultEntered_of_timeStrobe {s : State} (hs : s.status.sup ≠ .fault)
    (ht : (timeStrobe s).status.sup = .fault) : FaultEntered s (timeStrobe s) := by
  rcases timeStrobe_cases s with ⟨-, e⟩ | ⟨hdue, e⟩ <;> rw [e] at ht ⊢
  · exact absurd ht hs
  · obtain ⟨-, -, hdeadline⟩ := (wdogDue_iff _).mp hdue
    have hentered : FaultEntered (setCause (wdogCause s) { s with msCount := s.msCount + 1 })
        (enterFault (wdogCause s) (setCause (wdogCause s) { s with msCount := s.msCount + 1 })) :=
      faultEntered_enterFault hdeadline (wdogCause_ne_zero s)
    exact hentered.of_before rfl rfl rfl rfl

/-- No command but TICK moves the sequencer state (R365, R373). -/
theorem CommandEffect.sup {s t : State} {i : Instr} (h : CommandEffect s i t) (htick : i ≠ .tick) :
    t.status.sup = s.status.sup := by
  cases h with
  | tick => exact absurd rfl htick
  | buildWrcfg | rxFrame => rfl
  | setMode =>
    simp only [setMode_fields]
    split <;> rfl
  | txTelemDiag => simp [pushCells]
  | _ => simp

theorem CommandEffect.faultEntered {s t : State} {i : Instr} (h : CommandEffect s i t) (hs : s.status.sup ≠ .fault)
    (ht : t.status.sup = .fault) : FaultEntered s t := by
  by_cases htick : i = .tick
  · subst htick
    cases h with
    | badArg _ _ hwf => cases hwf
    | tick => exact faultEntered_of_tick hs ht
  · exact absurd ((h.sup htick).symm.trans ht) hs

theorem sup_of_exec_rd {off : Offset} {size : AccessSize} {s t : State} (h : exec (.rd off size) s = .next t) :
    t.status.sup = s.status.sup := by
  rcases exec_rd_inv h with ⟨-, rfl⟩ | ⟨r, -, rfl⟩ <;> rfl

/-- A host write moves the sequencer state only by the command it runs. -/
theorem sup_of_exec_wr {off : Offset} {size : AccessSize} {v : Word} {s t : State}
    (h : exec (.wr off size v) s = .next t) :
    t.status.sup = s.status.sup ∨ ∃ i, CommandEffect s i t := by
  rcases exec_wr_inv h with rfl | ⟨r, -, -, rfl⟩ | ⟨r, -, -, rfl⟩ | ⟨r, -, -, rfl⟩ | ⟨r, i, -, -, -, hc, he⟩ | rfl
  · exact .inl rfl
  · rw [storeRw_frame]
    exact .inl rfl
  · rw [clearSticky_frame]
    exact .inl rfl
  · rw [clearCounter_frame]
    exact .inl rfl
  · exact .inr ⟨i, command_effect hc he⟩
  · exact .inl rfl

/-- Every step from outside FAULT into FAULT is such an entry. -/
theorem faultEntered_of_step {s t : State} (hs : s.status.sup ≠ .fault) (h : step s = .next t)
    (ht : t.status.sup = .fault) : FaultEntered s t := by
  have hmoved : t.status.sup ≠ s.status.sup := fun hkept => hs (hkept.symm.trans ht)
  rcases step_cases h with ⟨-, rfl⟩ | ⟨rest, -, rfl⟩ | ⟨rest, -, rfl⟩ | ⟨rest, -, -, rfl⟩ | ⟨rest, -, -, rfl⟩ |
    ⟨off, size, rest, -, -, he⟩ | ⟨off, size, v, rest, -, -, he⟩
  · exact absurd rfl hmoved
  · cases ht
  · exact absurd rfl hmoved
  · exact absurd rfl hmoved
  · exact (faultEntered_of_timeStrobe (s := { s with sched := rest }) hs ht).of_before rfl rfl rfl rfl
  · exact absurd (sup_of_exec_rd he) hmoved
  · obtain ⟨i, heffect⟩ := (sup_of_exec_wr he).resolve_left hmoved
    exact (heffect.faultEntered hs ht).of_before rfl rfl rfl rfl

/-- Settles O50: an entry with all its actions, its queue by the room there is, and no interlock in FAULT. -/
theorem faultEntryActions : Obligations.FaultEntryActions := by
  intro s t hs h ht
  have hentered := faultEntered_of_step hs h ht
  refine ⟨hentered.deadline, hentered.lastGood, hentered.event, hentered.counted, hentered.latched, hentered.cause,
    hentered.lastFtx, ?interlock, fun hroom => ?queued, fun hfull => ⟨?kept, hentered.dropped hfull⟩⟩
  case interlock => simp [ilkOk, ilkOkBit, ht]
  case queued => rw [hentered.queued, if_neg hroom.not_ge]
  case kept => rw [hentered.queued, if_pos hfull]

end Sys2Proof.Machine
end

section
/-! The limit check (45_supervisor R361): its four comparisons as numbers. -/

namespace Sys2Proof.Machine

/-- The cause bits of a limit check, bit by bit: UV, OV, UT, OT, and WD never. -/
theorem limits_getLsbD (s : State) :
    (limits s).getLsbD 0 = (limitSource s).vmin.ult s.regs.vminLim ∧
    (limits s).getLsbD 1 = s.regs.vmaxLim.ult (limitSource s).vmax ∧
    (limits s).getLsbD 2 = (limitSource s).tmin.slt s.regs.tminLim ∧
    (limits s).getLsbD 3 = s.regs.tmaxLim.slt (limitSource s).tmax ∧
    (limits s).getLsbD 4 = false := by
  have hbits (ot ut ov uv : Bool) :
      let c := 0#1 ++ BitVec.ofBool ot ++ BitVec.ofBool ut ++ BitVec.ofBool ov ++ BitVec.ofBool uv
      c.getLsbD 0 = uv ∧ c.getLsbD 1 = ov ∧ c.getLsbD 2 = ut ∧ c.getLsbD 3 = ot ∧ c.getLsbD 4 = false := by
    revert ot ut ov uv
    decide
  exact hbits _ _ _ _

/-- Settles O44: each bit by its comparison, the voltages unsigned and the temperatures signed. -/
theorem limitBitsAreViolations : Obligations.LimitBitsAreViolations := by
  intro s a
  obtain ⟨huv, hov, hut, hot, hwd⟩ := limits_getLsbD s
  refine ⟨?uv, ?ov, ?ut, ?ot, hwd⟩
  case uv => rw [huv, BitVec.ult_iff_lt, BitVec.lt_def]; rfl
  case ov => rw [hov, BitVec.ult_iff_lt, BitVec.lt_def]; rfl
  case ut => rw [hut, BitVec.slt_iff_toInt_lt]; rfl
  case ot => rw [hot, BitVec.slt_iff_toInt_lt]; rfl

end Sys2Proof.Machine
end

section
/-! What a tick leaves at its end (45_supervisor R360, R367, R368): the cycle closed, the limit check of it recorded,
and the mode and the bitmap of the control check. -/

namespace Sys2Proof.Machine

/-- Bits known to be set before stay set. -/
theorem StickyKept.evt_bits {s t : State} (h : StickyKept s t) {b : BitVec 4} (hb : s.evt &&& b = b) :
    t.evt &&& b = b :=
  calc t.evt &&& b
    _ = t.evt &&& (s.evt &&& b) := by rw [hb]
    _ = (s.evt &&& t.evt) &&& b := by rw [← BitVec.and_assoc, BitVec.and_comm t.evt]
    _ = b := by rw [h.evt, hb]

/-- The event of the closed cycle survives the rest of the tick. -/
theorem tick_evt_cycle (s : State) :
    (tickControl (tickSequence (tickCause s) (tickClosed s))).evt &&& 0x4 = 0x4 := by
  simp only [tickControl_kept]
  exact (commandKeeps_tickSequence (tickCause s) (tickClosed s)).toStickyKept.evt_bits (or_and_self_right s.evt 0x4)

/-- Settles O45: the frame of a tick, whose cycle is closed as `CLOSE` closes it. -/
theorem tickClosesAndChecks : Obligations.TickClosesAndChecks := by
  intro s
  refine ⟨_, _, exec_tick_eq s, exec_close s, ?_⟩
  have hevt := tick_evt_cycle s
  have hframe := tick_frame s (tickControl (tickSequence (tickCause s) (tickClosed s))) rfl
  generalize tickControl (tickSequence (tickCause s) (tickClosed s)) = t at hevt hframe ⊢
  refine ⟨?hist, ?cursor, ?pack, ?cycle, ?cause, hevt, ?diag, ?pecErr, ?frame⟩
  case frame => rw [hframe]
  case diag | pecErr => rw [hframe]
  all_goals
    rw [hframe]
    rfl

/-- What the control check of a tick reads is as `CLOSE` leaves it, whatever branch the sequencer takes. -/
theorem tickSequence_tickClosed_kept (c : BitVec 5) (s : State) :
    (tickSequence c (tickClosed s)).status.mode = s.status.mode ∧
    (tickSequence c (tickClosed s)).status.balReq = s.status.balReq ∧
    (tickSequence c (tickClosed s)).status.cfgPend = s.status.cfgPend ∧
    (tickSequence c (tickClosed s)).dcc = s.dcc ∧
    balanceBitmap (tickSequence c (tickClosed s)) = balanceBitmap (closeCycle s) := by
  have hbitmap : balanceBitmap (tickSequence c (tickClosed s)) = balanceBitmap (tickClosed s) :=
    balanceBitmap_congr (by rw [tickSequence_frame]) (by rw [tickSequence_frame]) (by rw [tickSequence_frame])
  refine ⟨?_, ?_, ?_, ?_, hbitmap⟩ <;> rw [tickSequence_frame] <;> rfl

/-- Settles O47: the control check with and without a request, on the state the sequencer leaves. -/
theorem tickControlCheck : Obligations.TickControlCheck := by
  intro s t u hclose htick
  obtain rfl : closeCycle s = u := Host.Outcome.next.inj ((exec_close s).symm.trans hclose)
  obtain rfl := Host.Outcome.next.inj ((exec_tick_eq s).symm.trans htick)
  obtain ⟨hmode, hreq, hpend, hdcc, hbitmap⟩ := tickSequence_tickClosed_kept (tickCause s) s
  generalize tickSequence (tickCause s) (tickClosed s) = q at hmode hreq hpend hdcc hbitmap ⊢
  refine ⟨fun hon => ?balancing, fun hoff => ?normal⟩
  case balancing =>
    rw [tickControl_balancing q (hreq.trans hon)]
    exact ⟨rfl, hbitmap, rfl, decide_eq_true_iff⟩
  case normal =>
    rw [tickControl_normal q (hreq.trans hoff)]
    exact ⟨rfl, rfl, fun hbal => by simp [hmode, hbal], fun hnorm => by simp [hmode, hnorm, hdcc, hpend]⟩

end Sys2Proof.Machine
end

section
/-! The strobe and the watchdog (45_supervisor R370, R371, R374). -/

namespace Sys2Proof.Machine

/-- The saturating count as claims state it (R57). -/
theorem satIncr_eq (n : Half) : satIncr n = BitVec.ofNat 16 (min (n.toNat + 1) 0xFFFF) := by
  rw [← satIncr_toNat, BitVec.ofNat_toNat, BitVec.setWidth_eq]

/-- An entry into FAULT as one equation between states (R364). -/
theorem enterFault_eq (c : BitVec 5) (s : State) :
    enterFault c s = { s with
      evt := s.evt ||| 0x1
      status := { s.status with sup := .fault }
      cnt := { s.cnt with fault := BitVec.ofNat 16 (min (s.cnt.fault.toNat + 1) 0xFFFF) }
      seq := { s.seq with lastFtx := s.msCount, fcause := c }
      txq := if 8 ≤ s.txq.length then s.txq else s.txq ++ [faultFrame s.regs.idFault c]
      err := if 8 ≤ s.txq.length then s.err ||| 0x040 else s.err } := by
  rw [← satIncr_eq]
  by_cases hfull : 8 ≤ s.txq.length
  · simp [enterFault, raiseEvt, setSup, EvtBit.code, pushFault, push_of_full, hfull]
  · simp [enterFault, raiseEvt, setSup, EvtBit.code, pushFault, push_of_room, hfull, not_le.mp hfull, busFrame_faultData]

/-- Outside reset a strobe is the time base and the watchdog (R370). -/
theorem step_strobe_of_rst_false {s : State} {rest : List Event} (hrst : s.rst = false)
    (h : s.sched = .strobe :: rest) : step s = .next (timeStrobe { s with sched := rest }) := by
  simp [step_strobe h, hrst]

/-- Settles O48: the strobe by whether the watchdog is due at the advanced time. -/
theorem strobeRunsTheWatchdog : Obligations.StrobeRunsTheWatchdog := by
  intro s rest hrst hsched now due c
  rw [step_strobe_of_rst_false hrst hsched]
  have hdue_iff : wdogDue { s with sched := rest, msCount := now } = true ↔ due := wdogDue_iff _
  rcases timeStrobe_cases { s with sched := rest } with ⟨hquiet, e⟩ | ⟨hfires, e⟩ <;> rw [e]
  · have hnot : ¬ due := fun hdue => Bool.false_ne_true (hquiet.symm.trans (hdue_iff.mpr hdue))
    exact ⟨fun _ => rfl, fun hdue => absurd hdue hnot⟩
  · refine ⟨fun hnot => absurd (hdue_iff.mp hfires) hnot, fun _ => ?_⟩
    rw [enterFault_eq]
    rfl

/-- Right after a strobe the watchdog is not due: it has fired, or was not due at this time (R371, R374). -/
theorem wdogDue_timeStrobe (s : State) : wdogDue (timeStrobe s) = false := by
  rcases timeStrobe_cases s with ⟨hquiet, e⟩ | ⟨-, e⟩ <;> rw [e]
  · exact hquiet
  · simp [wdogDue]

/-- Settles O49: the watchdog's condition fails after the strobe, and WDOG_EN is set. -/
theorem watchdogBoundsTheDebounce : Obligations.WatchdogBoundsTheDebounce := by
  rintro s t ⟨hrst, rest, hsched⟩ hstep hen -
  obtain rfl := Host.Outcome.next.inj ((step_strobe_of_rst_false hrst hsched).symm.trans hstep)
  refine or_iff_not_imp_left.mpr fun hsup => not_le.mp fun hdeadline => ?_
  have hdue := (wdogDue_iff _).mpr ⟨hen, hsup, hdeadline⟩
  rw [wdogDue_timeStrobe] at hdue
  cases hdue

end Sys2Proof.Machine
end

section
/-! The way out of FAULT (45_supervisor R362, R365, R373): which instructions and steps keep the sequencer state and the
count of its entries, and what a tick in FAULT does. -/

namespace Sys2Proof.Machine

/-- The sequencer state is as it was, and no entry into FAULT was counted or cleared. -/
structure SupKept (s t : State) : Prop where
  sup : t.status.sup = s.status.sup
  count : t.cnt.fault = s.cnt.fault

/-! The instructions -/

/-- The PEC check counts its mismatches alone (R230). -/
@[simp] theorem parseCheck_fault (e : ErrBit) (s : State) : (parseCheck e s).cnt.fault = s.cnt.fault := by
  rw [parseCheck_frame]

/-- No command but TICK counts an entry (R364, R373). -/
theorem CommandEffect.faultCount {s t : State} {i : Instr} (h : CommandEffect s i t) (htick : i ≠ .tick) :
    t.cnt.fault = s.cnt.fault := by
  cases h with
  | tick => exact absurd rfl htick
  | txTelemDiag => simp [pushCells]
  | _ => simp

theorem supKept_of_exec_rd {off : Offset} {size : AccessSize} {s t : State} (h : exec (.rd off size) s = .next t) :
    SupKept s t := by
  rcases exec_rd_inv h with ⟨-, rfl⟩ | ⟨r, -, rfl⟩ <;> exact ⟨rfl, rfl⟩

theorem supKept_of_command {i : Instr} (hc : i.isCommand = true) (htick : i ≠ .tick) {s t : State}
    (h : exec i s = .next t) : SupKept s t :=
  ⟨(command_effect hc h).sup htick, (command_effect hc h).faultCount htick⟩

/-- A write to a counter clears the count of entries only as a write to `FAULT_CNT` (R57). -/
theorem clearCounter_fault (r : Reg) (s : State) :
    (clearCounter r s).cnt.fault = s.cnt.fault ∨ ((clearCounter r s).cnt.fault = 0 ∧ r = .faultCnt) := by
  unfold clearCounter
  split <;> simp

/-- A host write keeps both, but for clearing the count by a write to `FAULT_CNT`, or runs TICK. -/
theorem supKept_of_exec_wr {off : Offset} {size : AccessSize} {v : Word} {s t : State}
    (h : exec (.wr off size v) s = .next t) :
    SupKept s t ∨ (t.status.sup = s.status.sup ∧ t.cnt.fault = 0 ∧ busReg off size = some .faultCnt) ∨
    (runs (.wr off size v) .tick ∧ exec .tick s = .next t) := by
  rcases exec_wr_inv h with rfl | ⟨r, -, -, rfl⟩ | ⟨r, -, -, rfl⟩ | ⟨r, hr, -, rfl⟩ | ⟨r, i, hr, hwo, hd, hc, he⟩ | rfl
  · exact .inl ⟨rfl, rfl⟩
  · rw [storeRw_frame]
    exact .inl ⟨rfl, rfl⟩
  · rw [clearSticky_frame]
    exact .inl ⟨rfl, rfl⟩
  · have hsup : (clearCounter r s).status.sup = s.status.sup := by rw [clearCounter_frame]
    rcases clearCounter_fault r s with hcount | ⟨hzero, rfl⟩
    · exact .inl ⟨hsup, hcount⟩
    · exact .inr (.inl ⟨hsup, hzero, hr⟩)
  · by_cases htick : i = .tick
    · subst htick
      exact .inr (.inr ⟨runs_of_busReg_wo hr hwo hd, he⟩)
    · exact .inl (supKept_of_command hc htick he)
  · exact .inl ⟨rfl, rfl⟩

/-- An instruction that moves the sequencer state is TICK. -/
theorem runs_tick_of_sup_ne {i : Instr} {s t : State} (h : exec i s = .next t)
    (hmoved : t.status.sup ≠ s.status.sup) : runs i .tick := by
  cases i with
  | rd off size => exact absurd (supKept_of_exec_rd h).sup hmoved
  | wr off size v =>
    rcases supKept_of_exec_wr h with hkept | ⟨hsup, -, -⟩ | ⟨hruns, -⟩
    · exact absurd hkept.sup hmoved
    · exact absurd hsup hmoved
    · exact hruns
  | tick => exact .inl rfl
  | _ => exact absurd (supKept_of_command rfl (by simp) h).sup hmoved

/-! From FAULT -/

/-- The watchdog is silent in FAULT (R371). -/
theorem supKept_timeStrobe {s : State} (hs : s.status.sup = .fault) : SupKept s (timeStrobe s) := by
  rcases timeStrobe_cases s with ⟨-, e⟩ | ⟨hdue, -⟩
  · rw [e]
    exact ⟨rfl, rfl⟩
  · obtain ⟨-, hsup, -⟩ := (wdogDue_iff _).mp hdue
    exact absurd hs hsup

/-- A tick in FAULT stays there uncounted, or is in limits and leaves it with FAULT_EXIT (R362, R366). -/
theorem tick_of_fault {s t : State} (hs : s.status.sup = .fault) (h : exec .tick s = .next t) :
    SupKept s t ∨ (t.status.sup = .idleSafe ∧ t.status.cause = 0 ∧ t.evt &&& 0x2 = 0x2) := by
  obtain ⟨hin, hout, -, -⟩ := tickSequencerTable s t (closeCycle s) (exec_close s) h
  by_cases hc : limits (closeCycle s) = 0
  · obtain ⟨hsup, -, -, -, -, hevt⟩ := hin hc
    have hcause : t.status.cause = limits (closeCycle s) := by
      rw [tick_frame s t (Host.Outcome.next.inj (h.symm.trans (exec_tick s)))]
      rfl
    have hexit : (s.evt ||| 0x6) &&& 0x2 = 0x2 := by
      generalize s.evt = e
      revert e
      decide
    refine .inr ⟨hsup, hcause.trans hc, ?_⟩
    rw [hevt, if_pos hs, hexit]
  · obtain ⟨hsup, hcount, -⟩ := hout hc hs
    exact .inl ⟨hsup.trans hs.symm, hcount⟩

/-- Settles O51: an instruction by what it runs; a step from FAULT by its event. -/
theorem onlyTickStrobeAndResetMoveSup : Obligations.OnlyTickStrobeAndResetMoveSup := by
  refine ⟨fun i s t h hmoved => runs_tick_of_sup_ne h hmoved, fun s t hs h => ?_⟩
  have hstays {rest : List Event} (hkept : SupKept { s with sched := rest } t) :
      t.status.sup = .fault ∧ (t.cnt.fault = s.cnt.fault ∨ (t.cnt.fault = 0 ∧ writeNext s 0x0A8)) :=
    ⟨hkept.sup.trans hs, .inl hkept.count⟩
  rcases step_cases h with ⟨-, rfl⟩ | ⟨rest, hsched, -⟩ | ⟨rest, -, rfl⟩ | ⟨rest, -, -, rfl⟩ | ⟨rest, -, -, rfl⟩ |
    ⟨off, size, rest, -, -, he⟩ | ⟨off, size, v, rest, hsched, hrst, he⟩
  · exact .inl ⟨hs, .inl rfl⟩
  · exact .inr (.inl ⟨rest, hsched⟩)
  · exact .inl ⟨hs, .inl rfl⟩
  · exact .inl ⟨hs, .inl rfl⟩
  · exact .inl (hstays (supKept_timeStrobe (s := { s with sched := rest }) hs))
  · exact .inl (hstays (supKept_of_exec_rd he))
  · rcases supKept_of_exec_wr he with hkept | ⟨hsup, hzero, hreg⟩ | ⟨hruns, htick⟩
    · exact .inl (hstays hkept)
    · exact .inl ⟨hsup.trans hs, .inr ⟨hzero, writeNext_of_busReg (r := .faultCnt) hsched hrst hreg⟩⟩
    · rcases tick_of_fault (s := { s with sched := rest }) hs htick with hkept | ⟨hsup, hcause, hexit⟩
      · exact .inl (hstays hkept)
      · obtain hwr | ⟨w, hwr, hd⟩ := hruns
        · cases hwr
        · cases hwr
          exact .inr (.inr ⟨hsup, hcause, hexit, v, ⟨hrst, rest, hsched⟩, hd⟩)

end Sys2Proof.Machine
end

section
/-! The host port (46_host_interface R400 to R404): `NOP`, and that every host transaction completes; so only the model's
refusal of an access in reset stops a step (70_reset_and_hazards R461). -/

namespace Sys2Proof.Machine

/-- Settles O13: `NOP`'s row of the opcode map uses no operand, and its meaning is the state itself. -/
theorem nopChangesNothing : Obligations.NopChangesNothing := fun s a b =>
  ⟨decode_commandWord (row := fun _ _ => .nop) decode_nop a b, exec_nop s⟩

/-! Every transaction completes (R404, R423) -/

/-- A write to `CMD` completes: with its command, or with ILLEGAL_CMD. -/
theorem writeCmd_total (v : Word) (s : State) : ∃ t, writeCmd v s = .next t := by
  rcases writeCmd_cases v s with ⟨i, -, hc, e⟩ | ⟨-, -, e⟩
  · obtain ⟨t, ht⟩ := exec_command_total hc s
    exact ⟨t, e.trans ht⟩
  · exact ⟨_, e⟩

theorem exec_rd_total (off : Offset) (size : AccessSize) (s : State) : ∃ t, exec (.rd off size) s = .next t := by
  cases h : busReg off size with
  | none => exact ⟨_, exec_rd_unmapped h s⟩
  | some r => exact ⟨_, exec_rd_mapped h s⟩

theorem exec_wr_total (off : Offset) (size : AccessSize) (v : Word) (s : State) :
    ∃ t, exec (.wr off size v) s = .next t := by
  rcases exec_wr_cases off size v s with ⟨-, e⟩ | ⟨r, -, ⟨-, e⟩ | ⟨-, e⟩ | ⟨-, e⟩ | ⟨-, e⟩ | ⟨-, e⟩⟩
  iterate 5 · exact ⟨_, e⟩
  · obtain ⟨t, ht⟩ := writeCmd_total v s
    exact ⟨t, e.trans ht⟩

/-- Settles O54: the block answers a strobe and an edge of `rst` at once, and a host access outside reset completes. -/
theorem onlyAccessInResetIsRefused : Obligations.OnlyAccessInResetIsRefused := by
  intro s
  cases hsched : s.sched with
  | nil => exact .inl ⟨s, step_idle s hsched⟩
  | cons e rest =>
    cases e with
    | hostRead off size =>
      cases hrst : s.rst with
      | false =>
        obtain ⟨t, ht⟩ := exec_rd_total off size { s with sched := rest }
        exact .inl ⟨t, (step_hostRead_of_rst_false hrst hsched).trans ht⟩
      | true => exact .inr ⟨rfl, by rw [step_hostRead hsched, if_pos hrst], rest, .inl ⟨off, size, rfl⟩⟩
    | hostWrite off size v =>
      cases hrst : s.rst with
      | false =>
        obtain ⟨t, ht⟩ := exec_wr_total off size v { s with sched := rest }
        exact .inl ⟨t, (step_hostWrite_of_rst_false hrst hsched).trans ht⟩
      | true => exact .inr ⟨rfl, by rw [step_hostWrite hsched, if_pos hrst], rest, .inr ⟨off, size, v, rfl⟩⟩
    | strobe => exact .inl ⟨_, step_strobe hsched⟩
    | rstAssert => exact .inl ⟨_, step_rstAssert hsched⟩
    | rstRelease => exact .inl ⟨_, step_rstRelease hsched⟩

end Sys2Proof.Machine
end

section
/-! Reset (70_reset_and_hazards R460 to R462): the word of every register in the state `State.reset`, and that the state
after an assertion of `rst` reads as it does. -/

namespace Sys2Proof.Machine

/-- The registers whose reset value is not 0, with the words they read: the list of the claim (R460). -/
def resetWords : List (Reg × Word) :=
  [(.blkId, 0x424D5331), (.ctrl, 0x2), (.status, 0x60), (.pecRem, 0x10), (.pecOut, 0x20), (.vlim, 0xA7307D00),
    (.tlim, 0x7FFE8001), (.debMs, 450), (.linVref, 30000), (.idVsum, 0x110), (.idTsum, 0x111), (.idCell, 0x112),
    (.idFault, 0x11F), (.idBal, 0x120), (.idDiag, 0x121)]

theorem readReg_reset_of_mem : ∀ p ∈ resetWords, readReg p.1 State.reset = p.2 := by
  decide

/-! The registers that read 0 -/

theorem aggWord_zero (a : AggField) : aggWord Aggregates.zero a = 0 := by
  cases a <;> rfl

theorem frameWord_zero (w : Fin 23) : frameWord CellFrame.zero w = 0 := by
  revert w
  decide

theorem zero_cell (i : Fin Config.ncell) : CellFrame.zero.cell[i] = 0 := by
  simp [CellFrame.zero]

theorem zero_temp (j : Fin Config.ntemp) : CellFrame.zero.temp[j] = 0 := by
  simp [CellFrame.zero]

theorem newest_reset : newest State.reset = CellFrame.zero := reset_hist _

/-- Every register R460 gives no other value reads 0 after reset. -/
theorem readReg_reset_of_not_mem {r : Reg} (h : r ∉ resetWords.map Prod.fst) : readReg r State.reset = 0 := by
  cases r with
  | blkId | ctrl | status | pecRem | pecOut | vlim | tlim | debMs | linVref | idVsum | idTsum | idCell | idFault | idBal
  | idDiag => exact absurd (by decide) h
  | curCell i => exact congrArg zext32 (zero_cell i)
  | curTemp j => exact congrArg sext32 (zero_temp j)
  | auxRaw j => exact congrArg zext32 (zero_temp j)
  | curAgg a => exact aggWord_zero a
  | packAgg a => exact aggWord_zero a
  | lastCell i =>
    rw [readReg, newest_reset, zero_cell]
    rfl
  | hist k w => rw [readReg, reset_hist, frameWord_zero]
  | _ => rfl

/-! The events after an assertion -/

/-- A strobe is ignored while `rst` is asserted (R461). -/
theorem step_strobe_of_rst {s : State} {rest : List Event} (hrst : s.rst = true) (h : s.sched = .strobe :: rest) :
    step s = .next { s with sched := rest } := by
  rw [step_strobe h, if_pos hrst]

/-- After the release the interlock output is up and no interrupt is pending (R460, R461). -/
theorem outputs_reset (vs : List Word) (es : List Event) :
    ilkOk { State.reset with reads := vs, sched := es } = true ∧
    irq { State.reset with reads := vs, sched := es } = false := by
  simp [ilkOk, ilkOkBit, irq, State.reset]

/-- Settles O6: the state after the assertion is `State.reset` with `rst` high, so it reads as `State.reset` does. -/
theorem resetForgetsTheState : Obligations.ResetForgetsTheState := by
  intro s rest hs
  have hread (r : Reg) : readReg r (assertReset { s with sched := rest }) = readReg r State.reset :=
    readReg_congr r State.reset true s.reads rest
  obtain ⟨hilk, hirq⟩ := outputs_of_rst (s := assertReset { s with sched := rest }) rfl
  refine ⟨assertReset { s with sched := rest }, step_rstAssert hs, rfl, rfl, rfl, rfl, ?listed, ?others, rfl, hilk, hirq,
    ?strobe, ?release⟩
  case listed => exact fun p hp => (hread p.1).trans (readReg_reset_of_mem p hp)
  case others => exact fun r hr => (hread r).trans (readReg_reset_of_not_mem hr)
  case strobe => exact fun more hmore => step_strobe_of_rst rfl hmore
  case release => exact fun more hmore => ⟨_, step_rstRelease hmore, rfl, outputs_reset s.reads more⟩

end Sys2Proof.Machine
end

section
/-! The transmit queue over a step (44_bus R320, R335, 70_reset_and_hazards R473): its frames keep their places, but for
`TXQ_POP` and reset. -/

namespace Sys2Proof.Machine

theorem enterFault_prefix (c : BitVec 5) (s : State) : s.txq <+: (enterFault c s).txq := by
  have hpush : (enterFault c s).txq = (pushFault c s).txq := by simp
  rw [hpush]
  exact (pushed_fault c s).grows

theorem tickSequence_prefix (c : BitVec 5) (s : State) : s.txq <+: (tickSequence c s).txq := by
  rcases tickSequence_cases c s with ⟨-, e⟩ | ⟨-, -, -, -, e⟩ | ⟨-, -, -, e⟩ | ⟨-, -, -, e⟩ | ⟨-, -, -, e⟩
  · simp [e]
  · rw [e]
    exact (pushed_fault c s).grows
  · rw [e]
  · rw [e]
    exact enterFault_prefix c s
  · simp [e]

theorem timeStrobe_prefix (s : State) : s.txq <+: (timeStrobe s).txq := by
  rcases timeStrobe_cases s with ⟨-, e⟩ | ⟨-, e⟩
  · rw [e]
  · rw [e]
    exact enterFault_prefix (wdogCause s) (setCause (wdogCause s) { s with msCount := s.msCount + 1 })

/-- A command other than TXQ_POP leaves the queue or pushes onto it (R330 to R335). -/
theorem CommandEffect.txq_prefix {s t : State} {i : Instr} (h : CommandEffect s i t) (hpop : i ≠ .txqPop) :
    s.txq <+: t.txq := by
  cases h with
  | txVsum => exact (pushed_vsum s).grows
  | txTsum => exact (pushed_tsum s).grows
  | txCell => exact (pushed_cell _ s).grows
  | txTelem => exact (pushed_summaries s).grows
  | txTelemDiag => exact (pushed_burst s).grows
  | txqPop | txqPopEmpty => exact absurd rfl hpop
  | tick =>
    rw [tickControl_frame]
    exact tickSequence_prefix _ (setCause (tickCause s) (closeCycle s))
  | _ => simp

theorem txq_of_exec_rd {off : Offset} {size : AccessSize} {s t : State} (h : exec (.rd off size) s = .next t) :
    t.txq = s.txq := by
  rcases exec_rd_inv h with ⟨-, rfl⟩ | ⟨r, -, rfl⟩ <;> rfl

/-- A host write shortens the queue only as the command TXQ_POP. -/
theorem txq_prefix_of_exec_wr {off : Offset} {size : AccessSize} {v : Word} {s t : State}
    (h : exec (.wr off size v) s = .next t) : s.txq <+: t.txq ∨ runs (.wr off size v) .txqPop := by
  rcases exec_wr_inv h with rfl | ⟨r, -, -, rfl⟩ | ⟨r, -, -, rfl⟩ | ⟨r, -, -, rfl⟩ | ⟨r, i, hr, hwo, hd, hc, he⟩ | rfl
  · exact .inl List.prefix_rfl
  · rw [storeRw_frame]
    exact .inl List.prefix_rfl
  · rw [clearSticky_frame]
    exact .inl List.prefix_rfl
  · rw [clearCounter_frame]
    exact .inl List.prefix_rfl
  · by_cases hpop : i = .txqPop
    · subst hpop
      exact .inr (runs_of_busReg_wo hr hwo hd)
    · exact .inl ((command_effect hc he).txq_prefix hpop)
  · exact .inl List.prefix_rfl

/-- A host write that runs a command is the write of a word that decodes to it to `CMD` (R36, R140). -/
theorem commandNext_of_runs {s : State} {off : Offset} {size : AccessSize} {v : Word} {rest : List Event} {c : Instr}
    (hs : s.sched = .hostWrite off size v :: rest) (hrst : s.rst = false) (hc : c.isCommand = true)
    (h : runs (.wr off size v) c) : commandNext s v ∧ decode v = .ok c := by
  rcases h with rfl | ⟨w, hw, hd⟩
  · cases hc
  · cases hw
    exact ⟨⟨hrst, rest, hs⟩, hd⟩

/-- Settles O60: an event leaves the queue, pushes onto it, or is one of the two excepted. -/
theorem queueHeadIsStable : Obligations.QueueHeadIsStable := by
  intro s t h hreset hpop
  rcases step_cases h with ⟨-, rfl⟩ | ⟨rest, hs, -⟩ | ⟨rest, -, rfl⟩ | ⟨rest, -, -, rfl⟩ | ⟨rest, -, -, rfl⟩ |
    ⟨off, size, rest, -, -, he⟩ | ⟨off, size, v, rest, hs, hrst, he⟩
  · exact List.prefix_rfl
  · exact absurd ⟨rest, hs⟩ hreset
  · exact List.prefix_rfl
  · exact List.prefix_rfl
  · exact timeStrobe_prefix { s with sched := rest }
  · rw [txq_of_exec_rd he]
  · refine (txq_prefix_of_exec_wr he).resolve_right fun hruns => ?_
    obtain ⟨hnext, hd⟩ := commandNext_of_runs hs hrst rfl hruns
    exact hpop v hnext hd

end Sys2Proof.Machine
end

section
/-! Errors do not steer (60_exceptions R423): a command is a function of the state that commutes with setting error bits
beforehand. Shown of each operation a command is made of. -/

namespace Sys2Proof.Machine

/-- The state with the error bits `e` set as well. -/
def joinErr (e : BitVec 10) (s : State) : State := { s with err := e ||| s.err }

/-- The operation does the same whatever error bits are set, and raises its own beside them (R423). -/
def IgnoresErr (f : State → State) : Prop := ∀ e s, f (joinErr e s) = joinErr e (f s)

/-! How operations are put together -/

theorem ignoresErr_id : IgnoresErr id := fun _ _ => rfl

theorem IgnoresErr.comp {f g : State → State} (hf : IgnoresErr f) (hg : IgnoresErr g) :
    IgnoresErr (fun s => f (g s)) := fun e s => by
  show f (g (joinErr e s)) = _
  rw [hg, hf]

/-- An operation may read anything of the state but the error bits. -/
theorem IgnoresErr.reads {α : Type} {f : α → State → State} (hf : ∀ a, IgnoresErr (f a)) {p : State → α}
    (hp : ∀ e s, p (joinErr e s) = p s) : IgnoresErr (fun s => f (p s) s) := fun e s => by
  show f (p (joinErr e s)) (joinErr e s) = _
  rw [hp, hf]

/-- An operation may branch on anything but the error bits. -/
theorem IgnoresErr.ite {f g : State → State} (hf : IgnoresErr f) (hg : IgnoresErr g) {p : State → Prop}
    [∀ s, Decidable (p s)] (hp : ∀ e s, p (joinErr e s) ↔ p s) : IgnoresErr (fun s => if p s then f s else g s) :=
  fun e s => by
    by_cases h : p s
    · simp only [hp, h, if_true, hf e s]
    · simp only [hp, h, if_false, hg e s]

/-! The parts of a command -/

theorem ignoresErr_raiseErr (b : ErrBit) : IgnoresErr (raiseErr b) := fun e s => by
  simp only [raiseErr, joinErr, BitVec.or_assoc]

theorem ignoresErr_push (id : Word) (b : List Byte) : IgnoresErr (push id b) :=
  .ite (ignoresErr_raiseErr .txqOvf) (fun _ _ => rfl) (fun _ _ => Iff.rfl)

/-- A push of a frame made from the state. -/
theorem ignoresErr_pushFrame {id : State → Word} {b : State → List Byte} (hid : ∀ e s, id (joinErr e s) = id s)
    (hb : ∀ e s, b (joinErr e s) = b s) : IgnoresErr (fun s => push (id s) (b s) s) := fun e s => by
  show push (id (joinErr e s)) (b (joinErr e s)) (joinErr e s) = _
  rw [hid, hb, ignoresErr_push]

theorem ignoresErr_pushVsum : IgnoresErr pushVsum := ignoresErr_pushFrame (fun _ _ => rfl) (fun _ _ => rfl)

theorem ignoresErr_pushTsum : IgnoresErr pushTsum := ignoresErr_pushFrame (fun _ _ => rfl) (fun _ _ => rfl)

theorem ignoresErr_pushCell (k : Fin 4) : IgnoresErr (pushCell k) :=
  ignoresErr_pushFrame (fun _ _ => rfl) (fun _ _ => rfl)

theorem ignoresErr_pushFault (c : BitVec 5) : IgnoresErr (pushFault c) :=
  ignoresErr_pushFrame (fun _ _ => rfl) (fun _ _ => rfl)

theorem ignoresErr_pushCells : IgnoresErr pushCells :=
  (ignoresErr_pushCell 3).comp ((ignoresErr_pushCell 2).comp ((ignoresErr_pushCell 1).comp (ignoresErr_pushCell 0)))

theorem ignoresErr_pushSummaries : IgnoresErr (fun s => pushTsum (pushVsum s)) :=
  ignoresErr_pushTsum.comp ignoresErr_pushVsum

theorem ignoresErr_parseCheck (b : ErrBit) : IgnoresErr (parseCheck b) :=
  .ite ignoresErr_id ((ignoresErr_raiseErr b).comp fun _ _ => rfl) (fun _ _ => Iff.rfl)

theorem ignoresErr_applyCv (g : Fin 4) : IgnoresErr (applyCv g) := fun _ _ => rfl

theorem ignoresErr_applyAux (g : Fin 2) : IgnoresErr (applyAux g) := by
  match g with
  | 0 | 1 => exact fun _ _ => rfl

/-- A parsed frame: the PEC check, and the data applied when it passes or the policy is ACCEPT (R230). -/
theorem ignoresErr_parse (b : ErrBit) {apply : State → State} (h : IgnoresErr apply) :
    IgnoresErr (fun s => if parseApply s then apply (parseCheck b s) else parseCheck b s) :=
  .ite (h.comp (ignoresErr_parseCheck b)) (ignoresErr_parseCheck b) (fun _ _ => Iff.rfl)

theorem ignoresErr_setMode (m : OpMode) : IgnoresErr (setMode m) :=
  .ite ignoresErr_id (fun _ _ => rfl) (fun _ _ => Iff.rfl)

/-! The parts of a tick -/

theorem ignoresErr_enterFault (c : BitVec 5) : IgnoresErr (enterFault c) :=
  .comp (f := fun s => { s with seq := { s.seq with lastFtx := s.msCount } }) (fun _ _ => rfl)
    ((ignoresErr_pushFault c).comp fun _ _ => rfl)

theorem ignoresErr_tickPass : IgnoresErr tickPass :=
  .comp (f := fun s => setSup .idleSafe { s with seq := { s.seq with lastGood := s.msCount } }) (fun _ _ => rfl)
    (.ite (f := raiseEvt .faultExit) (fun _ _ => rfl) ignoresErr_id (fun _ _ => Iff.rfl))

theorem ignoresErr_tickRepeat (c : BitVec 5) : IgnoresErr (tickRepeat c) :=
  .ite (.comp (f := fun s => { s with seq := { s.seq with lastFtx := s.msCount } }) (fun _ _ => rfl)
    (ignoresErr_pushFault c)) ignoresErr_id (fun _ _ => Iff.rfl)

theorem ignoresErr_tickDebounce (c : BitVec 5) : IgnoresErr (tickDebounce c) :=
  .ite (ignoresErr_enterFault c) (fun _ _ => rfl) (fun _ _ => Iff.rfl)

theorem ignoresErr_tickSequence (c : BitVec 5) : IgnoresErr (tickSequence c) :=
  .ite ignoresErr_tickPass
    (.ite (ignoresErr_tickRepeat c) (ignoresErr_tickDebounce c) (fun _ _ => Iff.rfl)) (fun _ _ => Iff.rfl)

theorem ignoresErr_tickControl : IgnoresErr tickControl :=
  .comp (f := fun s => if s.status.mode = .balancing then balanceStep s else s)
    (.ite (fun _ _ => rfl) ignoresErr_id (fun _ _ => Iff.rfl))
    (.reads (f := fun b => setMode (modeOf b)) (fun b => ignoresErr_setMode (modeOf b)) (fun _ _ => rfl))

/-- A tick after its limit check, for the cause bits `c` the check gave. -/
theorem ignoresErr_tickWithCause (c : BitVec 5) :
    IgnoresErr (fun s => tickControl (tickSequence c (setCause c (closeCycle s)))) :=
  ignoresErr_tickControl.comp ((ignoresErr_tickSequence c).comp fun _ _ => rfl)

/-! The commands -/

/-- The instruction is an operation that ignores the error bits. -/
def ErrBlind (i : Instr) : Prop := ∃ f, IgnoresErr f ∧ ∀ s, exec i s = .next (f s)

/-- With its operand out of range the command raises BAD_ARG and nothing else (R145). -/
theorem ErrBlind.of_range {i : Instr} {a : Byte} {n : Nat} (hin : a.toNat < n → ErrBlind i)
    (hout : ¬ a.toNat < n → ∀ s, exec i s = .next (raiseErr .badArg s)) : ErrBlind i := by
  by_cases h : a.toNat < n
  · exact hin h
  · exact ⟨_, ignoresErr_raiseErr .badArg, hout h⟩

theorem errBlind_parseCfg : ErrBlind .parseCfg :=
  ⟨_, .ite (ignoresErr_parseCheck .pecCfg) ((ignoresErr_raiseErr .cfgMismatch).comp (ignoresErr_parseCheck .pecCfg))
    (fun _ _ => Iff.rfl), exec_parseCfg⟩

theorem errBlind_balance : ErrBlind .balance := by
  refine ⟨_, .ite (p := fun s => s.status.mode = .normal) (ignoresErr_raiseErr .mode)
    (g := fun s => pendCfg { s with dcc := balanceBitmap s }) (fun _ _ => rfl) (fun _ _ => Iff.rfl), fun s => ?_⟩
  cases hm : s.status.mode
  · exact exec_balance_normal s hm
  · exact exec_balance_balancing s hm

theorem errBlind_txTelem : ErrBlind .txTelem :=
  ⟨_, .ite (ignoresErr_pushCells.comp ignoresErr_pushSummaries) ignoresErr_pushSummaries (fun _ _ => Iff.rfl),
    exec_txTelem⟩

theorem errBlind_txqPop : ErrBlind .txqPop := by
  refine ⟨_, .ite (p := fun s => s.txq = []) (ignoresErr_raiseErr .txqUnf)
    (g := fun s => { s with txq := s.txq.tail }) (fun _ _ => rfl) (fun _ _ => Iff.rfl), fun s => ?_⟩
  cases hq : s.txq with
  | nil => exact exec_txqPop_nil s hq
  | cons f rest => exact exec_txqPop_cons s f rest hq

theorem errBlind_rxFrame : ErrBlind .rxFrame :=
  ⟨_, .ite (f := fun s => raiseEvt .rxMatch { s with status := rxFlags s }) (fun _ _ => rfl) ignoresErr_id
    (fun _ _ => Iff.rfl), exec_rxFrame⟩

/-- Every command ignores the error bits (R423). -/
theorem errBlind_of_command {i : Instr} (hc : i.isCommand = true) : ErrBlind i := by
  cases i with
  | rd => cases hc
  | wr => cases hc
  | nop => exact ⟨_, ignoresErr_id, exec_nop⟩
  | pecInit => exact ⟨_, fun _ _ => rfl, exec_pecInit⟩
  | pecByte b => exact ⟨_, fun _ _ => rfl, exec_pecByte b⟩
  | buildCmd c => exact ⟨_, fun _ _ => rfl, exec_buildCmd c⟩
  | buildWrcfg c => exact ⟨_, fun _ _ => rfl, exec_buildWrcfg c⟩
  | parseCv g =>
    exact .of_range (fun h => ⟨_, ignoresErr_parse .pecCv (ignoresErr_applyCv ⟨g.toNat, h⟩),
      fun s => exec_parseCv g s h⟩) fun h s => exec_parseCv_bad g s h
  | parseAux g =>
    exact .of_range (fun h => ⟨_, ignoresErr_parse .pecAux (ignoresErr_applyAux ⟨g.toNat, h⟩),
      fun s => exec_parseAux g s h⟩) fun h s => exec_parseAux_bad g s h
  | parseCfg => exact errBlind_parseCfg
  | balance => exact errBlind_balance
  | setMode m =>
    exact .of_range (fun h => ⟨_, ignoresErr_setMode _, fun s => exec_setMode m s h⟩)
      fun h s => exec_setMode_bad m s h
  | linTemp j c =>
    exact .of_range (fun h => ⟨_, fun _ _ => rfl, fun s => exec_linTemp j c s h⟩) fun h s => exec_linTemp_bad j c s h
  | updCell k v =>
    exact .of_range (fun h => ⟨_, fun _ _ => rfl, fun s => exec_updCell k v s h⟩) fun h s => exec_updCell_bad k v s h
  | updTemp j v =>
    exact .of_range (fun h => ⟨_, fun _ _ => rfl, fun s => exec_updTemp j v s h⟩) fun h s => exec_updTemp_bad j v s h
  | close => exact ⟨_, fun _ _ => rfl, exec_close⟩
  | txVsum => exact ⟨_, ignoresErr_pushVsum, exec_txVsum⟩
  | txTsum => exact ⟨_, ignoresErr_pushTsum, exec_txTsum⟩
  | txCell k =>
    exact .of_range (fun h => ⟨_, ignoresErr_pushCell ⟨k.toNat, h⟩, fun s => exec_txCell k s h⟩)
      fun h s => exec_txCell_bad k s h
  | txTelem => exact errBlind_txTelem
  | txqPop => exact errBlind_txqPop
  | rxFrame => exact errBlind_rxFrame
  | tick => exact ⟨_, .reads ignoresErr_tickWithCause (fun _ _ => rfl), exec_tick⟩

/-- Settles O56: the state with `ERR = e` is the state with `ERR = 0` and the bits of `e` set beforehand. -/
theorem errorsDoNotSteerCommands : Obligations.ErrorsDoNotSteerCommands := by
  intro i s t e hc h
  obtain ⟨f, hf, hexec⟩ := errBlind_of_command hc
  have ht : f { s with err := 0 } = t := Host.Outcome.next.inj ((hexec _).symm.trans h)
  have hjoin : { s with err := e } = joinErr e { s with err := 0 } := by simp [joinErr]
  calc exec i { s with err := e }
    _ = .next (f (joinErr e { s with err := 0 })) := by rw [hexec, hjoin]
    _ = .next (joinErr e t) := by rw [hf, ht]

end Sys2Proof.Machine
end
